-- ==== Sys2Proof/Word.lean ====
section
/-! DEFINITION. The word types of the BDQ-GEMM engine and their plainest arithmetic (spec/00_scope.md R7, R10, R13). -/

namespace Sys2Proof

/-- One byte of memory (20_memory R40). -/
abbrev Byte := BitVec 8

/-- A 64-bit byte address or register value (00_scope R6). -/
abbrev Word := BitVec 64

/-- A binary32 pattern: sign in bit 31, biased exponent in bits 30:23, fraction in bits 22:0 (00_scope R10). -/
abbrev F32 := BitVec 32

/-- `ceil_div(a, b)` of 00_scope R13, meaningful for `b > 0`. -/
def ceilDiv (a b : Nat) : Nat := (a + b - 1) / b

/-- `a` rounded up to a multiple of 16, `16 * ceil_div(a, 16)` (30_encoding R74, 43_dequantize R123). -/
def roundUp16 (a : Nat) : Nat := 16 * ceilDiv a 16

end Sys2Proof
end

