-- ==== Sys2Proof/Config.lean ====
section
/-! DEFINITION. What the spec fixes as configuration, and the free values it leaves open: opaque constants with no
body, so that nothing can be proved of their value (spec/93_implementation_defined.md U1 to U4). -/

namespace Sys2Proof.Config

/-- The value of the identity register: "BDQG", version 1.0, weight width 4, activation width 8 (10_state R23). -/
def idValue : Word := 0x4244514701000408

/-- DESIGN CHOICE (log 4), unsafe: what a byte of memory that nothing has written reads as. -/
def unlistedByte : Byte := 0

/-- Free value (log 7, log 8, log 9, log 10): the unspecified content of the byte at an address, at the draw whose number is the
first argument (93 U1, U2, U3). -/
opaque anyByte : Nat → Nat → Byte

/-- Free value (log 7, log 11): which of several refused addresses a data bus fault reports, at the draw whose number is the
argument (93 U4). -/
opaque anyIndex : Nat → Nat

end Sys2Proof.Config
end

