-- ==== Sys2Proof/Syntax.lean ====
section
/-! DEFINITION. The eight commands of BDQ-CS 1.0, one constructor per row of the opcode table, each with exactly the
descriptor fields its command uses (spec/30_encoding.md R73, R75). -/

namespace Sys2Proof

/-- The compute mode `MODE` (00_scope R15): float-activation mode (0) or int8-activation mode (1). -/
inductive Mode where
  | float
  | int8
deriving DecidableEq, Repr

/-- A command with its used fields (30_encoding R73). A pointer used only when its flag is set is an `Option`:
`none` is the flag at 0, `some p` the flag at 1 and the pointer `p` (00_scope R15: HAS_ZP, HAS_BIAS). -/
inductive Instr where
  /-- PACKSZ, pack-size query (40_blockcodec R90). -/
  | packsz (blkLen : BitVec 16) (n k : BitVec 32)
  /-- PACK, reference layout at `ptrA` to packed layout at `ptrB` (40_blockcodec R92). -/
  | pack (mode : Mode) (blkLen : BitVec 16) (n k : BitVec 32) (ptrA ptrB : Word)
  /-- WSSZ, workspace-size query (41_workspace R100). -/
  | wssz (mode : Mode) (blkLen : BitVec 16) (m k : BitVec 32)
  /-- WSALIGN, workspace-alignment query (41_workspace R101). -/
  | wsalign (mode : Mode)
  /-- GEMMF, the float kernel (44_gemm_fp32 R131). -/
  | gemmf (blkLen : BitVec 16) (m n k lda ldc : BitVec 32) (ptrA ptrB ptrS : Word) (ptrZ ptrBias : Option Word)
      (ptrC : Word)
  /-- DEQ, the standalone dequantizer (43_dequantize R123). -/
  | deq (blkLen : BitVec 16) (n k ldc : BitVec 32) (ptrB ptrS : Word) (ptrZ : Option Word) (ptrC : Word)
  /-- GEMMI, the int8 kernel (45_gemm_int8 R141). -/
  | gemmi (blkLen : BitVec 16) (m n k ldc : BitVec 32) (ptrA ptrB ptrS : Word) (ptrZ ptrBias : Option Word)
      (ptrC : Word)
  /-- QROW, the activation quantizer (42_quantize R111). -/
  | qrow (blkLen : BitVec 16) (k : BitVec 32) (ptrA ptrC : Word)
deriving DecidableEq, Repr

/-- The fourteen fields of the one format `DESC72`, in the order of 30_encoding R71. -/
structure Descriptor where
  opcode : BitVec 8
  flags : BitVec 8
  blkLen : BitVec 16
  m : BitVec 32
  n : BitVec 32
  k : BitVec 32
  lda : BitVec 32
  ldc : BitVec 32
  ptrA : Word
  ptrB : Word
  ptrS : Word
  ptrZ : Word
  ptrBias : Word
  ptrC : Word
deriving DecidableEq, Repr

end Sys2Proof
end

