-- ==== Sys2Proof/WellFormed.lean ====
section
/-! DEFINITION. Which commands are legal: the values of spec/30_encoding.md R74 and the alignments of
spec/20_memory.md R42. An ill-formed command still decodes; executing it takes the fault of 60_exceptions R156. -/

namespace Sys2Proof

/-- Legal block length: at least 16 and a multiple of 16 (R74). -/
def blkLenOk (b : BitVec 16) : Bool := 16 ≤ b.toNat && b.toNat % 16 == 0

/-- Legal dimension: at most 2^31 - 1 (R74). -/
def dimOk (d : BitVec 32) : Bool := d.toNat < 2 ^ 31

/-- Output rows do not overlap: the row stride covers `width` elements (R74). -/
def strideOk (ldc : BitVec 32) (width : Nat) : Bool := width ≤ ldc.toNat

/-- A pointer to binary32 or Q8 data is a multiple of 4 (R42). -/
def align4Ok (p : Word) : Bool := p.toNat % 4 == 0

/-- The bias pointer is checked only when the bias is used (R42). -/
def biasOk : Option Word → Bool
  | none => true
  | some p => align4Ok p

/-- The legal commands (R74 and R42; which fields each command uses is R73). -/
def Instr.wellFormed : Instr → Bool
  | .packsz b n k => blkLenOk b && dimOk n && dimOk k
  | .pack _ b n k _ _ => blkLenOk b && dimOk n && dimOk k
  | .wssz _ b m k => blkLenOk b && dimOk m && dimOk k
  | .wsalign _ => true
  | .gemmf b m n k _ ldc pa _ ps _ bias pc =>
    blkLenOk b && dimOk m && dimOk n && dimOk k && strideOk ldc n.toNat &&
      align4Ok pa && align4Ok ps && biasOk bias && align4Ok pc
  | .deq b n k ldc _ ps _ pc =>
    blkLenOk b && dimOk n && dimOk k && strideOk ldc (roundUp16 n.toNat) && align4Ok ps && align4Ok pc
  | .gemmi b m n k ldc pa _ ps _ bias pc =>
    blkLenOk b && dimOk m && dimOk n && dimOk k && strideOk ldc n.toNat &&
      align4Ok pa && align4Ok ps && biasOk bias && align4Ok pc
  | .qrow b k pa pc => blkLenOk b && dimOk k && align4Ok pa && align4Ok pc

end Sys2Proof
end

