-- ==== Sys2Proof/Decode.lean ====
section
/-! DEFINITION. The byte order, the fields of `DESC72`, the decoder and the encoder (spec/30_encoding.md R71 to R77;
spec/20_memory.md R41). -/

namespace Sys2Proof

/-- Little-endian assembly of bytes into an unsigned integer (00_scope R9, 20_memory R41). -/
def leNat : List Byte → Nat
  | [] => 0
  | b :: bs => b.toNat + 256 * leNat bs

/-- The `n` bytes of an unsigned integer, least significant first (00_scope R9, 20_memory R41). -/
def leBytes : Nat → Nat → List Byte
  | 0, _ => []
  | n + 1, v => BitVec.ofNat 8 v :: leBytes n (v / 256)

/-- The unsigned little-endian field of `len` bytes at byte offset `off` (30_encoding R71). -/
def field (w : Nat) (bs : List Byte) (off len : Nat) : BitVec w := BitVec.ofNat w (leNat ((bs.drop off).take len))

/-- The fields of a descriptor's 72 bytes (30_encoding R71). -/
def Descriptor.ofBytes (bs : List Byte) : Descriptor where
  opcode := field 8 bs 0 1
  flags := field 8 bs 1 1
  blkLen := field 16 bs 2 2
  m := field 32 bs 4 4
  n := field 32 bs 8 4
  k := field 32 bs 12 4
  lda := field 32 bs 16 4
  ldc := field 32 bs 20 4
  ptrA := field 64 bs 24 8
  ptrB := field 64 bs 32 8
  ptrS := field 64 bs 40 8
  ptrZ := field 64 bs 48 8
  ptrBias := field 64 bs 56 8
  ptrC := field 64 bs 64 8

/-- The 72 bytes of a descriptor (30_encoding R71). -/
def Descriptor.toBytes (d : Descriptor) : List Byte :=
  leBytes 1 d.opcode.toNat ++ leBytes 1 d.flags.toNat ++ leBytes 2 d.blkLen.toNat ++ leBytes 4 d.m.toNat ++
  leBytes 4 d.n.toNat ++ leBytes 4 d.k.toNat ++ leBytes 4 d.lda.toNat ++ leBytes 4 d.ldc.toNat ++
  leBytes 8 d.ptrA.toNat ++ leBytes 8 d.ptrB.toNat ++ leBytes 8 d.ptrS.toNat ++ leBytes 8 d.ptrZ.toNat ++
  leBytes 8 d.ptrBias.toNat ++ leBytes 8 d.ptrC.toNat

/-- The descriptor whose fields are all 0: the unwritten fields of an encoding (30_encoding R83). -/
def Descriptor.zero : Descriptor :=
  ⟨0, 0, 0, 0, 0, 0, 0, 0, 0, 0, 0, 0, 0, 0⟩

/-- `FLAGS[0]`, `HAS_ZP`: the zero-point pointer when it is used (00_scope R15). -/
def Descriptor.zeroPoints (d : Descriptor) : Option Word := if d.flags.getLsbD 0 then some d.ptrZ else none

/-- `FLAGS[1]`, `HAS_BIAS`: the bias pointer when it is used (00_scope R15). -/
def Descriptor.bias (d : Descriptor) : Option Word := if d.flags.getLsbD 1 then some d.ptrBias else none

/-- `FLAGS[2]`, `MODE` (00_scope R15). -/
def Descriptor.mode (d : Descriptor) : Mode := if d.flags.getLsbD 2 then .int8 else .float

/-- Why 72 bytes are no command (30_encoding R76). -/
inductive DecodeError where
  /-- not 72 bytes: raised by no fetch of the engine, which always reads 72 -/
  | length (n : Nat)
  /-- `OPCODE` is 0x00 or in 0x09 .. 0xFF -/
  | opcode (op : BitVec 8)
  /-- a bit of `FLAGS[7:3]` is set -/
  | reserved (flags : BitVec 8)
deriving DecidableEq, Repr

/-- The command a legal opcode selects, with its used fields (30_encoding R73, R75). -/
def Descriptor.select (d : Descriptor) : Option Instr :=
  match d.opcode.toNat with
  | 0x01 => some (.packsz d.blkLen d.n d.k)
  | 0x02 => some (.pack d.mode d.blkLen d.n d.k d.ptrA d.ptrB)
  | 0x03 => some (.wssz d.mode d.blkLen d.m d.k)
  | 0x04 => some (.wsalign d.mode)
  | 0x05 => some (.gemmf d.blkLen d.m d.n d.k d.lda d.ldc d.ptrA d.ptrB d.ptrS d.zeroPoints d.bias d.ptrC)
  | 0x06 => some (.deq d.blkLen d.n d.k d.ldc d.ptrB d.ptrS d.zeroPoints d.ptrC)
  | 0x07 => some (.gemmi d.blkLen d.m d.n d.k d.ldc d.ptrA d.ptrB d.ptrS d.zeroPoints d.bias d.ptrC)
  | 0x08 => some (.qrow d.blkLen d.k d.ptrA d.ptrC)
  | _ => none

/-- Decoding of a descriptor, total: steps 3 and 4 of 60_exceptions R156 in their order (30_encoding R76, R77). The value
checks, steps 5 to 7, are made by the command (`Instr.check`). -/
def decode (d : Descriptor) : Except DecodeError Instr :=
  match d.select with
  | none => .error (.opcode d.opcode)
  | some i => if 8 ≤ d.flags.toNat then .error (.reserved d.flags) else .ok i

/-- Decoding of any byte string (30_encoding R70, R77). -/
def decodeBytes (bs : List Byte) : Except DecodeError Instr :=
  if bs.length = 72 then decode (Descriptor.ofBytes bs) else .error (.length bs.length)

/-- What the decoder reads from an opcode-table word: the 72 bytes of `w`'s low `nbits` bits, the first at the
lowest address (opcode_table.json: bit 0 is bit 0 of the byte at the descriptor address). -/
def decodeTableWord (nbits w : Nat) : Option Instr := (decodeBytes (leBytes 72 (w % 2 ^ nbits))).toOption

/-- The opcode of a command (30_encoding R75). -/
def Instr.opcode : Instr → BitVec 8
  | .packsz .. => 0x01
  | .pack .. => 0x02
  | .wssz .. => 0x03
  | .wsalign .. => 0x04
  | .gemmf .. => 0x05
  | .deq .. => 0x06
  | .gemmi .. => 0x07
  | .qrow .. => 0x08

/-- `MODE` as bit 2 of `FLAGS` (30_encoding R71). -/
def Mode.flag : Mode → BitVec 8
  | .float => 0
  | .int8 => 4

/-- `HAS_ZP` as bit 0 of `FLAGS` (30_encoding R71). -/
def zpFlag (p : Option Word) : BitVec 8 := if p.isSome then 1 else 0

/-- `HAS_BIAS` as bit 1 of `FLAGS` (30_encoding R71). -/
def biasFlag (p : Option Word) : BitVec 8 := if p.isSome then 2 else 0

/-- The descriptor of a command: every field the command does not use is 0 (30_encoding R73, R83). -/
def Instr.descriptor (i : Instr) : Descriptor :=
  let d := { Descriptor.zero with opcode := i.opcode }
  match i with
  | .packsz b n k => { d with blkLen := b, n := n, k := k }
  | .pack mode b n k pa pb => { d with flags := mode.flag, blkLen := b, n := n, k := k, ptrA := pa, ptrB := pb }
  | .wssz mode b m k => { d with flags := mode.flag, blkLen := b, m := m, k := k }
  | .wsalign mode => { d with flags := mode.flag }
  | .gemmf b m n k lda ldc pa pb ps pz pbias pc =>
    { d with
      flags := zpFlag pz ||| biasFlag pbias, blkLen := b, m := m, n := n, k := k, lda := lda, ldc := ldc,
      ptrA := pa, ptrB := pb, ptrS := ps, ptrZ := pz.getD 0, ptrBias := pbias.getD 0, ptrC := pc }
  | .deq b n k ldc pb ps pz pc =>
    { d with flags := zpFlag pz, blkLen := b, n := n, k := k, ldc := ldc, ptrB := pb, ptrS := ps, ptrZ := pz.getD 0, ptrC := pc }
  | .gemmi b m n k ldc pa pb ps pz pbias pc =>
    { d with
      flags := zpFlag pz ||| biasFlag pbias, blkLen := b, m := m, n := n, k := k, ldc := ldc,
      ptrA := pa, ptrB := pb, ptrS := ps, ptrZ := pz.getD 0, ptrBias := pbias.getD 0, ptrC := pc }
  | .qrow b k pa pc => { d with blkLen := b, k := k, ptrA := pa, ptrC := pc }

/-- The 72 bytes of a command (30_encoding R71). -/
def encode (i : Instr) : List Byte := i.descriptor.toBytes

end Sys2Proof
end

