-- ==== Sys2Proof/Machine/State.lean ====
section
/-! DEFINITION. The state of the machine as plain data: the engine instances, memory, the platform's parameters and the
turns to come (spec/10_state.md, spec/20_memory.md R40, spec/60_exceptions.md R171), and State.reset. -/

namespace Sys2Proof.Machine

/-- Memory: the listed bytes; an unlisted address holds `Config.unlistedByte` (20_memory R40). -/
abbrev Memory := List Host.Cell

/-- The addresses `base .. base + len - 1`, over the integers (20_memory section 3: `[base, +len)`). -/
structure Range where
  base : Nat
  len : Nat
deriving DecidableEq, Repr

/-- The seven fault causes (60_exceptions R151). Taking one is a next state, not an outcome of the model. -/
inductive FaultCode where
  /-- ERR_DESC_ALIGN: the address written to CMD is not a multiple of 8 -/
  | descAlign
  /-- ERR_BUS: an access touched a byte that is not Mapped or lies at or above 2^64 -/
  | bus
  /-- ERR_OPCODE: OPCODE encodes no command -/
  | opcode
  /-- ERR_RESERVED: FLAGS[7:3] is not 0 -/
  | reserved
  /-- ERR_BLKLEN: BLKLEN is below 16 or no multiple of 16 -/
  | blkLen
  /-- ERR_DIM: a used dimension is 2^31 or more, or LDC is too small -/
  | dim
  /-- ERR_ALIGN: a used pointer that needs alignment 4 is no multiple of 4 -/
  | align
deriving DecidableEq, Repr

/-- A fault to be raised: its code and its information word (60_exceptions R151, R152). -/
structure Cause where
  code : FaultCode
  info : Word
deriving DecidableEq, Repr

/-- The eight registers of the window (10_state R22). -/
inductive Reg where
  | id | ctrl | status | cmd | result | errCode | errInfo | seq
deriving DecidableEq, Repr

/-- One engine instance (60_exceptions R171). Reserved register bits and the register ID have no storage: they read as
constants and ignore writes (10_state R22 to R25, R28; 93 U14), which `readReg` and `writeReg` say. -/
structure Engine where
  /-- ENGINE_BASE / 64: ENGINE_BASE is a multiple of 64, a parameter of the platform that no step changes (00_scope R6,
  10_state R22); `Engine.base` is the address -/
  baseBlock : BitVec 58
  /-- CTRL.IRQ_EN (10_state R24) -/
  irqEn : Bool
  /-- STATUS.BUSY (10_state R25) -/
  busy : Bool
  /-- STATUS.DONE (10_state R25) -/
  done : Bool
  /-- STATUS.ERR (10_state R25) -/
  err : Bool
  /-- CMD, the address of the last accepted doorbell (10_state R26) -/
  cmd : Word
  /-- RESULT (10_state R27) -/
  result : Word
  /-- ERRCODE bits 7:0 (10_state R28) -/
  errCode : Byte
  /-- ERRINFO (10_state R29) -/
  errInfo : Word
  /-- SEQ (10_state R31) -/
  seq : Word
  /-- the latched descriptor D (10_state R30) -/
  latch : Descriptor
  /-- the MODEL's own field (log 8): another agent has broken 70_reset R185 since the running command was accepted -/
  disturbed : Bool
deriving DecidableEq, Repr

/-- One turn of the world outside the running command (00_scope R17, 70_reset R180; log 2). -/
inductive Turn where
  /-- the selected engine acts: a busy one runs its command to the end, an idle one does nothing (30_encoding R82) -/
  | engine
  /-- the host reads a register: the address, and the size of the access in bytes (10_state R33) -/
  | regRead (addr : Word) (size : Nat)
  /-- the host writes a register: the address, the size of the access in bytes, the value (10_state R33) -/
  | regWrite (addr : Word) (size : Nat) (value : Word)
  /-- an agent other than an engine reads a byte of memory (20_memory R66) -/
  | memRead (addr : Word)
  /-- an agent other than an engine writes a byte of memory (20_memory R65) -/
  | memWrite (addr : Word) (value : Byte)
  /-- the platform asserts the selected engine's hard reset (70_reset R181) -/
  | hardReset
  /-- the turns that follow are about the `k`-th of the other engine instances (60_exceptions R171) -/
  | select (k : Nat)
deriving DecidableEq, Repr

/-- The whole machine. -/
structure State where
  /-- the engine instance the turns are about -/
  eng : Engine
  /-- the other engine instances (60_exceptions R171) -/
  others : List Engine
  /-- memory, shared by all agents (20_memory R40, 10_state R36) -/
  mem : Memory
  /-- Mapped, a parameter of the platform: the regions an engine may access; no step changes it (20_memory R46) -/
  mapped : List Range
  /-- the MODEL's own field (log 2): the turns to come; when none is left the engines move (`nextTurn`) -/
  turns : List Turn
  /-- the MODEL's own field (log 2): what the host's last read returned -/
  hostData : Word
  /-- the MODEL's own field (log 7): how many free values have been drawn -/
  fresh : Nat
deriving DecidableEq, Repr

/-- No step ends in a fault of the model: every fault the spec gives the engine is a next state with ERR, ERRCODE and
ERRINFO written (60_exceptions R152). The type has no constructor; that is safe. -/
inductive Fault
deriving DecidableEq, Repr

/-- Why the model answers no next state. -/
inductive Refusal where
  /-- raised by `exec` for an instruction that has no meaning yet; safe -/
  | notModelled (mnemonic : String)
  /-- raised by a register turn that is no aligned 8-byte access inside the selected engine's window, which is outside
  the spec (10_state R33; 93 U9: refuse); safe -/
  | registerAccess (addr : Word) (size : Nat)
  /-- raised by a select turn that names an engine instance the system does not have (60_exceptions R171); safe -/
  | noSuchEngine (k : Nat)
deriving DecidableEq, Repr

/-- An engine right after reset: every register at its reset value (10_state R39). ENGINE_BASE / 64 and the latched
descriptor, which a reset does not touch, are the arguments. -/
def Engine.afterReset (baseBlock : BitVec 58) (latch : Descriptor) : Engine where
  baseBlock := baseBlock
  irqEn := false
  busy := false
  done := false
  err := false
  cmd := 0
  result := 0
  errCode := 0
  errInfo := 0
  seq := 0
  latch := latch
  disturbed := false

/-- The machine right after reset (10_state R39). DESIGN CHOICE, unsafe: the latched descriptor is all zeros (log 3), memory
lists nothing (log 4), there is one engine (log 5), its base is 0 and every address is mapped (log 6), no turn is
pending (log 2), and no free value has been drawn (log 7). -/
def State.reset : State where
  eng := Engine.afterReset 0 Descriptor.zero
  others := []
  mem := []
  mapped := [⟨0, 2 ^ 64⟩]
  turns := []
  hostData := 0
  fresh := 0

end Sys2Proof.Machine
end

