-- ==== Sys2Proof/Machine/Float.lean ====
section
/-! DEFINITION. The binary32 arithmetic of the engine (spec/00_scope.md R10, R11, R12; spec/42_quantize.md R113). A finite
magnitude is held exactly as an integer count of 2^-149, the least subnormal; a result is an exact quotient of two
integers in that unit, rounded once. -/

namespace Sys2Proof.Machine

/-- Bit 31 (R10). -/
def signBit (x : F32) : Bool := x.msb

/-- `fabsbits(a) = a[30:0]` (R12). -/
def absBits (x : F32) : Nat := x.toNat % 2 ^ 31

/-- The magnitude pattern of an infinity (R10). -/
def infBits : Nat := 0x7F800000

/-- A NaN: bits 30:0 exceed 0x7F800000 (R10). -/
def isNaN (x : F32) : Bool := infBits < absBits x

/-- An infinity of either sign (R10). -/
def isInf (x : F32) : Bool := absBits x == infBits

/-- A zero of either sign (R10). -/
def isZero (x : F32) : Bool := absBits x == 0

/-- `CNAN`, the canonical NaN (R10). -/
def cNaN : F32 := 0x7FC00000

/-- `+0.0` (R10). -/
def posZero : F32 := 0x00000000

/-- `1.0` (R10). -/
def one : F32 := 0x3F800000

/-- `127.0` (R10). -/
def f127 : F32 := 0x42FE0000

/-- The pattern with a sign and a magnitude pattern (R10). -/
def withSign (neg : Bool) (bits : Nat) : F32 := BitVec.ofNat 32 (if neg then 2 ^ 31 + bits else bits)

/-- The magnitude of a finite pattern as a count of 2^-149 (R10): the fraction itself when the exponent field is 0, else the
fraction with its leading bit, scaled by 2^(exponent field - 1). -/
def magnitude (x : F32) : Nat :=
  let e := absBits x / 2 ^ 23
  let f := absBits x % 2 ^ 23
  if e = 0 then f else (2 ^ 23 + f) * 2 ^ (e - 1)

/-- The integer nearest to `n / d`, ties to even, for `d > 0`. -/
def nearestEven (n d : Nat) : Nat :=
  let q := n / d
  let r := n % d
  if 2 * r < d then q else if d < 2 * r then q + 1 else q + q % 2

/-- The magnitude pattern nearest to `n / d` counts of 2^-149, ties to the even fraction; too large a result is the
infinity (R11). `e` is one less than the exponent field of a normal result and 0 for a subnormal one; a carry out of the
fraction runs into the exponent field. -/
def roundBits (n d : Nat) : Nat :=
  let e := Nat.log2 (n / d) - 23
  min infBits (e * 2 ^ 23 + nearestEven n (d * 2 ^ e))

/-- A rounded result with its sign (R11). -/
def roundF32 (neg : Bool) (n d : Nat) : F32 := withSign neg (roundBits n d)

/-- The value of a finite pattern as an integer count of 2^-149. -/
def scaledValue (x : F32) : Int := if signBit x then -(magnitude x : Int) else (magnitude x : Int)

/-- `fadd(a, b)` (R11). -/
def fadd (a b : F32) : F32 :=
  if isNaN a || isNaN b then cNaN
  else if isInf a then (if isInf b && signBit a != signBit b then cNaN else a)
  else if isInf b then b
  else
    let v := scaledValue a + scaledValue b
    if v = 0 then withSign (signBit a && signBit b) 0
    else roundF32 (v < 0) v.natAbs 1

/-- `fmul(a, b)` (R11). -/
def fmul (a b : F32) : F32 :=
  let neg := signBit a != signBit b
  if isNaN a || isNaN b then cNaN
  else if isInf a || isInf b then (if isZero a || isZero b then cNaN else withSign neg infBits)
  else roundF32 neg (magnitude a * magnitude b) (2 ^ 149)

/-- `fdiv(a, b)` (R11). -/
def fdiv (a b : F32) : F32 :=
  let neg := signBit a != signBit b
  if isNaN a || isNaN b then cNaN
  else if isInf a then (if isInf b then cNaN else withSign neg infBits)
  else if isInf b then withSign neg 0
  else if isZero b then (if isZero a then cNaN else withSign neg infBits)
  else roundF32 neg (magnitude a * 2 ^ 149) (magnitude b)

/-- `i2f(n)` (R12). -/
def i2f (n : Int) : F32 := roundF32 (n < 0) (n.natAbs * 2 ^ 149) 1

/-- `rta(y)`, for a finite `y`: the nearest integer, ties away from zero (R12). -/
def rta (y : F32) : Int :=
  let r : Nat := (2 * magnitude y + 2 ^ 149) / 2 ^ 150
  if signBit y then -(r : Int) else (r : Int)

/-- `cvt_i8(y)` (42_quantize R113). -/
def cvtI8 (y : F32) : Int :=
  if isNaN y then 0
  else if isInf y then (if signBit y then -127 else 127)
  else min 127 (max (-127) (rta y))

end Sys2Proof.Machine
end

