-- ==== Sys2Proof/Machine/Memory.lean ====
section
/-! DEFINITION. The named operations over memory: one byte read and written, little-endian values, lists of byte
stores, ranges of addresses and which of them the platform refuses (spec/20_memory.md R40, R41, R46). -/

namespace Sys2Proof.Machine

/-- The canonical form of memory: addresses strictly rising and below 2^64, and no entry equal to what an unlisted
address reads as (log 4). -/
abbrev Memory.wf (m : Memory) : Prop :=
  m.Pairwise (fun c d => c.1 < d.1) ∧ ∀ c ∈ m, c.1 < 2 ^ 64 ∧ c.2 ≠ Config.unlistedByte

/-- The byte at an address (20_memory R40). -/
def Memory.read : Memory → Nat → Byte
  | [], _ => Config.unlistedByte
  | c :: m, a => if c.1 = a then c.2 else Memory.read m a

/-- An entry put before a memory, left out when it is what an unlisted address reads as. -/
def Memory.cons (a : Nat) (b : Byte) (m : Memory) : Memory := if b = Config.unlistedByte then m else (a, b) :: m

/-- The list with the byte at an address replaced, in the canonical form. -/
def Memory.insert : Memory → Nat → Byte → Memory
  | [], a, b => Memory.cons a b []
  | c :: m, a, b =>
    if a < c.1 then Memory.cons a b (c :: m)
    else if c.1 = a then Memory.cons a b m
    else c :: Memory.insert m a b

/-- One byte written. There is no byte at or above 2^64 (20_memory R40), and the engine's accesses to such addresses have been
refused before (R46), so a write there changes nothing. -/
def Memory.write (m : Memory) (a : Nat) (b : Byte) : Memory := if a < 2 ^ 64 then Memory.insert m a b else m

/-- The `n` bytes from an address, lowest first. -/
def Memory.bytes (m : Memory) (a n : Nat) : List Byte := (List.range n).map fun i => m.read (a + i)

/-- `F32(addr)` of 00_scope R9: four bytes read as a binary32 pattern. -/
def Memory.f32 (m : Memory) (a : Nat) : F32 := BitVec.ofNat 32 (leNat (m.bytes a 4))

/-- `S8(addr)` of 00_scope R9: one byte as a two's-complement integer. -/
def Memory.s8 (m : Memory) (a : Nat) : Int := (m.read a).toInt

/-- A list of byte stores made in order, the last store to a byte winning. -/
def Memory.store (m : Memory) (ws : List (Nat × Byte)) : Memory := ws.foldl (fun m w => m.write w.1 w.2) m

/-- The byte stores of `F32(addr) <- v` (00_scope R9). -/
def f32Stores (a : Nat) (v : F32) : List (Nat × Byte) :=
  (List.range 4).map fun i => (a + i, BitVec.ofNat 8 (v.toNat / 256 ^ i))

/-- The addresses of a range, rising. -/
def Range.addrs (r : Range) : List Nat := (List.range r.len).map fun i => r.base + i

/-- Whether an address lies in a range. -/
def Range.has (r : Range) (a : Nat) : Bool := r.base ≤ a && a < r.base + r.len

/-- Whether two ranges share an address. -/
def Range.meets (r q : Range) : Bool := max r.base q.base < min (r.base + r.len) (q.base + q.len)

/-- The addresses of a footprint. -/
def addrsOf (rs : List Range) : List Nat := rs.flatMap Range.addrs

/-- Whether an address lies in a footprint. -/
def inRanges (rs : List Range) (a : Nat) : Bool := rs.any fun r => r.has a

/-- Whether two footprints share an address. -/
def rangesMeet (rs qs : List Range) : Bool := rs.any fun r => qs.any fun q => r.meets q

/-- `Mapped(a)`, and the address exists at all (20_memory R46). -/
def isMapped (mapped : List Range) (a : Nat) : Bool := a < 2 ^ 64 && inRanges mapped a

/-- The bytes of a footprint that the platform refuses (20_memory R46). -/
def refusedAddrs (mapped : List Range) (rs : List Range) : List Nat := (addrsOf rs).filter fun a => !isMapped mapped a

/-- The stores that leave a free value in every byte of a footprint, at draw `draw` (93 U1, U2, U3). -/
def freeStores (draw : Nat) (rs : List Range) : List (Nat × Byte) :=
  (addrsOf rs).map fun a => (a, Config.anyByte draw a)

end Sys2Proof.Machine
end

