-- ==== Sys2Proof/Machine/Operands.lean ====
section
/-! DEFINITION. The operands of the commands: the data layouts (spec/20_memory.md R49 to R56) as functions of memory, and the
read and write footprints (R57 to R63). -/

namespace Sys2Proof.Machine

/-- `BCK(K, BlkLen)`, the number of blocks along K (00_scope R13). -/
def blockCount (k blkLen : Nat) : Nat := ceilDiv k blkLen

/-- `Q8Size(BlkLen)` (00_scope R13). -/
def q8Size (blkLen : Nat) : Nat := 4 + blkLen

/-- `ZpStride(K, BlkLen)`, the zero-point bytes per column (00_scope R13). -/
def zpStride (k blkLen : Nat) : Nat := ceilDiv (blockCount k blkLen) 2

/-- `SubBlkLen(mode, BlkLen)` (00_scope R14). -/
def subBlkLen (mode : Mode) (blkLen : Nat) : Nat :=
  match mode with
  | .float => 16
  | .int8 => if blkLen % 32 = 0 then 32 else 16

/-- The low nibble, bits 3:0 (20_memory R41). -/
def lowNibble (b : Byte) : Nat := b.toNat % 16

/-- The high nibble, bits 7:4 (20_memory R41). -/
def highNibble (b : Byte) : Nat := b.toNat / 16

/-- Element `i` of the reference block at byte address `src`: `RefNib` (20_memory R50). -/
def refNibble (m : Memory) (src i : Nat) : Nat :=
  let b := m.read (src + i / 2)
  if i % 2 = 0 then lowNibble b else highNibble b

/-- Element `i` of the packed block at byte address `blk`: `Nib` (20_memory R51). -/
def packedNibble (m : Memory) (mode : Mode) (blkLen blk i : Nat) : Nat :=
  let s := subBlkLen mode blkLen
  let h := s / 2
  let j := i % s
  let b := m.read (blk + i / s * h + j % h)
  if j < h then lowNibble b else highNibble b

/-- A quantized weight matrix as DEQ, GEMMF and GEMMI find it in memory (20_memory R49): its dimensions and its packed
nibbles, scales and optional zero points. -/
structure Weights where
  blkLen : Nat
  n : Nat
  k : Nat
  ptrB : Nat
  ptrS : Nat
  ptrZ : Option Nat
deriving DecidableEq, Repr

/-- The weight operands of a command's fields (30_encoding R72: used as the integers they encode). -/
def weightsOf (blkLen : BitVec 16) (n k : BitVec 32) (ptrB ptrS : Word) (ptrZ : Option Word) : Weights :=
  ⟨blkLen.toNat, n.toNat, k.toNat, ptrB.toNat, ptrS.toNat, ptrZ.map BitVec.toNat⟩

/-- `BCK` of a weight matrix (20_memory R49). -/
def Weights.bck (w : Weights) : Nat := blockCount w.k w.blkLen

/-- The block index of block `kb` of column `n` (20_memory R49). -/
def Weights.block (w : Weights) (n kb : Nat) : Nat := n * w.bck + kb

/-- `Nib(mode, n, kb, i)` (20_memory R51). -/
def Weights.nib (w : Weights) (m : Memory) (mode : Mode) (n kb i : Nat) : Nat :=
  packedNibble m mode w.blkLen (w.ptrB + w.block n kb * (w.blkLen / 2)) i

/-- `Scale(n, kb)` (20_memory R53). -/
def Weights.scale (w : Weights) (m : Memory) (n kb : Nat) : F32 := m.f32 (w.ptrS + 4 * w.block n kb)

/-- `Zp(n, kb)`, 8 when there are no zero points (20_memory R54). -/
def Weights.zp (w : Weights) (m : Memory) (n kb : Nat) : Nat :=
  match w.ptrZ with
  | none => 8
  | some z =>
    let b := m.read (z + n * zpStride w.k w.blkLen + kb / 2)
    if kb % 2 = 0 then lowNibble b else highNibble b

/-- The bytes of a weight matrix that a kernel reads: packed nibbles, scales, zero points (20_memory R60 to R62). An illegal block
length is as at `writeFootprint` (log 10). -/
def Weights.reads (w : Weights) : List Range :=
  ⟨w.ptrB, w.n * w.bck * w.blkLen / 2⟩ :: ⟨w.ptrS, 4 * w.n * w.bck⟩ ::
    match w.ptrZ with
    | none => []
    | some z => [⟨z, w.n * zpStride w.k w.blkLen⟩]

/-- `QBase(m, kb)` of the workspace at `ptrA` (20_memory R55). -/
def qBase (ptrA blkLen bck row kb : Nat) : Nat := ptrA + (row * bck + kb) * q8Size blkLen

/-- `QScale(m, kb)` (20_memory R55). -/
def qScale (m : Memory) (ptrA blkLen bck row kb : Nat) : F32 := m.f32 (qBase ptrA blkLen bck row kb)

/-- `QCode(m, kb, i)` (20_memory R55). -/
def qCode (m : Memory) (ptrA blkLen bck row kb i : Nat) : Int := m.s8 (qBase ptrA blkLen bck row kb + 4 + i)

/-- `A(m, k)` with row stride `lda` (20_memory R56). -/
def activation (m : Memory) (ptrA lda row k : Nat) : F32 := m.f32 (ptrA + 4 * (row * lda + k))

/-- `Bias(n)`, when the bias is used (20_memory R56): an addition is made only then (44_gemm_fp32 R131). -/
def addBias (m : Memory) (bias : Option Word) (n : Nat) (v : F32) : F32 :=
  match bias with
  | none => v
  | some p => fadd v (m.f32 (p.toNat + 4 * n))

/-- The byte address of output element `(row, col)` with row stride `ldc` (20_memory R56). -/
def outAddr (ptrC ldc row col : Nat) : Nat := ptrC + 4 * (row * ldc + col)

/-- `rows` rows of `width` binary32 elements at row stride `stride` elements (20_memory R60, R61). -/
def rowRanges (ptr stride rows width : Nat) : List Range :=
  (List.range rows).map fun r => ⟨ptr + 4 * (r * stride), 4 * width⟩

/-- The bias bytes a kernel reads (20_memory R61, R62). -/
def biasReads (bias : Option Word) (n : Nat) : List Range :=
  match bias with
  | none => []
  | some p => [⟨p.toNat, 4 * n⟩]

/-- The read footprint `RF` of a command, less the descriptor bytes, which the fetch has read (20_memory R57 to R62). An illegal
block length is as at `writeFootprint` (log 10). -/
def readFootprint : Instr → List Range
  | .packsz .. => []
  | .pack _ b n k pa _ => [⟨pa.toNat, n.toNat * blockCount k.toNat b.toNat * b.toNat / 2⟩]
  | .wssz .. => []
  | .wsalign .. => []
  | .gemmf b m n k lda _ pa pb ps pz bias _ =>
    rowRanges pa.toNat lda.toNat m.toNat k.toNat ++ (weightsOf b n k pb ps pz).reads ++ biasReads bias n.toNat
  | .deq b n k _ pb ps pz _ => (weightsOf b n k pb ps pz).reads
  | .gemmi b m n k _ pa pb ps pz bias _ =>
    ⟨pa.toNat, m.toNat * blockCount k.toNat b.toNat * q8Size b.toNat⟩ :: (weightsOf b n k pb ps pz).reads ++
      biasReads bias n.toNat
  | .qrow _ k pa _ => [⟨pa.toNat, 4 * k.toNat⟩]

/-- The write footprint `WF` of a command (20_memory R57 to R62). DESIGN CHOICE (log 10), unsafe: for an illegal block length, where the
spec gives no length, the model rounds `N * BCK * BLKLEN / 2` down (odd BLKLEN), and takes BCK as 0 (BLKLEN 0). -/
def writeFootprint : Instr → List Range
  | .packsz .. => []
  | .pack _ b n k _ pb => [⟨pb.toNat, n.toNat * blockCount k.toNat b.toNat * b.toNat / 2⟩]
  | .wssz .. => []
  | .wsalign .. => []
  | .gemmf _ m n _ _ ldc _ _ _ _ _ pc => rowRanges pc.toNat ldc.toNat m.toNat n.toNat
  | .deq _ n k ldc _ _ _ pc => rowRanges pc.toNat ldc.toNat (roundUp16 k.toNat) (roundUp16 n.toNat)
  | .gemmi _ m n _ ldc _ _ _ _ _ pc => rowRanges pc.toNat ldc.toNat m.toNat n.toNat
  | .qrow b k _ pc => [⟨pc.toNat, blockCount k.toNat b.toNat * q8Size b.toNat⟩]

end Sys2Proof.Machine
end

