-- ==== Sys2Proof/Machine/Flags.lean ====
section
/-! DEFINITION. The STATUS bits, the interrupt output, the fault codes, and the checks of a command in their order
(spec/10_state.md R24, R25, R38; spec/60_exceptions.md R151, R156). -/

namespace Sys2Proof.Machine

/-- The STATUS word: BUSY in bit 0, DONE in bit 1, ERR in bit 2, the rest 0 (10_state R25). -/
def statusWord (e : Engine) : Word :=
  BitVec.ofNat 64 (e.busy.toNat + 2 * e.done.toNat + 4 * e.err.toNat)

/-- The CTRL word: IRQ_EN in bit 0, SRST reads 0, the rest 0 (10_state R24). -/
def ctrlWord (e : Engine) : Word := BitVec.ofNat 64 e.irqEn.toNat

/-- The interrupt output `irq` (10_state R38, 60_exceptions R160). -/
def irq (e : Engine) : Bool := e.irqEn && (e.done || e.err)

/-- A host write of `w` to STATUS: writing 1 clears DONE, and clears ERR together with ERRCODE and ERRINFO (10_state R25,
60_exceptions R154). -/
def clearStatus (w : Word) (e : Engine) : Engine :=
  { e with
    done := if w.getLsbD 1 then false else e.done
    err := if w.getLsbD 2 && e.err then false else e.err
    errCode := if w.getLsbD 2 && e.err then 0 else e.errCode
    errInfo := if w.getLsbD 2 && e.err then 0 else e.errInfo }

/-- The code of a fault cause (60_exceptions R151). -/
def faultNumber : FaultCode → Byte
  | .descAlign => 1
  | .bus => 2
  | .opcode => 3
  | .reserved => 4
  | .blkLen => 5
  | .dim => 6
  | .align => 7

/-- Step 5 of 60_exceptions R156. -/
def checkBlkLen (b : BitVec 16) : Option Cause :=
  if b.toNat < 16 ∨ b.toNat % 16 ≠ 0 then some ⟨.blkLen, b.setWidth 64⟩ else none

/-- Step 6 of 60_exceptions R156, the dimensions: 1 for M, 2 for N, 3 for K (R151). -/
def checkDim (info : Word) (d : BitVec 32) : Option Cause := if 2 ^ 31 ≤ d.toNat then some ⟨.dim, info⟩ else none

/-- Step 6 of 60_exceptions R156, the output stride. -/
def checkStride (ldc : BitVec 32) (width : Nat) : Option Cause := if ldc.toNat < width then some ⟨.dim, 4⟩ else none

/-- Step 7 of 60_exceptions R156, one pointer. -/
def checkAlign (p : Word) : Option Cause := if p.toNat % 4 ≠ 0 then some ⟨.align, p⟩ else none

/-- Step 7 of 60_exceptions R156 for the bias pointer, checked only when the bias is used. -/
def checkBias (p : Option Word) : Option Cause := p.bind checkAlign

/-- The first failing check raises its fault and later checks are not made (60_exceptions R156). -/
def firstCause : List (Option Cause) → Option Cause
  | [] => none
  | some c :: _ => some c
  | none :: cs => firstCause cs

/-- Steps 5 to 7 of 60_exceptions R156 for a decoded command; which fields a command uses is 30_encoding R73. -/
def checkInstr : Instr → Option Cause
  | .packsz b n k => firstCause [checkBlkLen b, checkDim 2 n, checkDim 3 k]
  | .pack _ b n k _ _ => firstCause [checkBlkLen b, checkDim 2 n, checkDim 3 k]
  | .wssz _ b m k => firstCause [checkBlkLen b, checkDim 1 m, checkDim 3 k]
  | .wsalign _ => none
  | .gemmf b m n k _ ldc pa _ ps _ bias pc =>
    firstCause [checkBlkLen b, checkDim 1 m, checkDim 2 n, checkDim 3 k, checkStride ldc n.toNat,
      checkAlign pa, checkAlign ps, checkBias bias, checkAlign pc]
  | .deq b n k ldc _ ps _ pc =>
    firstCause [checkBlkLen b, checkDim 2 n, checkDim 3 k, checkStride ldc (roundUp16 n.toNat),
      checkAlign ps, checkAlign pc]
  | .gemmi b m n k ldc pa _ ps _ bias pc =>
    firstCause [checkBlkLen b, checkDim 1 m, checkDim 2 n, checkDim 3 k, checkStride ldc n.toNat,
      checkAlign pa, checkAlign ps, checkBias bias, checkAlign pc]
  | .qrow b k pa pc => firstCause [checkBlkLen b, checkDim 3 k, checkAlign pa, checkAlign pc]

/-- Steps 3 and 4 of 60_exceptions R156: the fault of a descriptor that decodes to no command. -/
def decodeCause : DecodeError → Cause
  | .length _ => ⟨.opcode, 0⟩
  | .opcode op => ⟨.opcode, op.setWidth 64⟩
  | .reserved flags => ⟨.reserved, flags.setWidth 64⟩

/-- Steps 1 and 2 of 60_exceptions R156: the fault of the descriptor fetch at address `a`. The information word of a
refused fetch is the lowest refused byte of `[a, +72)`, truncated to 64 bits (20_memory R46). -/
def fetchCause (mapped : List Range) (a : Word) : Option Cause :=
  if a.toNat % 8 ≠ 0 then some ⟨.descAlign, a⟩
  else match refusedAddrs mapped [⟨a.toNat, 72⟩] with
    | [] => none
    | b :: _ => some ⟨.bus, BitVec.ofNat 64 b⟩

end Sys2Proof.Machine
end

