-- ==== Sys2Proof/Machine/Ops.lean ====
section
/-! DEFINITION. The operations every command shares: fault entry, completion, the running jobs of the engines, unspecified
bytes, running a command's stores, the doorbell, the resets, and the register window (spec/30_encoding.md R78 to R81;
spec/60_exceptions.md R152, R153; spec/70_reset_and_hazards.md R181, R182; spec/10_state.md section 2 and 3). -/

namespace Sys2Proof.Machine

/-- Fault entry, one atomic step (60_exceptions R152): the code and the information word are recorded, ERR is set, BUSY is cleared. -/
def takeFault (c : Cause) (s : State) : State :=
  { s with eng := { s.eng with errCode := faultNumber c.code, errInfo := c.info, err := true, busy := false } }

/-- Completion, one atomic step (30_encoding R81): a query's value goes to RESULT, SEQ counts, DONE is set, BUSY is cleared. -/
def complete (r : Option Word) (s : State) : State :=
  { s with eng := { s.eng with result := r.getD s.eng.result, seq := s.eng.seq + 1, done := true, busy := false } }

/-- ENGINE_BASE, a multiple of 64 (10_state R22). -/
def Engine.base (e : Engine) : Word := e.baseBlock ++ (0 : BitVec 6)

/-- The command an engine is running, from acceptance to the end of BUSY (70_reset R185): the one its latched descriptor encodes. Its
footprints count from acceptance on, also when it is going to fail a check of 60_exceptions R156 steps 5 to 7. DEDUCED (log
10), unsafe: there is no footprint where the fetch faults, where OPCODE encodes no command, or where FLAGS[7:3] is not 0,
whatever the opcode. -/
def runningJob (mapped : List Range) (e : Engine) : Option Instr :=
  if e.busy = true ∧ fetchCause mapped e.cmd = none then (decode e.latch).toOption else none

/-- Whether two commands that run at the same time break 70_reset R185: the write footprint of one meets a footprint of the other. -/
def clash (i j : Instr) : Bool :=
  rangesMeet (writeFootprint i) (readFootprint j ++ writeFootprint j) || rangesMeet (writeFootprint j) (readFootprint i)

/-- Whether the command an engine is running clashes with command `i`. -/
def clashesWith (mapped : List Range) (i : Instr) (e : Engine) : Bool := (runningJob mapped e).any (clash i)

/-- Whether 70_reset R185 (another agent has touched a footprint while the command ran) or R186 (a command's own footprints
overlap) is broken for command `i`: its write footprint then ends up unspecified (93 U1, U2; log 8, log 9). -/
def hazard (i : Instr) (s : State) : Bool :=
  s.eng.disturbed || rangesMeet (writeFootprint i) (readFootprint i) || s.others.any (clashesWith s.mapped i)

/-- The other engines whose running command clashes with `i` are disturbed by it (93 U1; log 8). -/
def disturbOthers (i : Instr) (s : State) : State :=
  { s with others := s.others.map fun e => if clashesWith s.mapped i e then { e with disturbed := true } else e }

/-- Every byte of command `i`'s write footprint gets a free value (93 U1, U2, U3), every other byte is unchanged. -/
def scramble (i : Instr) (s : State) : State :=
  { s with mem := s.mem.store (freeStores s.fresh (writeFootprint i)), fresh := s.fresh + 1 }

/-- The cause a data bus fault reports: one of the refused addresses of the footprints, not specified which (20_memory R46,
93 U4; log 11). -/
def busCause (refused : List Nat) (s : State) : Cause :=
  ⟨.bus, BitVec.ofNat 64 (refused.getD (Config.anyIndex s.fresh % refused.length) 0)⟩

/-- A data access was refused: ERR_BUS, with the write footprint unspecified (60_exceptions R153; 93 U3, U4). -/
def dataBusFault (i : Instr) (refused : List Nat) (s : State) : State :=
  takeFault (busCause refused s) (scramble i (disturbOthers i s))

/-- The refused bytes of a command's data footprints (20_memory R46). -/
def refusedOf (i : Instr) (s : State) : List Nat := refusedAddrs s.mapped (readFootprint i ++ writeFootprint i)

/-- Running a query that returns `r` (20_memory R57: no data access): the checks, then completion. -/
def runQuery (i : Instr) (r : Nat) (s : State) : Host.Outcome State Fault Refusal :=
  match checkInstr i with
  | some c => .next (takeFault c s)
  | none => .next (complete (some (BitVec.ofNat 64 r)) s)

/-- Running a command whose stores are `stores` of memory as it finds it (30_encoding R80, 60_exceptions R156): the checks; a refused data access; else the
stores, or free values where 70_reset R185 or R186 is broken; then completion. DESIGN CHOICE (log 8), unsafe: a command that fails a
check makes no data access (30_encoding R79), so its fault disturbs no clashing command of another engine. -/
def runStores (i : Instr) (stores : Memory → List (Nat × Byte)) (s : State) : Host.Outcome State Fault Refusal :=
  match checkInstr i with
  | some c => .next (takeFault c s)
  | none =>
    if refusedOf i s ≠ [] then .next (dataBusFault i (refusedOf i s) s)
    else if hazard i s then .next (complete none (scramble i (disturbOthers i s)))
    else .next (complete none { s with mem := s.mem.store (stores s.mem) })

/-- Whether a byte is in the write footprint of a running command (70_reset R185). -/
def beingWritten (s : State) (a : Nat) : Bool :=
  (s.eng :: s.others).any fun e => (runningJob s.mapped e).any fun i => inRanges (writeFootprint i) a

/-- What an agent other than the writing engine reads at an address: memory's byte, or a free value while a running command
may be writing it (93 U1, U16; log 8). -/
def observe (s : State) (a : Nat) : Byte := if beingWritten s a then Config.anyByte s.fresh a else s.mem.read a

/-- The descriptor a fetch at address `a` latches (20_memory R68, 30_encoding R79). -/
def fetchDescriptor (s : State) (a : Word) : Descriptor :=
  Descriptor.ofBytes ((List.range 72).map fun i => observe s (a.toNat + i))

/-- A doorbell: a host write of `a` to CMD (10_state R26). Dropped while BUSY or ERR; else accepted in one atomic step
(30_encoding R78), and the descriptor is read then (20_memory R68; log 1). A fetch that will fault reads nothing. -/
def ringDoorbell (a : Word) (s : State) : State :=
  if s.eng.busy || s.eng.err then s
  else
    { s with
      eng := { s.eng with
        cmd := a
        done := false
        busy := true
        disturbed := false
        latch := if fetchCause s.mapped a = none then fetchDescriptor s a else s.eng.latch }
      fresh := s.fresh + 1 }

/-- Every register of the selected engine at its reset value (10_state R39). -/
def resetRegisters (s : State) : State := { s with eng := Engine.afterReset s.eng.baseBlock s.eng.latch }

/-- Hard reset (70_reset R181): a running command is abandoned and its write footprint is unspecified (93 U3). -/
def hardReset (s : State) : State :=
  match runningJob s.mapped s.eng with
  | none => resetRegisters s
  | some i => resetRegisters (scramble i (disturbOthers i s))

/-- A host write of `w` to CTRL (10_state R24, 70_reset R182): ignored as a whole when it asks for a soft reset while BUSY; a soft
reset when not busy, which discards bit 0; else bit 0 is IRQ_EN. -/
def writeCtrl (w : Word) (s : State) : State :=
  if w.getLsbD 1 then (if s.eng.busy then s else resetRegisters s)
  else { s with eng := { s.eng with irqEn := w.getLsbD 0 } }

/-- A register's value as the host reads it (10_state R22 to R31). ID is hard-wired. -/
def readReg (r : Reg) (e : Engine) : Word :=
  match r with
  | .id => Config.idValue
  | .ctrl => ctrlWord e
  | .status => statusWord e
  | .cmd => e.cmd
  | .result => e.result
  | .errCode => e.errCode.setWidth 64
  | .errInfo => e.errInfo
  | .seq => e.seq

/-- A host write to a register (10_state R24 to R26); writes to read-only registers are ignored (R33). -/
def writeReg (r : Reg) (w : Word) (s : State) : State :=
  match r with
  | .ctrl => writeCtrl w s
  | .status => { s with eng := clearStatus w s.eng }
  | .cmd => ringDoorbell w s
  | .id | .result | .errCode | .errInfo | .seq => s

/-- The register at an offset of the window (10_state R22). -/
def regAt (offset : Nat) : Option Reg :=
  match offset with
  | 0x00 => some .id
  | 0x08 => some .ctrl
  | 0x10 => some .status
  | 0x18 => some .cmd
  | 0x20 => some .result
  | 0x28 => some .errCode
  | 0x30 => some .errInfo
  | 0x38 => some .seq
  | _ => none

/-- The register a host access reaches: an 8-byte access at `ENGINE_BASE + offset`; any other access reaches none (10_state R33).
Every offset of the map is a multiple of 8 and so is ENGINE_BASE, so the access is aligned. -/
def accessedReg (addr : Word) (size : Nat) (e : Engine) : Option Reg :=
  if size = 8 then regAt (addr - e.base).toNat else none

end Sys2Proof.Machine
end

