-- ==== Sys2Proof/Machine/BlockCodec.lean ====
section
/-! DEFINITION. BlockCodec: PACKSZ and PACK (spec/40_blockcodec.md R90 to R94). -/

namespace Sys2Proof.Machine

/-- The packed size in bytes (40_blockcodec R90). -/
def packedSize (blkLen n k : Nat) : Nat := n * blockCount k blkLen * (blkLen / 2)

/-- PACKSZ (40_blockcodec R90). -/
def execPacksz (blkLen : BitVec 16) (n k : BitVec 32) (s : State) : Host.Outcome State Fault Refusal :=
  runQuery (.packsz blkLen n k) (packedSize blkLen.toNat n.toNat k.toNat) s

/-- The bytes of one packed block: sub-block by sub-block, byte `j` holds element `j` low and element `j + h` high
(40_blockcodec R92). -/
def packBlock (m : Memory) (mode : Mode) (blkLen src dst : Nat) : List (Nat × Byte) :=
  let S := subBlkLen mode blkLen
  let h := S / 2
  (List.range (blkLen / S)).flatMap fun sb => (List.range h).map fun j =>
    (dst + sb * h + j,
      BitVec.ofNat 8 (refNibble m src (sb * S + j) + 16 * refNibble m src (sb * S + j + h)))

/-- The stores of PACK (40_blockcodec R92). -/
def packStores (m : Memory) (mode : Mode) (blkLen n k ptrA ptrB : Nat) : List (Nat × Byte) :=
  (List.range (n * blockCount k blkLen)).flatMap fun blk =>
    packBlock m mode blkLen (ptrA + blk * (blkLen / 2)) (ptrB + blk * (blkLen / 2))

/-- PACK (40_blockcodec R92). -/
def execPack (mode : Mode) (blkLen : BitVec 16) (n k : BitVec 32) (ptrA ptrB : Word) (s : State) :
    Host.Outcome State Fault Refusal :=
  runStores (.pack mode blkLen n k ptrA ptrB)
    (fun mem => packStores mem mode blkLen.toNat n.toNat k.toNat ptrA.toNat ptrB.toNat) s

end Sys2Proof.Machine
end

