-- ==== Sys2Proof/Machine/Dequantizer.lean ====
section
/-! DEFINITION. DequantizeEngine: the decode step and DEQ (spec/43_dequantize.md R120, R123). -/

namespace Sys2Proof.Machine

/-- `Deq(s, w, zp)`, one rounding (43_dequantize R120). -/
def dequant (scale : F32) (nib zp : Nat) : F32 := fmul scale (i2f ((nib : Int) - (zp : Int)))

/-- The dequantized weight of row `k`, column `n`, read in float mode (43_dequantize R123): the operand GEMMF multiplies
(R124), so that the two paths of 44_gemm_fp32 R136 decode alike. -/
def deqElem (w : Weights) (m : Memory) (k n : Nat) : F32 :=
  let kb := k / w.blkLen
  dequant (w.scale m n kb) (w.nib m .float n kb (k % w.blkLen)) (w.zp m n kb)

/-- The zero fill of DEQ, `Kp` rows of `Np` elements (43_dequantize R123). -/
def deqZeroFill (n k ldc ptrC : Nat) : List (Nat × Byte) :=
  (List.range (roundUp16 k)).flatMap fun row => (List.range (roundUp16 n)).flatMap fun col =>
    f32Stores (outAddr ptrC ldc row col) posZero

/-- The stores of DEQ: the zero fill, then the valid values (43_dequantize R123). -/
def deqStores (m : Memory) (w : Weights) (ldc ptrC : Nat) : List (Nat × Byte) :=
  deqZeroFill w.n w.k ldc ptrC ++
    (List.range w.n).flatMap fun col => (List.range w.k).flatMap fun row =>
      f32Stores (outAddr ptrC ldc row col) (deqElem w m row col)

/-- DEQ (43_dequantize R123). -/
def execDeq (blkLen : BitVec 16) (n k ldc : BitVec 32) (ptrB ptrS : Word) (ptrZ : Option Word) (ptrC : Word) (s : State) :
    Host.Outcome State Fault Refusal :=
  runStores (.deq blkLen n k ldc ptrB ptrS ptrZ ptrC)
    (fun mem => deqStores mem (weightsOf blkLen n k ptrB ptrS ptrZ) ldc.toNat ptrC.toNat) s

end Sys2Proof.Machine
end

