-- ==== Sys2Proof/Machine/FloatKernel.lean ====
section
/-! DEFINITION. The float path: GEMMF (spec/44_gemm_fp32.md R130 to R136). -/

namespace Sys2Proof.Machine

/-- The four lane accumulators of one output element (44_gemm_fp32 R132). -/
structure Lanes where
  l0 : F32
  l1 : F32
  l2 : F32
  l3 : F32
deriving DecidableEq, Repr

/-- Every lane starts at `+0.0` (44_gemm_fp32 R132). -/
def lanesZero : Lanes := ⟨posZero, posZero, posZero, posZero⟩

/-- A product added to the lane `k mod 4` (44_gemm_fp32 R132). -/
def lanesAdd (l : Lanes) (k : Nat) (p : F32) : Lanes :=
  match k % 4 with
  | 0 => { l with l0 := fadd l.l0 p }
  | 1 => { l with l1 := fadd l.l1 p }
  | 2 => { l with l2 := fadd l.l2 p }
  | _ => { l with l3 := fadd l.l3 p }

/-- The pairwise final sum (44_gemm_fp32 R132). -/
def lanesSum (l : Lanes) : F32 := fadd (fadd l.l0 l.l1) (fadd l.l2 l.l3)

/-- One block of `Dot32(m, n)`: its elements in increasing order, those at or beyond `K` skipped (44_gemm_fp32 R132, R133). -/
def dot32Block (m : Memory) (w : Weights) (ptrA lda row col kb : Nat) (l : Lanes) : Lanes :=
  (List.range w.blkLen).foldl (fun l i =>
    let k := kb * w.blkLen + i
    if k < w.k then
      lanesAdd l k (fmul (activation m ptrA lda row k)
        (dequant (w.scale m col kb) (w.nib m .float col kb i) (w.zp m col kb)))
    else l) l

/-- `Dot32(m, n)` (44_gemm_fp32 R132). The accuracy of R136 is a property of this order, each operation rounding once; the
statement `GemmfStaysCloseToTheExactProduct` is about it. -/
def dot32 (m : Memory) (w : Weights) (ptrA lda row col : Nat) : F32 :=
  lanesSum ((List.range w.bck).foldl (fun l kb => dot32Block m w ptrA lda row col kb l) lanesZero)

/-- The value of output element `(row, col)` of GEMMF: the bias is added last, only when it is used (44_gemm_fp32 R131). -/
def gemmfElem (m : Memory) (w : Weights) (bias : Option Word) (ptrA lda row col : Nat) : F32 :=
  addBias m bias col (dot32 m w ptrA lda row col)

/-- The stores of GEMMF (44_gemm_fp32 R131). -/
def gemmfStores (m : Memory) (w : Weights) (bias : Option Word) (rows ptrA lda ldc ptrC : Nat) : List (Nat × Byte) :=
  (List.range rows).flatMap fun row => (List.range w.n).flatMap fun col =>
    f32Stores (outAddr ptrC ldc row col) (gemmfElem m w bias ptrA lda row col)

/-- GEMMF (44_gemm_fp32 R131). -/
def execGemmf (blkLen : BitVec 16) (m n k lda ldc : BitVec 32) (ptrA ptrB ptrS : Word) (ptrZ ptrBias : Option Word)
    (ptrC : Word) (s : State) : Host.Outcome State Fault Refusal :=
  runStores (.gemmf blkLen m n k lda ldc ptrA ptrB ptrS ptrZ ptrBias ptrC)
    (fun mem => gemmfStores mem (weightsOf blkLen n k ptrB ptrS ptrZ) ptrBias m.toNat ptrA.toNat lda.toNat ldc.toNat
      ptrC.toNat) s

end Sys2Proof.Machine
end

