-- ==== Sys2Proof/Machine/IntKernel.lean ====
section
/-! DEFINITION. The int8 path: GEMMI (spec/45_gemm_int8.md R140 to R148). -/

namespace Sys2Proof.Machine

/-- The exact integer dot product of one block, all `BlkLen` slots taking part (45_gemm_int8 R142, R143). -/
def blockDot (m : Memory) (w : Weights) (ptrA row col kb : Nat) : Int :=
  (List.range w.blkLen).foldl (fun acc i =>
    acc + qCode m ptrA w.blkLen w.bck row kb i * ((w.nib m .int8 col kb i : Int) - (w.zp m col kb : Int))) 0

/-- One block's term: the converted block sum times the combined scale (45_gemm_int8 R142). -/
def blockTerm (m : Memory) (w : Weights) (ptrA row col kb : Nat) : F32 :=
  fmul (i2f (blockDot m w ptrA row col kb)) (fmul (qScale m ptrA w.blkLen w.bck row kb) (w.scale m col kb))

/-- `DotQ8(m, n)`: the blocks' terms folded in increasing order (45_gemm_int8 R142, the order R148's accuracy is
a property of). -/
def dotQ8 (m : Memory) (w : Weights) (ptrA row col : Nat) : F32 :=
  (List.range w.bck).foldl (fun acc kb => fadd acc (blockTerm m w ptrA row col kb)) posZero

/-- The value of output element `(row, col)` of GEMMI (45_gemm_int8 R141). -/
def gemmiElem (m : Memory) (w : Weights) (bias : Option Word) (ptrA row col : Nat) : F32 :=
  addBias m bias col (dotQ8 m w ptrA row col)

/-- The stores of GEMMI (45_gemm_int8 R141). -/
def gemmiStores (m : Memory) (w : Weights) (bias : Option Word) (rows ptrA ldc ptrC : Nat) : List (Nat × Byte) :=
  (List.range rows).flatMap fun row => (List.range w.n).flatMap fun col =>
    f32Stores (outAddr ptrC ldc row col) (gemmiElem m w bias ptrA row col)

/-- GEMMI (45_gemm_int8 R141). -/
def execGemmi (blkLen : BitVec 16) (m n k ldc : BitVec 32) (ptrA ptrB ptrS : Word) (ptrZ ptrBias : Option Word)
    (ptrC : Word) (s : State) : Host.Outcome State Fault Refusal :=
  runStores (.gemmi blkLen m n k ldc ptrA ptrB ptrS ptrZ ptrBias ptrC)
    (fun mem => gemmiStores mem (weightsOf blkLen n k ptrB ptrS ptrZ) ptrBias m.toNat ptrA.toNat ldc.toNat ptrC.toNat) s

end Sys2Proof.Machine
end

