-- ==== Sys2Proof/Machine/Quantizer.lean ====
section
/-! DEFINITION. ActivationQuantizer: QROW (spec/42_quantize.md R111 to R117). -/

namespace Sys2Proof.Machine

/-- `amax`, the largest magnitude pattern of a block (42_quantize R112 step 1). -/
def blockMax (xs : List F32) : F32 := withSign false (xs.foldl (fun m x => max m (absBits x)) 0)

/-- The scale of a block (42_quantize R112 step 2). -/
def blockScale (xs : List F32) : F32 := fdiv (blockMax xs) f127

/-- The reciprocal of a scale, `+0.0` for a zero scale (42_quantize R112 step 2). -/
def scaleRecip (scale : F32) : F32 := if isZero scale then posZero else fdiv one scale

/-- The codes of a block's valid elements, then zeros to the block's length (42_quantize R112 steps 4 and 5). -/
def blockCodes (xs : List F32) (blkLen : Nat) : List Int :=
  xs.map (fun x => cvtI8 (fmul x (scaleRecip (blockScale xs)))) ++ List.replicate (blkLen - xs.length) 0

/-- The valid elements of block `kb` of the row at `ptrA` (42_quantize R111). -/
def rowBlock (m : Memory) (blkLen k ptrA kb : Nat) : List F32 :=
  (List.range (min blkLen (k - kb * blkLen))).map fun i => m.f32 (ptrA + 4 * (kb * blkLen + i))

/-- The stores of one Q8 block: the scale header, then one byte per code (42_quantize R111, 20_memory R55). -/
def q8Stores (dst blkLen : Nat) (xs : List F32) : List (Nat × Byte) :=
  f32Stores dst (blockScale xs) ++
    (blockCodes xs blkLen).zipIdx.map fun c => (dst + 4 + c.2, BitVec.ofInt 8 c.1)

/-- The stores of QROW (42_quantize R111). -/
def qrowStores (m : Memory) (blkLen k ptrA ptrC : Nat) : List (Nat × Byte) :=
  (List.range (blockCount k blkLen)).flatMap fun kb =>
    q8Stores (ptrC + kb * q8Size blkLen) blkLen (rowBlock m blkLen k ptrA kb)

/-- QROW (42_quantize R111). -/
def execQrow (blkLen : BitVec 16) (k : BitVec 32) (ptrA ptrC : Word) (s : State) : Host.Outcome State Fault Refusal :=
  runStores (.qrow blkLen k ptrA ptrC) (fun mem => qrowStores mem blkLen.toNat k.toNat ptrA.toNat ptrC.toNat) s

end Sys2Proof.Machine
end

