-- ==== Sys2Proof/Machine/WorkspaceSizer.lean ====
section
/-! DEFINITION. WorkspaceSizer: WSSZ and WSALIGN (spec/41_workspace.md R100, R101). -/

namespace Sys2Proof.Machine

/-- The workspace size in bytes (41_workspace R100). -/
def workspaceSize (mode : Mode) (blkLen m k : Nat) : Nat :=
  match mode with
  | .float => 0
  | .int8 => m * blockCount k blkLen * q8Size blkLen

/-- WSSZ (41_workspace R100). -/
def execWssz (mode : Mode) (blkLen : BitVec 16) (m k : BitVec 32) (s : State) : Host.Outcome State Fault Refusal :=
  runQuery (.wssz mode blkLen m k) (workspaceSize mode blkLen.toNat m.toNat k.toNat) s

/-- The workspace alignment in bytes (41_workspace R101). -/
def workspaceAlign (mode : Mode) : Nat :=
  match mode with
  | .float => 1
  | .int8 => 4

/-- WSALIGN (41_workspace R101). -/
def execWsalign (mode : Mode) (s : State) : Host.Outcome State Fault Refusal :=
  runQuery (.wsalign mode) (workspaceAlign mode) s

end Sys2Proof.Machine
end

