-- ==== Sys2Proof/Machine/Dispatch.lean ====
section
/-! DEFINITION. exec, one arm per command of the opcode map (spec/30_encoding.md R75). -/

namespace Sys2Proof.Machine

def exec (i : Instr) (s : State) : Host.Outcome State Fault Refusal :=
  match i with
  | .packsz b n k => Sys2Proof.Machine.execPacksz b n k s
  | .pack mode b n k pa pb => Sys2Proof.Machine.execPack mode b n k pa pb s
  | .wssz mode b m k => Sys2Proof.Machine.execWssz mode b m k s
  | .wsalign mode => Sys2Proof.Machine.execWsalign mode s
  | .gemmf b m n k lda ldc pa pb ps pz bias pc => Sys2Proof.Machine.execGemmf b m n k lda ldc pa pb ps pz bias pc s
  | .deq b n k ldc pb ps pz pc => Sys2Proof.Machine.execDeq b n k ldc pb ps pz pc s
  | .gemmi b m n k ldc pa pb ps pz bias pc => Sys2Proof.Machine.execGemmi b m n k ldc pa pb ps pz bias pc s
  | .qrow b k pa pc => Sys2Proof.Machine.execQrow b k pa pc s

end Sys2Proof.Machine
end

