-- ==== Sys2Proof/Machine/Turns.lean ====
section
/-! DEFINITION. What each turn does: the engine's, the host's and the platform's (spec/30_encoding.md R78 to R82;
spec/10_state.md R33; spec/70_reset_and_hazards.md R180 to R185). -/

namespace Sys2Proof.Machine

/-- The selected engine's turn (30_encoding R79, R80, R82; 60_exceptions R175): an idle engine does nothing; a busy one makes the
checks of the fetch, decodes the latched descriptor and runs the command to its end. -/
def engineTurn (s : State) : Host.Outcome State Fault Refusal :=
  if s.eng.busy then
    match fetchCause s.mapped s.eng.cmd with
    | some c => .next (takeFault c s)
    | none =>
      match decode s.eng.latch with
      | .error d => .next (takeFault (decodeCause d) s)
      | .ok i => exec i s
  else .next s

/-- A host register read: no side effect on the engine (10_state R33). -/
def regReadTurn (addr : Word) (size : Nat) (s : State) : Host.Outcome State Fault Refusal :=
  match accessedReg addr size s.eng with
  | none => .refused (.registerAccess addr size)
  | some r => .next { s with hostData := readReg r s.eng }

/-- A host register write (10_state R33). -/
def regWriteTurn (addr : Word) (size : Nat) (w : Word) (s : State) : Host.Outcome State Fault Refusal :=
  match accessedReg addr size s.eng with
  | none => .refused (.registerAccess addr size)
  | some r => .next (writeReg r w s)

/-- A byte of memory read by an agent other than an engine (20_memory R66; 93 U1, U16). -/
def memReadTurn (addr : Word) (s : State) : State :=
  { s with hostData := (observe s addr.toNat).setWidth 64, fresh := s.fresh + 1 }

/-- An engine whose running command's footprints hold the address another agent has just written (70_reset R185; log 8). -/
def disturbAt (mapped : List Range) (a : Nat) (e : Engine) : Engine :=
  if (runningJob mapped e).any fun i => inRanges (readFootprint i ++ writeFootprint i) a then
    { e with disturbed := true }
  else e

/-- A byte of memory written by an agent other than an engine (20_memory R65, 70_reset R185). -/
def memWriteTurn (addr : Word) (b : Byte) (s : State) : State :=
  { s with
    mem := s.mem.write addr.toNat b
    eng := disturbAt s.mapped addr.toNat s.eng
    others := s.others.map (disturbAt s.mapped addr.toNat) }

/-- The turns that follow are about another engine instance, which changes places with the selected one (60_exceptions R171). -/
def selectTurn (k : Nat) (s : State) : Host.Outcome State Fault Refusal :=
  match s.others[k]? with
  | none => .refused (.noSuchEngine k)
  | some e => .next { s with eng := e, others := s.others.set k s.eng }

/-- The turn the next step takes (log 2): the first pending one. When none is pending the engines move until every command has ended
(70_reset R193): the selected engine while it is busy; else the first other busy one is selected, to move next. -/
def nextTurn (s : State) : Turn :=
  match s.turns with
  | t :: _ => t
  | [] =>
    if s.eng.busy then .engine
    else match s.others.findIdx? Engine.busy with
      | some k => .select k
      | none => .engine

/-- One turn. -/
def takeTurn (t : Turn) (s : State) : Host.Outcome State Fault Refusal :=
  match t with
  | .engine => engineTurn s
  | .regRead addr size => regReadTurn addr size s
  | .regWrite addr size w => regWriteTurn addr size w s
  | .memRead addr => .next (memReadTurn addr s)
  | .memWrite addr b => .next (memWriteTurn addr b s)
  | .hardReset => .next (hardReset s)
  | .select k => selectTurn k s

/-- A state in which the command whose 72 bytes are `bs` is the next to run (log 14): the bytes are stored at address 0, made accessible
to the engine where they are not, the engine is made idle and the turns to come are cleared; then the doorbell is rung at 0, by
the machine's own operation, and the latched descriptor is what the stored bytes say. -/
def placeDescriptor (bs : List Byte) (s : State) : State :=
  let s' := ringDoorbell 0
    { s with
      mem := s.mem.store (bs.zipIdx.map fun c => (c.2, c.1))
      mapped := if fetchCause s.mapped 0 = none then s.mapped else ⟨0, 72⟩ :: s.mapped
      eng := { s.eng with busy := false, err := false, errCode := 0, errInfo := 0 }
      turns := [] }
  { s' with eng := { s'.eng with latch := Descriptor.ofBytes bs } }

end Sys2Proof.Machine
end

