-- ==== Sys2Proof/Machine/Step.lean ====
section
/-! DEFINITION. The step, and where the next command is placed for it (spec/30_encoding.md R78 to R82). -/

namespace Sys2Proof.Machine

/-- One step: the next turn, which is then pending no more (log 2). -/
def step (s : State) : Host.Outcome State Fault Refusal := takeTurn (nextTurn s) { s with turns := s.turns.tail }

/-- The state in which the very next step runs the descriptor whose low `nbits` bits are `w` (log 14): the 72 bytes are stored at
address 0 and the doorbell is rung there, so that the engine is busy with that command and it is the engine's turn. -/
def State.withFetchWord (s : State) (nbits w : Nat) : State := placeDescriptor (leBytes 72 (w % 2 ^ nbits)) s

end Sys2Proof.Machine
end

