-- ==== Sys2Proof/Safety.lean ====
section
/-! DEFINITION. What claims are stated in: the invariant of the registers and of memory, the states in which a command may run,
and the software obligations that claims take as premises (spec/10_state.md R34, R35; spec/70_reset_and_hazards.md R185, R186). -/

namespace Sys2Proof.Safety

open Sys2Proof.Machine

/-- Exactly one of idle, busy and faulted holds (10_state R34). -/
abbrev oneCondition (e : Engine) : Prop :=
  (e.busy = false ∧ e.err = false) ∨ (e.busy = true ∧ e.done = false ∧ e.err = false) ∨
    (e.busy = false ∧ e.err = true ∧ e.done = false)

/-- ERRCODE and ERRINFO are 0 while ERR is 0, and ERRCODE is in 1 .. 7 while ERR is 1 (10_state R35). -/
abbrev errRecorded (e : Engine) : Prop :=
  (e.err = false → e.errCode = 0 ∧ e.errInfo = 0) ∧ (e.err = true → 1 ≤ e.errCode.toNat ∧ e.errCode.toNat ≤ 7)

/-- The invariant of one engine's registers (10_state R34, R35). -/
abbrev engineOk (e : Engine) : Prop := oneCondition e ∧ errRecorded e

/-- The invariant of every engine instance's registers (10_state R34, R35; 60_exceptions R171). -/
abbrev registersOk (s : State) : Prop := engineOk s.eng ∧ ∀ e ∈ s.others, engineOk e

/-- The selected engine is busy with command `i`: its fetch raises no fault and the latched descriptor decodes to `i`
(30_encoding R79). -/
abbrev Running (i : Instr) (s : State) : Prop :=
  s.eng.busy = true ∧ fetchCause s.mapped s.eng.cmd = none ∧ (decode s.eng.latch).toOption = some i

/-- The platform refuses no byte of the command's data footprints (20_memory R46). -/
abbrev Accessible (i : Instr) (s : State) : Prop := refusedOf i s = []

/-- The software obligations R185 and R186 of 70_reset hold for command `i`: no agent has touched its footprints, its write
footprint is disjoint from its read footprint, and no other engine's running command clashes with it. -/
abbrev Exclusive (i : Instr) (s : State) : Prop := hazard i s = false

/-- The first failing check of 60_exceptions R156, steps 1 to 7, read off the raw descriptor: the code and the information
word of its fault. "Uses" is 30_encoding R73. -/
def orderedCause (mapped : List Range) (a : Word) (d : Descriptor) : Option (Byte × Word) :=
  let op := d.opcode.toNat
  let kernel := op = 5 ∨ op = 7
  if a.toNat % 8 ≠ 0 then some (1, a)
  else match (List.range 72).find? fun i => !isMapped mapped (a.toNat + i) with
    | some i => some (2, BitVec.ofNat 64 (a.toNat + i))
    | none =>
      if op = 0 ∨ 9 ≤ op then some (3, d.opcode.setWidth 64)
      else if 8 ≤ d.flags.toNat then some (4, d.flags.setWidth 64)
      else if op ≠ 4 ∧ (d.blkLen.toNat < 16 ∨ d.blkLen.toNat % 16 ≠ 0) then some (5, d.blkLen.setWidth 64)
      else if (op = 3 ∨ kernel) ∧ 2 ^ 31 ≤ d.m.toNat then some (6, 1)
      else if (op = 1 ∨ op = 2 ∨ op = 6 ∨ kernel) ∧ 2 ^ 31 ≤ d.n.toNat then some (6, 2)
      else if op ≠ 4 ∧ 2 ^ 31 ≤ d.k.toNat then some (6, 3)
      else if kernel ∧ d.ldc.toNat < d.n.toNat then some (6, 4)
      else if op = 6 ∧ d.ldc.toNat < 16 * ceilDiv d.n.toNat 16 then some (6, 4)
      else if (kernel ∨ op = 8) ∧ d.ptrA.toNat % 4 ≠ 0 then some (7, d.ptrA)
      else if (kernel ∨ op = 6) ∧ d.ptrS.toNat % 4 ≠ 0 then some (7, d.ptrS)
      else if kernel ∧ d.flags.getLsbD 1 = true ∧ d.ptrBias.toNat % 4 ≠ 0 then some (7, d.ptrBias)
      else if (kernel ∨ op = 6 ∨ op = 8) ∧ d.ptrC.toNat % 4 ≠ 0 then some (7, d.ptrC)
      else none

/-- Two descriptors select the same opcode and agree in every field its command uses (the table of 30_encoding R73); the optional
pointers count only when their flag is set. -/
def sameUsedFields (d e : Descriptor) : Prop :=
  let op := d.opcode.toNat
  let kernel := op = 5 ∨ op = 7
  d.opcode = e.opcode ∧
  (op ≠ 4 → d.blkLen = e.blkLen ∧ d.k = e.k) ∧
  (op = 2 ∨ op = 3 ∨ op = 4 → d.flags.getLsbD 2 = e.flags.getLsbD 2) ∧
  (op = 6 ∨ kernel → d.flags.getLsbD 0 = e.flags.getLsbD 0 ∧ (d.flags.getLsbD 0 = true → d.ptrZ = e.ptrZ) ∧
    d.ldc = e.ldc ∧ d.ptrB = e.ptrB ∧ d.ptrS = e.ptrS ∧ d.ptrC = e.ptrC) ∧
  (kernel → d.flags.getLsbD 1 = e.flags.getLsbD 1 ∧ (d.flags.getLsbD 1 = true → d.ptrBias = e.ptrBias)) ∧
  (op = 3 ∨ kernel → d.m = e.m) ∧
  (op = 1 ∨ op = 2 ∨ op = 6 ∨ kernel → d.n = e.n) ∧
  (op = 5 → d.lda = e.lda) ∧
  (op = 2 ∨ op = 8 ∨ kernel → d.ptrA = e.ptrA) ∧
  (op = 2 → d.ptrB = e.ptrB) ∧
  (op = 8 → d.ptrC = e.ptrC)

/-- What the spec gives an engine, without the model's own flag (log 8). -/
def specRegisters (e : Engine) : Engine := { e with disturbed := false }

/-- The engine instances that are running a command. -/
def busyCount (s : State) : Nat := (s.eng :: s.others).countP Engine.busy

/-- What a number of steps, one after the other, answer. -/
def runSteps : Nat → State → Host.Outcome State Fault Refusal
  | 0, s => .next s
  | n + 1, s =>
    match step s with
    | .next t => runSteps n t
    | o => o

/-- The turn is not about choosing another engine instance. -/
def notSelect : Turn → Bool
  | .select _ => false
  | _ => true

/-- The turn is a register write that reaches the given register of the selected engine. -/
def writesReg (r : Reg) (s : State) : Turn → Option Word
  | .regWrite addr size w => if accessedReg addr size s.eng = some r then some w else none
  | _ => none

/-- The turn resets the selected engine: a hard reset, or a soft reset while it is not busy (70_reset R180 to R182). -/
def resets (s : State) (u : Turn) : Bool :=
  u == .hardReset || (writesReg .ctrl s u).any fun w => w.getLsbD 1 && !s.eng.busy

/-- The turn clears ERR of the selected engine (10_state R25, 60_exceptions R154). -/
def clearsErr (s : State) (u : Turn) : Bool := (writesReg .status s u).any fun w => w.getLsbD 2

/-- The four-lane dot product of an activation row with a column of a dense binary32 matrix, `K` elements in increasing order,
element `k` to lane `k mod 4` (44_gemm_fp32 R132 with its weights already decoded). -/
def denseDot (k : Nat) (a b : Nat → F32) : F32 :=
  lanesSum ((List.range k).foldl (fun l i => lanesAdd l i (fmul (a i) (b i))) lanesZero)

/-- A finite float that is zero or of magnitude from 2^-40 to 2^40, `magnitude` being a count of 2^-149 (00_scope R10). -/
abbrev tame (x : F32) : Prop := magnitude x = 0 ∨ (2 ^ 109 ≤ magnitude x ∧ magnitude x ≤ 2 ^ 189)

/-- The exact value of one term of the product of 44_gemm_fp32 R130, activation times scale times nibble less zero point, as a
count of 2^-298. -/
def exactTerm (m : Memory) (w : Weights) (pa lda row col k : Nat) : Int :=
  scaledValue (activation m pa lda row k) * scaledValue (w.scale m col (k / w.blkLen)) *
    ((w.nib m .float col (k / w.blkLen) (k % w.blkLen) : Int) - (w.zp m col (k / w.blkLen) : Int))

/-- The exact value of the bias of a column, 0 where there is none, as a count of 2^-298 (44_gemm_fp32 R130). -/
def exactBias (m : Memory) (bias : Option Word) (col : Nat) : Int :=
  match bias with
  | none => 0
  | some p => scaledValue (m.f32 (p.toNat + 4 * col)) * 2 ^ 149

/-- The exact value of an output element, the reference of 44_gemm_fp32 R136 computed without rounding, as a count of 2^-298. -/
def exactElem (m : Memory) (w : Weights) (bias : Option Word) (pa lda row col : Nat) : Int :=
  ((List.range w.k).map (exactTerm m w pa lda row col)).sum + exactBias m bias col

/-- The sum of the magnitudes of the terms and the bias of an output element, as a count of 2^-298. -/
def exactSize (m : Memory) (w : Weights) (bias : Option Word) (pa lda row col : Nat) : Nat :=
  ((List.range w.k).map fun k => (exactTerm m w pa lda row col k).natAbs).sum + (exactBias m bias col).natAbs

/-- A weight matrix addressed from its column `c` on, `n` columns of it (60_exceptions R171). -/
def columnTile (w : Weights) (c n : Nat) : Weights :=
  { w with
    n := n
    ptrB := w.ptrB + c * w.bck * (w.blkLen / 2)
    ptrS := w.ptrS + 4 * (c * w.bck)
    ptrZ := w.ptrZ.map fun z => z + c * zpStride w.k w.blkLen }

/-- A bias pointer that is the other one moved by `c` elements, both or neither used (60_exceptions R171). -/
def biasTile (bias bias' : Option Word) (c : Nat) : Prop :=
  match bias, bias' with
  | none, none => True
  | some p, some q => q.toNat = p.toNat + 4 * c
  | _, _ => False

end Sys2Proof.Safety
end

