-- ==== Sys2Proof/Certificates/Slice0/Obligations.lean ====
section
/-! DEFINITION. The statements for the provers, one definition each; the rule of the spec each one formalises is named in its docstring. -/

open Sys2Proof Sys2Proof.Machine Sys2Proof.Safety

/-! ## Encoding -/

/-- 30_encoding R71, R73, R75: decoding the 72 bytes of any command gives back that command, every operand at every value. -/
def Obligations.EncodedCommandDecodesToItself : Prop :=
  ∀ i : Instr, decodeBytes (encode i) = .ok i

/-- 30_encoding R77, last sentence: descriptors that differ only in fields the command ignores are the same command. -/
def Obligations.IgnoredFieldsDoNotChangeTheCommand : Prop :=
  ∀ (d e : Descriptor) (i : Instr),
    sameUsedFields d e → e.flags.toNat < 8 → decode d = .ok i → decode e = .ok i

/-- 30_encoding R75 and opcode_table.json: six opcode words with their flag bits, decoded. -/
def Obligations.OpcodeWordsDecode : Prop :=
  decodeTableWord 8 0x01 = some (.packsz 0 0 0) ∧
  decodeTableWord 32 0x00200402 = some (.pack .int8 0x20 0 0 0 0) ∧
  decodeTableWord 64 0x0000000300200403 = some (.wssz .int8 0x20 3 0) ∧
  decodeTableWord 16 0x0404 = some (.wsalign .int8) ∧
  decodeTableWord 8 0x06 = some (.deq 0 0 0 0 0 0 none 0) ∧
  decodeTableWord 128 0x00000011000000000000000000100008 = some (.qrow 0x10 0x11 0 0)

/-- 30_encoding R74, 60_exceptions R156 steps 5 to 7: a command passes the engine's value checks exactly when it is legal. -/
def Obligations.LegalCommandsPassTheChecks : Prop :=
  ∀ i : Instr, checkInstr i = none ↔ i.wellFormed = true

/-! ## The command life cycle -/

/-- 30_encoding R79, R80: when the latched descriptor decodes to a command and its fetch raises no fault, the engine's step is
`exec` of that command, with nothing around it but the turn that is used up. -/
def Obligations.StepRunsTheDecodedCommand : Prop :=
  ∀ (i : Instr) (s : State), Running i s →
    (s.turns = [] → step s = exec i s) ∧
    ∀ ts, s.turns = .engine :: ts → step s = exec i { s with turns := ts }

/-- 30_encoding R78: an accepted doorbell writes CMD, clears DONE and sets BUSY in one step, and changes no other register and no
memory; the latched descriptor is the engine's copy taken then, and the model's own flag is cleared (log 1, log 8). -/
def Obligations.AcceptedDoorbellStartsTheEngine : Prop :=
  ∀ (s t : State) (a : Word), writesReg .cmd s (nextTurn s) = some a → s.eng.busy = false → s.eng.err = false →
    step s = .next t →
    t.eng = { s.eng with cmd := a, done := false, busy := true, latch := t.eng.latch, disturbed := false } ∧
    t.mem = s.mem ∧ t.others = s.others

/-- 20_memory R68, 30_encoding R71, R79: ringing the doorbell at an aligned, accessible address leaves the engine busy with the descriptor
of the 72 bytes there, whatever they are, latched at acceptance (log 1); where they decode to a command, with any values in the
fields it ignores (R73, R77), the engine is running exactly that command. -/
def Obligations.RungCommandIsRunning : Prop :=
  ∀ (s t : State) (a : Word), writesReg .cmd s (nextTurn s) = some a →
    s.eng.busy = false → s.eng.err = false → a.toNat % 8 = 0 →
    (∀ j < 72, isMapped s.mapped (a.toNat + j) = true ∧ beingWritten s (a.toNat + j) = false) →
    step s = .next t →
    t.eng.busy = true ∧ t.eng.cmd = a ∧ t.eng.latch = Descriptor.ofBytes (s.mem.bytes a.toNat 72) ∧
      ∀ i, decodeBytes (s.mem.bytes a.toNat 72) = .ok i → Running i t

/-- 70_reset R189, 10_state R26: a doorbell written while BUSY or ERR is dropped without any record. -/
def Obligations.DroppedDoorbellLeavesNoRecord : Prop :=
  ∀ (s : State) (a : Word), writesReg .cmd s (nextTurn s) = some a → s.eng.busy = true ∨ s.eng.err = true →
    step s = .next { s with turns := s.turns.tail }

/-- 70_reset R192, R193: every accepted command ends, at the engine's next turn, by completion or by fault; and when no turn is pending any
more, the command of every busy engine instance has ended after finitely many steps, none of which stops (log 2, log 16). -/
def Obligations.EveryAcceptedCommandEnds : Prop :=
  (∀ s : State, s.eng.busy = true → s.eng.err = false → nextTurn s = .engine →
    ∃ t, step s = .next t ∧ t.eng.busy = false ∧
      ((t.eng.done = true ∧ t.eng.err = false) ∨ (t.eng.err = true ∧ t.eng.done = s.eng.done))) ∧
  ∀ s : State, s.turns = [] → ∃ t, runSteps (2 * busyCount s) s = .next t ∧ t.turns = [] ∧ busyCount t = 0

/-- 60_exceptions R175: an idle engine does nothing and keeps its registers. -/
def Obligations.IdleEngineDoesNothing : Prop :=
  ∀ s : State, s.eng.busy = false → nextTurn s = .engine → step s = .next { s with turns := s.turns.tail }

/-- 20_memory R68, 10_state R30: while a command runs, no turn changes the latched descriptor. That a hard reset, too, leaves it is the
model's choice (log 3). -/
def Obligations.LatchIsKeptWhileBusy : Prop :=
  ∀ s t : State, s.eng.busy = true → notSelect (nextTurn s) = true → step s = .next t → t.eng.latch = s.eng.latch

/-! ## The checks and the faults -/

/-- 60_exceptions R156: the checks of a busy engine in their order, at its turn, whatever turns are still to come (30_encoding R82). The
first failing one of steps 1 to 7 raises its fault with its code and information word, and nothing else changes but that the turn is used up; when all pass, a refused data access raises ERR_BUS with the address of a
refused byte (step 8; also of a kernel with M = 0, log 18), and otherwise a command that breaks no software obligation (R185,
R186) completes at that turn (30_encoding R79 to R81; log 16). -/
def Obligations.ChecksAreMadeInOrder : Prop :=
  ∀ s : State, s.eng.busy = true → nextTurn s = .engine →
    match orderedCause s.mapped s.eng.cmd s.eng.latch with
    | some c =>
      step s = .next { s with
        turns := s.turns.tail
        eng := { s.eng with errCode := c.1, errInfo := c.2, err := true, busy := false } }
    | none => ∃ i t, Running i s ∧ step s = .next t ∧ t.turns = s.turns.tail ∧ t.eng.busy = false ∧
        (refusedOf i s ≠ [] → t.eng.err = true ∧ t.eng.errCode = 2 ∧
          ∃ a ∈ refusedOf i s, t.eng.errInfo = BitVec.ofNat 64 a) ∧
        (refusedOf i s = [] → Exclusive i s → t.eng.done = true ∧ t.eng.err = s.eng.err)

/-- 60_exceptions R153: after a fault other than a data ERR_BUS memory is unchanged; after a data ERR_BUS every byte outside the
command's write footprint is unchanged. -/
def Obligations.MemoryAfterAFault : Prop :=
  ∀ s t : State, s.mem.wf → s.eng.busy = true → s.eng.err = false → nextTurn s = .engine → step s = .next t →
    t.eng.err = true →
    (t.eng.errCode ≠ 2 ∨ fetchCause s.mapped s.eng.cmd ≠ none → t.mem = s.mem) ∧
    ∀ i, Running i s → ∀ a, inRanges (writeFootprint i) a = false → t.mem.read a = s.mem.read a

/-- 60_exceptions R155: while ERR is 1 no turn but one that clears it (a 1 written to STATUS bit 2, a reset) changes ERR or the recorded cause,
and no command runs: CMD, SEQ, BUSY, DONE and RESULT stay (BUSY and DONE are 0 in the faulted condition). -/
def Obligations.FaultRecordIsKept : Prop :=
  ∀ s t : State, engineOk s.eng → s.eng.err = true → notSelect (nextTurn s) = true →
    clearsErr s (nextTurn s) = false → resets s (nextTurn s) = false → step s = .next t →
    t.eng.err = true ∧ t.eng.errCode = s.eng.errCode ∧ t.eng.errInfo = s.eng.errInfo ∧ t.eng.busy = false ∧
      t.eng.done = false ∧ t.eng.cmd = s.eng.cmd ∧ t.eng.seq = s.eng.seq ∧ t.eng.result = s.eng.result

/-- 60_exceptions R154: in the faulted condition a 1 written to STATUS bit 2 clears ERR, ERRCODE and ERRINFO and puts the engine in the idle condition;
a soft reset also leaves the faulted condition. -/
def Obligations.FaultReturn : Prop :=
  ∀ s t : State, engineOk s.eng → s.eng.err = true → step s = .next t →
    (clearsErr s (nextTurn s) = true →
      t.eng = { s.eng with err := false, errCode := 0, errInfo := 0 } ∧ t.eng.busy = false ∧ t.mem = s.mem) ∧
    (∀ w, writesReg .ctrl s (nextTurn s) = some w → w.getLsbD 1 = true → t.eng.err = false ∧ t.eng.busy = false)

/-- 20_memory R65, R66 as the model's turns give them (log 2, log 8): a read by another agent of a byte that no running command may be
writing returns what memory holds and disturbs nothing; a write changes that byte and no register of any engine. -/
def Obligations.HostAccessesMemory : Prop :=
  ∀ (s : State) (a : Word),
    (nextTurn s = .memRead a → beingWritten s a.toNat = false →
      step s = .next { s with
        turns := s.turns.tail
        hostData := (s.mem.read a.toNat).setWidth 64
        fresh := s.fresh + 1 }) ∧
    ∀ b, nextTurn s = .memWrite a b → s.mem.wf →
      ∃ t, step s = .next t ∧ t.mem.read a.toNat = b ∧ (∀ x, x ≠ a.toNat → t.mem.read x = s.mem.read x) ∧
        specRegisters t.eng = specRegisters s.eng ∧ t.others.map specRegisters = s.others.map specRegisters

/-! ## The registers -/

/-- 10_state R23: ID reads 0x4244514701000408 always and writes to it are ignored. -/
def Obligations.IdIsHardWired : Prop :=
  ∀ (s : State) (w : Word), readReg .id s.eng = 0x4244514701000408 ∧
    (readReg .id s.eng).extractLsb' 32 32 = 0x42445147 ∧ (readReg .id s.eng).extractLsb' 24 8 = 0x01 ∧
    (readReg .id s.eng).extractLsb' 16 8 = 0x00 ∧ (readReg .id s.eng).extractLsb' 8 8 = 0x04 ∧
    (readReg .id s.eng).extractLsb' 0 8 = 0x08 ∧ writeReg .id w s = s

/-- 10_state R24: what a write to CTRL does, what CTRL reads, its reset value, and what IRQ_EN enables. -/
def Obligations.CtrlRegisterRule : Prop :=
  ∀ (s : State) (w : Word),
    readReg .ctrl s.eng = (if s.eng.irqEn then 1 else 0) ∧
    (w.getLsbD 1 = false → writeReg .ctrl w s = { s with eng := { s.eng with irqEn := w.getLsbD 0 } }) ∧
    (w.getLsbD 1 = true → s.eng.busy = true → writeReg .ctrl w s = s) ∧
    (w.getLsbD 1 = true → s.eng.busy = false → writeReg .ctrl w s = resetRegisters s) ∧
    writeReg .ctrl (w &&& 3) s = writeReg .ctrl w s ∧
    (s.eng.irqEn = true → irq s.eng = (s.eng.done || s.eng.err)) ∧ (resetRegisters s).eng.irqEn = false

/-- 10_state R25: what STATUS reads, and what a write to STATUS clears. -/
def Obligations.StatusWriteClears : Prop :=
  ∀ (s : State) (w : Word),
    (readReg .status s.eng).getLsbD 0 = s.eng.busy ∧ (readReg .status s.eng).getLsbD 1 = s.eng.done ∧
    (readReg .status s.eng).getLsbD 2 = s.eng.err ∧ (readReg .status s.eng).toNat < 8 ∧
    writeReg .status w s =
      { s with
        eng := { s.eng with
          done := s.eng.done && !w.getLsbD 1
          err := s.eng.err && !w.getLsbD 2
          errCode := if w.getLsbD 2 && s.eng.err then 0 else s.eng.errCode
          errInfo := if w.getLsbD 2 && s.eng.err then 0 else s.eng.errInfo } } ∧
    writeReg .status (w &&& 6) s = writeReg .status w s

/-- 10_state R22, R33: ENGINE_BASE is a multiple of 64; a register access is an aligned 8-byte access at ENGINE_BASE + offset, with the eight
registers at their offsets; a read returns the register's value and has no side effect on the machine; a write is that
register's, and is ignored where the register is read-only; any other access is refused. -/
def Obligations.RegisterAccessRule : Prop :=
  ∀ (s : State) (addr w : Word) (size : Nat),
    s.eng.base.toNat % 64 = 0 ∧
    ((size ≠ 8 ∨ addr.toNat % 8 ≠ 0 ∨ 0x40 ≤ (addr - s.eng.base).toNat) →
      regReadTurn addr size s = .refused (.registerAccess addr size) ∧
      regWriteTurn addr size w s = .refused (.registerAccess addr size)) ∧
    (addr = s.eng.base → regReadTurn addr 8 s = .next { s with hostData := 0x4244514701000408 } ∧
      regWriteTurn addr 8 w s = .next s) ∧
    (addr = s.eng.base + 0x08 →
      regReadTurn addr 8 s = .next { s with hostData := if s.eng.irqEn then 1 else 0 } ∧
      regWriteTurn addr 8 w s = .next (writeCtrl w s)) ∧
    (addr = s.eng.base + 0x10 →
      regReadTurn addr 8 s = .next { s with
        hostData := BitVec.ofNat 64 (s.eng.busy.toNat + 2 * s.eng.done.toNat + 4 * s.eng.err.toNat) } ∧
      regWriteTurn addr 8 w s = .next { s with eng := clearStatus w s.eng }) ∧
    (addr = s.eng.base + 0x18 → regReadTurn addr 8 s = .next { s with hostData := s.eng.cmd } ∧
      regWriteTurn addr 8 w s = .next (ringDoorbell w s)) ∧
    (addr = s.eng.base + 0x20 → regReadTurn addr 8 s = .next { s with hostData := s.eng.result } ∧
      regWriteTurn addr 8 w s = .next s) ∧
    (addr = s.eng.base + 0x28 → regReadTurn addr 8 s = .next { s with hostData := s.eng.errCode.setWidth 64 } ∧
      regWriteTurn addr 8 w s = .next s) ∧
    (addr = s.eng.base + 0x30 → regReadTurn addr 8 s = .next { s with hostData := s.eng.errInfo } ∧
      regWriteTurn addr 8 w s = .next s) ∧
    (addr = s.eng.base + 0x38 → regReadTurn addr 8 s = .next { s with hostData := s.eng.seq } ∧
      regWriteTurn addr 8 w s = .next s)

/-- 10_state R31: SEQ counts, modulo 2^64, exactly the commands completed without fault; it is 0 after a reset. -/
def Obligations.SeqCountsCompletedCommands : Prop :=
  ∀ s t : State, engineOk s.eng → notSelect (nextTurn s) = true → step s = .next t →
    (resets s (nextTurn s) = true → t.eng.seq = 0) ∧
    (nextTurn s = .engine → s.eng.busy = true →
      (t.eng.done = true ∧ t.eng.err = false ∧ t.eng.seq = s.eng.seq + 1) ∨
        (t.eng.done = false ∧ t.eng.err = true ∧ t.eng.seq = s.eng.seq)) ∧
    (resets s (nextTurn s) = false → (nextTurn s ≠ .engine ∨ s.eng.busy = false) → t.eng.seq = s.eng.seq)

/-- 10_state R27: RESULT changes only when a query command completes without fault, at the same instant as DONE is set, or by a
reset. -/
def Obligations.ResultChangesOnlyByQueries : Prop :=
  ∀ s t : State, engineOk s.eng → notSelect (nextTurn s) = true → step s = .next t → t.eng.result ≠ s.eng.result →
    (resets s (nextTurn s) = true ∧ t.eng.result = 0) ∨
      (nextTurn s = .engine ∧ s.eng.busy = true ∧ t.eng.done = true ∧ t.eng.err = false ∧
        s.eng.latch.opcode ∈ [(0x01 : Byte), 0x03, 0x04])

/-- 10_state R38: the interrupt output is the level IRQ_EN and (DONE or ERR), as the host reads these bits. -/
def Obligations.InterruptIsALevel : Prop :=
  ∀ e : Engine, irq e =
    ((readReg .ctrl e).getLsbD 0 && ((readReg .status e).getLsbD 1 || (readReg .status e).getLsbD 2))

/-- 10_state R39: the register values after State.reset, after a hard reset and after a soft reset; memory is changed by no
reset but a hard reset taken while BUSY. -/
def Obligations.RegistersAfterReset : Prop :=
  ∀ (s : State) (w : Word),
    (∀ r, readReg r State.reset.eng = if r = .id then 0x4244514701000408 else 0) ∧ irq State.reset.eng = false ∧
    (∀ r, readReg r (hardReset s).eng = if r = .id then 0x4244514701000408 else 0) ∧ irq (hardReset s).eng = false ∧
    (s.eng.busy = false → (hardReset s).mem = s.mem) ∧
    (s.eng.busy = false → w.getLsbD 1 = true →
      (∀ r, readReg r (writeReg .ctrl w s).eng = if r = .id then 0x4244514701000408 else 0) ∧
      irq (writeReg .ctrl w s).eng = false ∧ (writeReg .ctrl w s).mem = s.mem)

/-- 70_reset R181: a hard reset abandons a running command, records no completion and no fault, and changes no byte outside that
command's write footprint, which is the one its latched descriptor encodes, whether or not the command would pass its
checks. That a busy engine whose fetch faults, or whose descriptor encodes no command or has a reserved flag, has no
footprint is DEDUCED, and the length of a footprint for an illegal BLKLEN (0, or odd: rounded down) is the model's choice (log 10). -/
def Obligations.HardResetRule : Prop :=
  ∀ s t : State, s.mem.wf → nextTurn s = .hardReset → step s = .next t →
    (∀ r, readReg r t.eng = if r = .id then 0x4244514701000408 else 0) ∧
    ∀ a, (∀ i, runningJob s.mapped s.eng = some i → inRanges (writeFootprint i) a = false) →
      t.mem.read a = s.mem.read a

/-- 10_state R34, R35: every step keeps, in every engine instance, exactly one of idle, busy and faulted, and the error registers 0 unless
ERR is 1 and then a code in 1 .. 7. -/
def Obligations.StepKeepsTheRegistersOk : Prop :=
  ∀ s t : State, registersOk s → step s = .next t → registersOk t

/-- 10_state R34, R35, R39: the reset state meets the invariant of the registers. The memory clause is the model's choice (log 4). -/
def Obligations.ResetMeetsTheInvariants : Prop :=
  registersOk State.reset ∧ State.reset.mem.wf

/-- The model's choice (log 4): every step keeps memory in its canonical form, so that equal memories are equal data. -/
def Obligations.StepKeepsMemoryCanonical : Prop :=
  ∀ s t : State, s.mem.wf → step s = .next t → t.mem.wf

/-! ## Footprints -/

/-- 10_state R36, 20_memory R64, 60_exceptions R153: the engine's turn changes a byte of memory only while BUSY, only when the running
command has passed its checks, and only inside that command's write footprint. -/
def Obligations.EngineWritesOnlyItsFootprint : Prop :=
  ∀ s t : State, s.mem.wf → engineTurn s = .next t → ∀ a, t.mem.read a ≠ s.mem.read a →
    ∃ i, runningJob s.mapped s.eng = some i ∧ checkInstr i = none ∧ inRanges (writeFootprint i) a = true

/-- 20_memory R64: a command reads no byte outside its read footprint: on two memories that agree there it leaves the same bytes in
its write footprint and the same registers. -/
def Obligations.CommandReadsOnlyItsFootprint : Prop :=
  ∀ (i : Instr) (s : State) (m : Memory), i.wellFormed = true → s.mem.wf → m.wf → Accessible i s → Exclusive i s →
    (∀ a, inRanges (readFootprint i) a = true → m.read a = s.mem.read a) →
    ∃ t u, exec i s = .next t ∧ exec i { s with mem := m } = .next u ∧ { u with mem := t.mem } = t ∧
      ∀ a, inRanges (writeFootprint i) a = true → u.mem.read a = t.mem.read a

/-- 60_exceptions R171: engine instances share nothing but memory: no turn of one changes another's registers or latched descriptor
(the model's own flag of log 8 aside). -/
def Obligations.InstancesShareOnlyMemory : Prop :=
  ∀ s t : State, notSelect (nextTurn s) = true → step s = .next t →
    t.others.map specRegisters = s.others.map specRegisters

/-- The model's choice (log 8, log 9) for 70_reset R185, R186: a command that breaks one of them completes like any other: every register is as
in a normal completion (RESULT changes only for a query), and so is every byte outside its write footprint; nothing is
said of the bytes inside. -/
def Obligations.BrokenObligationOnlyFreesTheFootprint : Prop :=
  ∀ (i : Instr) (s : State), i.wellFormed = true → s.mem.wf → Accessible i s → hazard i s = true →
    ∃ t, exec i s = .next t ∧
      t.eng = { s.eng with result := t.eng.result, seq := s.eng.seq + 1, done := true, busy := false } ∧
      (i.opcode ∉ [(0x01 : Byte), 0x03, 0x04] → t.eng.result = s.eng.result) ∧
      ∀ a, inRanges (writeFootprint i) a = false → t.mem.read a = s.mem.read a

/-! ## The queries -/

/-- 40_blockcodec R90: a legal PACKSZ completes with RESULT = N * ceil_div(K, BLKLEN) * (BLKLEN / 2), and changes nothing but RESULT, SEQ and STATUS. -/
def Obligations.PackszReturnsThePackedSize : Prop :=
  ∀ (b : BitVec 16) (n k : BitVec 32) (s : State), (Instr.packsz b n k).wellFormed = true →
    exec (.packsz b n k) s = .next { s with
      eng := { s.eng with
        result := BitVec.ofNat 64 (n.toNat * ((k.toNat + b.toNat - 1) / b.toNat) * (b.toNat / 2))
        seq := s.eng.seq + 1
        done := true
        busy := false } }

/-- 41_workspace R100: a legal WSSZ completes with RESULT = 0 in float mode and M * ceil_div(K, BLKLEN) * (4 + BLKLEN) in
int8 mode. -/
def Obligations.WsszReturnsTheWorkspaceSize : Prop :=
  ∀ (mode : Mode) (b : BitVec 16) (m k : BitVec 32) (s : State), (Instr.wssz mode b m k).wellFormed = true →
    exec (.wssz mode b m k) s = .next { s with
      eng := { s.eng with
        result := if mode = .float then 0
          else BitVec.ofNat 64 (m.toNat * ((k.toNat + b.toNat - 1) / b.toNat) * (4 + b.toNat))
        seq := s.eng.seq + 1
        done := true
        busy := false } }

/-- 41_workspace R101: WSALIGN always completes, with RESULT = 1 in float mode and 4 in int8 mode. -/
def Obligations.WsalignReturnsTheAlignment : Prop :=
  ∀ (mode : Mode) (s : State),
    exec (.wsalign mode) s = .next { s with
      eng := { s.eng with
        result := if mode = .float then 1 else 4
        seq := s.eng.seq + 1
        done := true
        busy := false } }

/-- 00_scope R16: for legal operands the packed size is below 2^62 and the workspace size below 2^63, so RESULT holds them whole. -/
def Obligations.QuerySizesFitTheirRegister : Prop :=
  ∀ (b : BitVec 16) (m n k : BitVec 32), blkLenOk b = true → dimOk m = true → dimOk n = true → dimOk k = true →
    packedSize b.toNat n.toNat k.toNat < 2 ^ 62 ∧ workspaceSize .int8 b.toNat m.toNat k.toNat < 2 ^ 63

/-! ## The commands that store -/

/-- 40_blockcodec R93, R92: PACK completes, and the inverse nibble extraction recovers every 4-bit value of the source, padding slots
included, in the mode it was packed with; no byte outside the packed array changes. -/
def Obligations.PackThenExtractRecoversEveryNibble : Prop :=
  ∀ (mode : Mode) (b : BitVec 16) (n k : BitVec 32) (pa pb : Word) (s : State),
    (Instr.pack mode b n k pa pb).wellFormed = true → s.mem.wf →
    Accessible (.pack mode b n k pa pb) s → Exclusive (.pack mode b n k pa pb) s →
    ∃ t, exec (.pack mode b n k pa pb) s = .next t ∧ t = complete none { s with mem := t.mem } ∧
      (∀ blk < n.toNat * blockCount k.toNat b.toNat, ∀ i < b.toNat,
        packedNibble t.mem mode b.toNat (pb.toNat + blk * (b.toNat / 2)) i =
          refNibble s.mem (pa.toNat + blk * (b.toNat / 2)) i) ∧
      ∀ a, inRanges (writeFootprint (.pack mode b n k pa pb)) a = false → t.mem.read a = s.mem.read a

/-- 43_dequantize R123: DEQ completes; output element (k, n) is the decoded weight for k < K and n < N, and +0.0 in the rest of the padded region;
no other byte changes. -/
def Obligations.DeqMaterializesTheMatrix : Prop :=
  ∀ (b : BitVec 16) (n k ldc : BitVec 32) (pb ps : Word) (pz : Option Word) (pc : Word) (s : State),
    (Instr.deq b n k ldc pb ps pz pc).wellFormed = true → s.mem.wf →
    Accessible (.deq b n k ldc pb ps pz pc) s → Exclusive (.deq b n k ldc pb ps pz pc) s →
    ∃ t, exec (.deq b n k ldc pb ps pz pc) s = .next t ∧ t = complete none { s with mem := t.mem } ∧
      (∀ row < roundUp16 k.toNat, ∀ col < roundUp16 n.toNat,
        t.mem.f32 (outAddr pc.toNat ldc.toNat row col) =
          if row < k.toNat ∧ col < n.toNat then deqElem (weightsOf b n k pb ps pz) s.mem row col else 0) ∧
      ∀ a, inRanges (writeFootprint (.deq b n k ldc pb ps pz pc)) a = false → t.mem.read a = s.mem.read a

/-- 44_gemm_fp32 R131, R132: GEMMF completes; every output element is its four-lane dot product, with the bias added last when there
is one; no other byte changes. -/
def Obligations.GemmfWritesEveryElement : Prop :=
  ∀ (b : BitVec 16) (m n k lda ldc : BitVec 32) (pa pb ps : Word) (pz bias : Option Word) (pc : Word) (s : State),
    (Instr.gemmf b m n k lda ldc pa pb ps pz bias pc).wellFormed = true → s.mem.wf →
    Accessible (.gemmf b m n k lda ldc pa pb ps pz bias pc) s →
    Exclusive (.gemmf b m n k lda ldc pa pb ps pz bias pc) s →
    ∃ t, exec (.gemmf b m n k lda ldc pa pb ps pz bias pc) s = .next t ∧ t = complete none { s with mem := t.mem } ∧
      (∀ row < m.toNat, ∀ col < n.toNat,
        t.mem.f32 (outAddr pc.toNat ldc.toNat row col) =
          addBias s.mem bias col (dot32 s.mem (weightsOf b n k pb ps pz) pa.toNat lda.toNat row col)) ∧
      ∀ a, inRanges (writeFootprint (.gemmf b m n k lda ldc pa pb ps pz bias pc)) a = false →
        t.mem.read a = s.mem.read a

/-- 45_gemm_int8 R141, R142: GEMMI completes; every output element is the fold of its blocks' rescaled integer sums, with the bias added
last when there is one; the fold starts at +0.0 and adds, in increasing block order, the converted exact sum over all BLKLEN slots times the
product of the two scales; no other byte changes. -/
def Obligations.GemmiWritesEveryElement : Prop :=
  ∀ (b : BitVec 16) (m n k ldc : BitVec 32) (pa pb ps : Word) (pz bias : Option Word) (pc : Word) (s : State),
    (Instr.gemmi b m n k ldc pa pb ps pz bias pc).wellFormed = true → s.mem.wf →
    Accessible (.gemmi b m n k ldc pa pb ps pz bias pc) s → Exclusive (.gemmi b m n k ldc pa pb ps pz bias pc) s →
    ∃ t, exec (.gemmi b m n k ldc pa pb ps pz bias pc) s = .next t ∧ t = complete none { s with mem := t.mem } ∧
      (∀ row < m.toNat, ∀ col < n.toNat,
        t.mem.f32 (outAddr pc.toNat ldc.toNat row col) =
          addBias s.mem bias col (dotQ8 s.mem (weightsOf b n k pb ps pz) pa.toNat row col)) ∧
      (∀ row col : Nat, let w := weightsOf b n k pb ps pz
        dotQ8 s.mem w pa.toNat row col =
          (List.range w.bck).foldl (fun acc kb => fadd acc (fmul
            (i2f ((List.range b.toNat).map fun i => qCode s.mem pa.toNat b.toNat w.bck row kb i *
              ((w.nib s.mem .int8 col kb i : Int) - (w.zp s.mem col kb : Int))).sum)
            (fmul (qScale s.mem pa.toNat b.toNat w.bck row kb) (w.scale s.mem col kb)))) 0) ∧
      ∀ a, inRanges (writeFootprint (.gemmi b m n k ldc pa pb ps pz bias pc)) a = false →
        t.mem.read a = s.mem.read a

/-- 42_quantize R111, R112: QROW completes; every block of the output is its scale header, least significant byte first, the code of
each valid element, and zero codes in the padding slots, where the scale is the largest magnitude of the block's valid elements over
127.0 and the reciprocal +0.0 for a zero scale, else 1.0 over the scale; no other byte changes. -/
def Obligations.QrowWritesEveryBlock : Prop :=
  ∀ (b : BitVec 16) (k : BitVec 32) (pa pc : Word) (s : State), (Instr.qrow b k pa pc).wellFormed = true → s.mem.wf →
    Accessible (.qrow b k pa pc) s → Exclusive (.qrow b k pa pc) s →
    ∃ t, exec (.qrow b k pa pc) s = .next t ∧ t = complete none { s with mem := t.mem } ∧
      (∀ kb < blockCount k.toNat b.toNat,
        t.mem.f32 (pc.toNat + kb * (4 + b.toNat)) = blockScale (rowBlock s.mem b.toNat k.toNat pa.toNat kb) ∧
        (∀ j < 4, t.mem.read (pc.toNat + kb * (4 + b.toNat) + j) =
          (blockScale (rowBlock s.mem b.toNat k.toNat pa.toNat kb)).extractLsb' (8 * j) 8) ∧
        ∀ i < b.toNat, t.mem.read (pc.toNat + kb * (4 + b.toNat) + 4 + i) =
          if kb * b.toNat + i < k.toNat then
            BitVec.ofInt 8 (cvtI8 (fmul (s.mem.f32 (pa.toNat + 4 * (kb * b.toNat + i)))
              (scaleRecip (blockScale (rowBlock s.mem b.toNat k.toNat pa.toNat kb)))))
          else 0) ∧
      (∀ kb < blockCount k.toNat b.toNat, ∃ amax : F32, signBit amax = false ∧
        (∀ i < b.toNat, kb * b.toNat + i < k.toNat →
          absBits (s.mem.f32 (pa.toNat + 4 * (kb * b.toNat + i))) ≤ absBits amax) ∧
        (∃ i < b.toNat, kb * b.toNat + i < k.toNat ∧
          absBits (s.mem.f32 (pa.toNat + 4 * (kb * b.toNat + i))) = absBits amax) ∧
        blockScale (rowBlock s.mem b.toNat k.toNat pa.toNat kb) = fdiv amax 0x42FE0000 ∧
        scaleRecip (fdiv amax 0x42FE0000) =
          if isZero (fdiv amax 0x42FE0000) then 0 else fdiv 0x3F800000 (fdiv amax 0x42FE0000)) ∧
      ∀ a, inRanges (writeFootprint (.qrow b k pa pc)) a = false → t.mem.read a = s.mem.read a

/-- 20_memory R49 to R51, R53 to R56, 00_scope R13, R14: which byte, and which half of it, every operand of the commands is: reference
nibble, packed nibble, scale, zero point, activation header and code, activation, bias, and the output address. -/
def Obligations.OperandsFollowTheLayouts : Prop :=
  ∀ (m : Memory) (b : BitVec 16) (n k : BitVec 32) (pb ps : Word) (pz : Option Word) (mode : Mode) (col kb i : Nat),
    let w := weightsOf b n k pb ps pz
    let bck := (k.toNat + b.toNat - 1) / b.toNat
    let sub := if mode = .int8 ∧ b.toNat % 32 = 0 then 32 else 16
    w.bck = bck ∧
    w.nib m mode col kb i =
      (let byte := m.read (pb.toNat + (col * bck + kb) * (b.toNat / 2) + i / sub * (sub / 2) + i % sub % (sub / 2))
        if i % sub < sub / 2 then (byte.extractLsb' 0 4).toNat else (byte.extractLsb' 4 4).toNat) ∧
    w.scale m col kb = m.f32 (ps.toNat + 4 * (col * bck + kb)) ∧
    (pz = none → w.zp m col kb = 8) ∧
    (∀ z, pz = some z → w.zp m col kb =
      (let byte := m.read (z.toNat + col * ((bck + 1) / 2) + kb / 2)
        if kb % 2 = 0 then (byte.extractLsb' 0 4).toNat else (byte.extractLsb' 4 4).toNat)) ∧
    (∀ src : Nat, refNibble m src i =
      (let byte := m.read (src + i / 2)
        if i % 2 = 0 then (byte.extractLsb' 0 4).toNat else (byte.extractLsb' 4 4).toNat)) ∧
    ∀ pa row : Nat,
      qScale m pa b.toNat bck row kb = m.f32 (pa + (row * bck + kb) * (4 + b.toNat)) ∧
      qCode m pa b.toNat bck row kb i = (m.read (pa + (row * bck + kb) * (4 + b.toNat) + 4 + i)).toInt ∧
      (∀ lda, activation m pa lda row i = m.f32 (pa + 4 * (row * lda + i))) ∧
      (∀ ldc, outAddr pa ldc row col = pa + 4 * (row * ldc + col)) ∧
      ∀ v : F32, addBias m none col v = v ∧ ∀ p : Word, addBias m (some p) col v = fadd v (m.f32 (p.toNat + 4 * col))

/-- 20_memory R41, 00_scope R9, 30_encoding R71: the least significant byte lies at the lowest address: in a float that is read, in a
float that is stored, and in every field of a descriptor, at its offset. -/
def Obligations.BytesAreLittleEndian : Prop :=
  (∀ (m : Memory) (a : Nat), (m.f32 a).toNat =
    (m.read a).toNat + 2 ^ 8 * (m.read (a + 1)).toNat + 2 ^ 16 * (m.read (a + 2)).toNat + 2 ^ 24 * (m.read (a + 3)).toNat) ∧
  (∀ (a : Nat) (v : F32), f32Stores a v =
    [(a, v.extractLsb' 0 8), (a + 1, v.extractLsb' 8 8), (a + 2, v.extractLsb' 16 8), (a + 3, v.extractLsb' 24 8)]) ∧
  ∀ d : Descriptor, d.toBytes[0]? = some d.opcode ∧ d.toBytes[1]? = some d.flags ∧
    (∀ j < 2, d.toBytes[2 + j]? = some (d.blkLen.extractLsb' (8 * j) 8)) ∧
    (∀ j < 4, d.toBytes[4 + j]? = some (d.m.extractLsb' (8 * j) 8) ∧
      d.toBytes[8 + j]? = some (d.n.extractLsb' (8 * j) 8) ∧ d.toBytes[12 + j]? = some (d.k.extractLsb' (8 * j) 8) ∧
      d.toBytes[16 + j]? = some (d.lda.extractLsb' (8 * j) 8) ∧
      d.toBytes[20 + j]? = some (d.ldc.extractLsb' (8 * j) 8)) ∧
    (∀ j < 8, d.toBytes[24 + j]? = some (d.ptrA.extractLsb' (8 * j) 8) ∧
      d.toBytes[32 + j]? = some (d.ptrB.extractLsb' (8 * j) 8) ∧
      d.toBytes[40 + j]? = some (d.ptrS.extractLsb' (8 * j) 8) ∧
      d.toBytes[48 + j]? = some (d.ptrZ.extractLsb' (8 * j) 8) ∧
      d.toBytes[56 + j]? = some (d.ptrBias.extractLsb' (8 * j) 8) ∧
      d.toBytes[64 + j]? = some (d.ptrC.extractLsb' (8 * j) 8)) ∧
    Descriptor.ofBytes d.toBytes = d

/-! ## The arithmetic -/

/-- 00_scope R10, R11, R12: the value of a finite pattern by its sign, exponent and fraction fields; the rounding of every float operation:
the magnitude pattern given for n / d counts of 2^-149 is at least as near as any other finite pattern, and even when another is as
near; it is the infinity exactly from the largest finite value plus half a unit in the last place on; and the sum, the
product, the quotient of finite operands and the converted integer are the exact ones so rounded, with their sign. -/
def Obligations.RoundingIsToNearestEven : Prop :=
  (∀ (neg : Bool) (e f : Nat), e < 255 → f < 2 ^ 23 →
    scaledValue (withSign neg (e * 2 ^ 23 + f)) =
      (if neg then -1 else 1) * (if e = 0 then (f : Int) else (2 ^ 23 + f) * 2 ^ (e - 1))) ∧
  (∀ a b : F32, isNaN a = false → isInf a = false → isNaN b = false → isInf b = false →
    (scaledValue a + scaledValue b ≠ 0 → fadd a b =
      withSign (scaledValue a + scaledValue b < 0) (roundBits (scaledValue a + scaledValue b).natAbs 1)) ∧
    fmul a b = withSign (signBit a != signBit b)
      (roundBits (scaledValue a * scaledValue b).natAbs (2 ^ 149)) ∧
    (scaledValue b ≠ 0 → fdiv a b = withSign (signBit a != signBit b)
      (roundBits ((scaledValue a).natAbs * 2 ^ 149) (scaledValue b).natAbs))) ∧
  (∀ n : Int, i2f n = withSign (n < 0) (roundBits (n.natAbs * 2 ^ 149) 1)) ∧
  ∀ n d : Nat, 0 < d →
    (roundBits n d = infBits ↔ (2 ^ 25 - 1) * 2 ^ 252 * d ≤ n) ∧ roundBits n d ≤ infBits ∧
    (roundBits n d < infBits → ∀ q < infBits,
      ((n : Int) - d * magnitude (withSign false (roundBits n d))).natAbs ≤
          ((n : Int) - d * magnitude (withSign false q)).natAbs ∧
        (((n : Int) - d * magnitude (withSign false (roundBits n d))).natAbs =
            ((n : Int) - d * magnitude (withSign false q)).natAbs →
          q ≠ roundBits n d → roundBits n d % 2 = 0))

/-- 00_scope R11: NaN operands and the invalid operations give CNAN; the division by zero; the results with exactly one infinite
operand; the signs of zero results. -/
def Obligations.SpecialFloatResults : Prop :=
  ∀ a b : F32,
    (isNaN a = true ∨ isNaN b = true → fadd a b = 0x7FC00000 ∧ fmul a b = 0x7FC00000 ∧ fdiv a b = 0x7FC00000) ∧
    (isInf a = true → isInf b = true → signBit a ≠ signBit b → fadd a b = 0x7FC00000) ∧
    (isInf a = true → isZero b = true → fmul a b = 0x7FC00000 ∧ fmul b a = 0x7FC00000) ∧
    (isZero a = true → isZero b = true → fdiv a b = 0x7FC00000) ∧
    (isInf a = true → isInf b = true → fdiv a b = 0x7FC00000) ∧
    (isNaN a = false → isInf a = false → isZero a = false → isZero b = true →
      fdiv a b = withSign (signBit a != signBit b) infBits) ∧
    (isInf a = true → isNaN b = false → isInf b = false →
      fadd a b = a ∧ fadd b a = a ∧ fdiv a b = withSign (signBit a != signBit b) infBits ∧
      fdiv b a = withSign (signBit b != signBit a) 0 ∧
      (isZero b = false → fmul a b = withSign (signBit a != signBit b) infBits ∧
        fmul b a = withSign (signBit b != signBit a) infBits)) ∧
    (isInf a = true → isInf b = true → signBit a = signBit b → fadd a b = a) ∧
    (isInf a = true → isInf b = true → fmul a b = withSign (signBit a != signBit b) infBits) ∧
    (isZero (fmul a b) = true → fmul a b = withSign (signBit a != signBit b) 0) ∧
    (isZero (fdiv a b) = true → fdiv a b = withSign (signBit a != signBit b) 0) ∧
    fadd 0x80000000 0x80000000 = 0x80000000 ∧ fadd 0 0 = 0 ∧
    (isNaN a = false → isInf a = false → isNaN b = false → isInf b = false → signBit a ≠ signBit b →
      isZero (fadd a b) = true → fadd a b = 0)

/-- 00_scope R12, 45_gemm_int8 R145: an integer of magnitude at most 2^24 converts exactly; 0 converts to +0.0. -/
def Obligations.SmallIntegersConvertExactly : Prop :=
  (∀ n : Int, n.natAbs ≤ 2 ^ 24 → scaledValue (i2f n) = n * 2 ^ 149 ∧ isNaN (i2f n) = false ∧ isInf (i2f n) = false) ∧
    i2f 0 = 0

/-- 42_quantize R113, 00_scope R12: the integer given for a pattern is in -127 .. 127, 0 for a NaN, the bound of its sign for an infinity, and
otherwise the clamped rta of it; its byte is never 0x80; and rta is the nearest integer, ties going away from zero. -/
def Obligations.CodesAreSaturated : Prop :=
  ∀ y : F32, -127 ≤ cvtI8 y ∧ cvtI8 y ≤ 127 ∧ BitVec.ofInt 8 (cvtI8 y) ≠ 0x80 ∧ BitVec.ofInt 8 (-127) = 0x81 ∧
    (isNaN y = true → cvtI8 y = 0) ∧ cvtI8 0x7F800000 = 127 ∧ cvtI8 0xFF800000 = -127 ∧
    (isNaN y = false → isInf y = false → cvtI8 y = min 127 (max (-127) (rta y)) ∧
      2 * (scaledValue y - rta y * 2 ^ 149).natAbs ≤ 2 ^ 149 ∧
      (2 * (scaledValue y - rta y * 2 ^ 149).natAbs = 2 ^ 149 →
        (scaledValue y).natAbs ≤ (rta y * 2 ^ 149).natAbs))

/-- 42_quantize R114: a block of zeros of either sign has maximum, scale and reciprocal +0.0, only zero products and only zero codes. -/
def Obligations.ZeroBlockQuantizesToZero : Prop :=
  ∀ (xs : List F32) (blkLen : Nat), (∀ x ∈ xs, isZero x = true) →
    blockMax xs = 0 ∧ blockScale xs = 0 ∧ scaleRecip (blockScale xs) = 0 ∧
      (∀ x ∈ xs, isZero (fmul x (scaleRecip (blockScale xs))) = true) ∧ ∀ c ∈ blockCodes xs blkLen, c = 0

/-- 42_quantize R116: a block with a NaN has the header CNAN, only CNAN products and only zero codes; one with an infinity and no NaN
has the header +inf, the reciprocal +0.0 and only zero codes; either header times a weight scale times a zero block sum is CNAN. -/
def Obligations.NonFiniteBlockQuantizesToZeroCodes : Prop :=
  ∀ (xs : List F32) (blkLen : Nat),
    ((∃ x ∈ xs, isNaN x = true) →
      isNaN (blockMax xs) = true ∧ blockScale xs = 0x7FC00000 ∧ scaleRecip (blockScale xs) = 0x7FC00000 ∧
      (∀ x ∈ xs, fmul x (scaleRecip (blockScale xs)) = 0x7FC00000) ∧ (∀ c ∈ blockCodes xs blkLen, c = 0) ∧
      ∀ sc, fmul (i2f 0) (fmul (blockScale xs) sc) = 0x7FC00000) ∧
    ((∀ x ∈ xs, isNaN x = false) → (∃ x ∈ xs, isInf x = true) →
      blockMax xs = 0x7F800000 ∧ blockScale xs = 0x7F800000 ∧ scaleRecip (blockScale xs) = 0 ∧
      (∀ x ∈ xs, isInf x = false → isZero (fmul x (scaleRecip (blockScale xs))) = true) ∧
      (∀ x ∈ xs, isInf x = true → fmul x (scaleRecip (blockScale xs)) = 0x7FC00000) ∧
      (∀ c ∈ blockCodes xs blkLen, c = 0) ∧ ∀ sc, fmul (i2f 0) (fmul (blockScale xs) sc) = 0x7FC00000)

/-- 42_quantize R117: QROW's output bytes are a function of K, BLKLEN and the 4 * K input bytes alone: two runs on equal input bytes,
wherever they lie and whatever else the states hold, write equal output bytes. -/
def Obligations.QuantizationIsDeterministic : Prop :=
  ∀ (b : BitVec 16) (k : BitVec 32) (pa pc pa' pc' : Word) (s s' : State),
    (Instr.qrow b k pa pc).wellFormed = true → (Instr.qrow b k pa' pc').wellFormed = true → s.mem.wf → s'.mem.wf →
    Accessible (.qrow b k pa pc) s → Accessible (.qrow b k pa' pc') s' →
    Exclusive (.qrow b k pa pc) s → Exclusive (.qrow b k pa' pc') s' →
    (∀ j < 4 * k.toNat, s.mem.read (pa.toNat + j) = s'.mem.read (pa'.toNat + j)) →
    ∃ t t', exec (.qrow b k pa pc) s = .next t ∧ exec (.qrow b k pa' pc') s' = .next t' ∧
      ∀ j < blockCount k.toNat b.toNat * (4 + b.toNat),
        t.mem.read (pc.toNat + j) = t'.mem.read (pc'.toNat + j)

/-- 43_dequantize R120: the decoded weight is scale * (nibble - zero point) with one rounding; a nibble equal to its zero point
gives a zero with the scale's sign for a finite scale and CNAN for an infinite one; a NaN scale gives CNAN; the zero point is 8 where
there is no zero-point array. -/
def Obligations.DecodeStepRule : Prop :=
  (∀ (sc : F32) (w zp : Nat), w < 16 → zp < 16 →
    dequant sc w zp = fmul sc (i2f ((w : Int) - (zp : Int))) ∧
    (isNaN sc = true → dequant sc w zp = 0x7FC00000) ∧
    (isInf sc = true → w = zp → dequant sc w zp = 0x7FC00000) ∧
    (isNaN sc = false → isInf sc = false → w = zp → dequant sc w zp = withSign (signBit sc) 0)) ∧
  ∀ (w : Weights) (m : Memory) (col kb : Nat), w.ptrZ = none → w.zp m col kb = 8

/-- 43_dequantize R121: the pattern 0x41800000 + w * 2^19 has the value 16 + w; less the float 16 + zp it is i2f (w - zp), exactly; so the
bit-construction form of the decode gives the value of the rule. -/
def Obligations.BitConstructionGivesTheSameValue : Prop :=
  ∀ (w zp : Nat) (sc : F32), w < 16 → zp < 16 →
    scaledValue (BitVec.ofNat 32 (0x41800000 + w * 2 ^ 19)) = (16 + (w : Int)) * 2 ^ 149 ∧
    fadd (BitVec.ofNat 32 (0x41800000 + w * 2 ^ 19)) (i2f (-(16 + (zp : Int)))) = i2f ((w : Int) - (zp : Int)) ∧
    fmul sc (fadd (BitVec.ofNat 32 (0x41800000 + w * 2 ^ 19)) (i2f (-(16 + (zp : Int))))) = dequant sc w zp

/-- 43_dequantize R122: the source's worked example, 0.25 * (5 - 2) = 0.75 exactly. -/
def Obligations.WorkedDequantizationExample : Prop :=
  dequant 0x3E800000 5 2 = 0x3F400000

/-- 44_gemm_fp32 R135: every lane starts at +0.0; fadd gives -0.0 only for -0.0 + -0.0; so a lane is never -0.0, the float dot
product is never -0.0, and GEMMF's element without bias is never -0.0. -/
def Obligations.FloatKernelNeverGivesNegativeZero : Prop :=
  lanesZero = ⟨0, 0, 0, 0⟩ ∧
  (∀ a b : F32, fadd a b = 0x80000000 → a = 0x80000000 ∧ b = 0x80000000) ∧
  (∀ (l : Lanes) (k : Nat) (p : F32),
    (l.l0 ≠ 0x80000000 ∧ l.l1 ≠ 0x80000000 ∧ l.l2 ≠ 0x80000000 ∧ l.l3 ≠ 0x80000000) →
    ((lanesAdd l k p).l0 ≠ 0x80000000 ∧ (lanesAdd l k p).l1 ≠ 0x80000000 ∧ (lanesAdd l k p).l2 ≠ 0x80000000 ∧
      (lanesAdd l k p).l3 ≠ 0x80000000)) ∧
  ∀ (m : Memory) (w : Weights) (pa lda row col : Nat),
    dot32 m w pa lda row col ≠ 0x80000000 ∧ gemmfElem m w none pa lda row col ≠ 0x80000000

/-- 43_dequantize R124, 44_gemm_fp32 R132: the matrix DEQ writes is, element for element, the weights GEMMF multiplies: after a DEQ, each
element is the operand `b` of R132 for that weight, so that GEMMF's dot product over the packed weights is the four-lane dot
product over DEQ's output. -/
def Obligations.FloatKernelMultipliesWhatDeqWrites : Prop :=
  ∀ (b : BitVec 16) (n k ldc : BitVec 32) (pb ps : Word) (pz : Option Word) (pc : Word) (s : State),
    (Instr.deq b n k ldc pb ps pz pc).wellFormed = true → s.mem.wf →
    Accessible (.deq b n k ldc pb ps pz pc) s → Exclusive (.deq b n k ldc pb ps pz pc) s →
    ∃ t, exec (.deq b n k ldc pb ps pz pc) s = .next t ∧
      (∀ i < k.toNat, ∀ col < n.toNat,
        t.mem.f32 (outAddr pc.toNat ldc.toNat i col) =
          dequant ((weightsOf b n k pb ps pz).scale s.mem col (i / b.toNat))
            ((weightsOf b n k pb ps pz).nib s.mem .float col (i / b.toNat) (i % b.toNat))
            ((weightsOf b n k pb ps pz).zp s.mem col (i / b.toNat))) ∧
      ∀ (pa lda row : Nat), ∀ col < n.toNat,
        dot32 s.mem (weightsOf b n k pb ps pz) pa lda row col =
          denseDot k.toNat (fun i => activation s.mem pa lda row i)
            (fun i => t.mem.f32 (outAddr pc.toNat ldc.toNat i col))

/-- 44_gemm_fp32 R136, with a bound of the model's own making, since R136 gives a tolerance and random data: where every activation and
scale of the first K and the bias are zero or of magnitude 2^-40 to 2^40 and K is at most 4096, GEMMF's element is finite and is off the exact
value of the product by at most a thousandth of the sum of the magnitudes of its terms. -/
def Obligations.GemmfStaysCloseToTheExactProduct : Prop :=
  ∀ (m : Memory) (w : Weights) (bias : Option Word) (pa lda row col : Nat), 0 < w.blkLen → w.k ≤ 4096 →
    (∀ k < w.k, tame (activation m pa lda row k) ∧ tame (w.scale m col (k / w.blkLen))) →
    (∀ p, bias = some p → tame (m.f32 (p.toNat + 4 * col))) →
    isNaN (gemmfElem m w bias pa lda row col) = false ∧ isInf (gemmfElem m w bias pa lda row col) = false ∧
      1000 * (scaledValue (gemmfElem m w bias pa lda row col) * 2 ^ 149 - exactElem m w bias pa lda row col).natAbs ≤
        exactSize m w bias pa lda row col

/-- 44_gemm_fp32 R134, 45_gemm_int8 R146, 60_exceptions R171: an output element does not depend on the tile it is computed in: the column tile that starts at
column c and the row tile that starts at row r, with every pointer moved as R171 says, give the dot products and the elements, bias
included, that the whole product gives, at the addresses the whole product gives them. -/
def Obligations.ElementsDoNotDependOnTheTile : Prop :=
  ∀ (m : Memory) (w : Weights) (bias bias' : Option Word) (pa lda pc ldc c n r row col : Nat), biasTile bias bias' c →
    gemmfElem m (columnTile w c n) bias' (pa + 4 * (r * lda)) lda row col =
      gemmfElem m w bias pa lda (r + row) (c + col) ∧
    gemmiElem m (columnTile w c n) bias' (pa + r * w.bck * (4 + w.blkLen)) row col =
      gemmiElem m w bias pa (r + row) (c + col) ∧
    outAddr (pc + 4 * c + 4 * (r * ldc)) ldc row col = outAddr pc ldc (r + row) (c + col) ∧
    dot32 m (columnTile w c n) (pa + 4 * (r * lda)) lda row col = dot32 m w pa lda (r + row) (c + col) ∧
    dotQ8 m (columnTile w c n) (pa + r * w.bck * (4 + w.blkLen)) row col = dotQ8 m w pa (r + row) (c + col)

/-- 45_gemm_int8 R144: the ranges of the int8 path for every legal block length: the products are in -1920 .. 1920 and the block sum's magnitude is at
most 1920 * BlkLen, below 2^27. -/
def Obligations.BlockSumsNeverOverflow : Prop :=
  ∀ (m : Memory) (w : Weights) (pa row col kb : Nat),
    (∀ i, -128 ≤ qCode m pa w.blkLen w.bck row kb i ∧ qCode m pa w.blkLen w.bck row kb i ≤ 127 ∧
      w.nib m .int8 col kb i < 16 ∧ w.zp m col kb < 16) ∧
    (blockDot m w pa row col kb).natAbs ≤ 1920 * w.blkLen ∧
    (w.blkLen ≤ 65520 → (blockDot m w pa row col kb).natAbs < 2 ^ 27)

/-- 45_gemm_int8 R143: the padding slots of a workspace QROW wrote hold code 0, and slots with code 0 add nothing: the block sum is then the sum over the valid
slots, whatever the padding nibbles are. -/
def Obligations.PaddingCodesAddNothing : Prop :=
  ∀ (m : Memory) (w : Weights) (pa row col kb valid : Nat), valid ≤ w.blkLen →
    (∀ i, valid ≤ i → i < w.blkLen → qCode m pa w.blkLen w.bck row kb i = 0) →
    blockDot m w pa row col kb =
      ((List.range valid).map fun i =>
        qCode m pa w.blkLen w.bck row kb i * ((w.nib m .int8 col kb i : Int) - (w.zp m col kb : Int))).sum

/-- 45_gemm_int8 R147: the int8 accumulator starts at +0.0 and is never -0.0 after any number of blocks; a combined scale that is
infinite or NaN gives the term CNAN for a zero block sum and an infinity or CNAN otherwise; an accumulator that is CNAN stays CNAN; an
activation scale +0.0 gives a zero combined scale for a finite weight scale, and then a zero term. -/
def Obligations.IntKernelSignsAndNonFiniteScales : Prop :=
  (∀ (m : Memory) (w : Weights) (pa row col blocks : Nat),
    (List.range blocks).foldl (fun acc kb => fadd acc (blockTerm m w pa row col kb)) posZero ≠ 0x80000000) ∧
  (∀ (m : Memory) (w : Weights) (pa row col : Nat), dotQ8 m w pa row col ≠ 0x80000000) ∧
  (∀ (sc : F32) (n : Int), n.natAbs < 2 ^ 31 → isNaN sc = true ∨ isInf sc = true →
    (n = 0 → fmul (i2f n) sc = 0x7FC00000) ∧
      (n ≠ 0 → isInf (fmul (i2f n) sc) = true ∨ fmul (i2f n) sc = 0x7FC00000)) ∧
  (∀ x : F32, fadd 0x7FC00000 x = 0x7FC00000) ∧
  ∀ (sc : F32) (n : Int), n.natAbs < 2 ^ 31 → isNaN sc = false → isInf sc = false →
    isZero (fmul 0 sc) = true ∧ isZero (fmul (i2f n) (fmul 0 sc)) = true
end

