-- ==== Sys2Proof/Laws/Codec.lean ====
section
/-! SUPPORT. Bytes and descriptors: little-endian assembly undoes disassembly, and the fields of a descriptor's bytes are its fields. -/

namespace Sys2Proof

theorem leBytes_length (n v : Nat) : (leBytes n v).length = n := by
  induction n generalizing v with
  | zero => rfl
  | succ n ih => simp [leBytes, ih]

/-- Assembling the bytes of an integer gives the integer, up to the bytes' width (20_memory R41). -/
theorem leNat_leBytes (n v : Nat) : leNat (leBytes n v) = v % 256 ^ n := by
  induction n generalizing v with
  | zero => simp [leBytes, leNat, Nat.mod_one]
  | succ n ih =>
    simp only [leBytes, leNat, ih, BitVec.toNat_ofNat]
    rw [show (2 : Nat) ^ 8 = 256 from rfl, pow_succ, Nat.mul_comm (256 ^ n) 256, Nat.mod_mul]

theorem ofNat_leNat_leBytes {w n : Nat} (h : 2 ^ w = 256 ^ n) (v : BitVec w) :
    BitVec.ofNat w (leNat (leBytes n v.toNat)) = v := by
  rw [leNat_leBytes, ← h]
  simp

theorem Descriptor.toBytes_length (d : Descriptor) : d.toBytes.length = 72 := by
  simp [Descriptor.toBytes, leBytes_length]

/-- The field at the start of a byte string is the bytes written there (30_encoding R71). -/
theorem field_here {w n : Nat} (h : 2 ^ w = 256 ^ n) (v : BitVec w) (rest : List Byte) :
    field w (leBytes n v.toNat ++ rest) 0 n = v := by
  rw [field, List.drop_zero, List.take_left' (leBytes_length n _), ofNat_leNat_leBytes h]

/-- A field beyond the first bytes written is a field of the rest. -/
theorem field_skip {w n off len v : Nat} (h : n ≤ off) (rest : List Byte) :
    field w (leBytes n v ++ rest) off len = field w rest (off - n) len := by
  have hl : (leBytes n v).drop off = [] := List.drop_eq_nil_of_le (by rw [leBytes_length]; exact h)
  rw [field, field, List.drop_append, leBytes_length, hl, List.nil_append]

/-- The fields of a descriptor's bytes are the descriptor's fields (30_encoding R71). -/
theorem Descriptor.ofBytes_toBytes (d : Descriptor) : Descriptor.ofBytes d.toBytes = d := by
  have h8 := @field_here 8 1 rfl
  have h16 := @field_here 16 2 rfl
  have h32 := @field_here 32 4 rfl
  have h64 := @field_here 64 8 rfl
  have hl := fun v => (@field_here 64 8 rfl v [])
  simp only [List.append_nil] at hl
  unfold Descriptor.ofBytes Descriptor.toBytes
  simp only [List.append_assoc]
  simp (disch := decide) only [field_skip, Nat.reduceSub, h8, h16, h32, h64, hl]

end Sys2Proof
end

