-- ==== Sys2Proof/Laws/Float.lean ====
section
/-! SUPPORT. The binary32 arithmetic: the fields of a pattern, the value of a rounded pattern, and how near a rounded result is to
the exact one (spec/00_scope.md R10, R11). -/

namespace Sys2Proof.Machine

theorem signBit_withSign (neg : Bool) {q : Nat} (h : q < 2 ^ 31) : signBit (withSign neg q) = neg := by
  unfold signBit withSign
  rw [BitVec.msb_eq_decide, BitVec.toNat_ofNat]
  cases neg <;> simp <;> omega

theorem absBits_withSign (neg : Bool) {q : Nat} (h : q < 2 ^ 31) : absBits (withSign neg q) = q := by
  unfold absBits withSign
  rw [BitVec.toNat_ofNat]
  cases neg <;> simp <;> omega

/-- The magnitude by the exponent and fraction fields (00_scope R10). -/
theorem magnitude_fields (neg : Bool) {e f : Nat} (he : e < 256) (hf : f < 2 ^ 23) :
    magnitude (withSign neg (e * 2 ^ 23 + f)) = if e = 0 then f else (2 ^ 23 + f) * 2 ^ (e - 1) := by
  unfold magnitude
  rw [absBits_withSign neg (by omega), Nat.add_comm, Nat.add_mul_div_right _ _ (by decide), Nat.div_eq_of_lt hf,
    Nat.zero_add, Nat.add_mul_mod_self_right, Nat.mod_eq_of_lt hf]

theorem natAbs_scaledValue (x : F32) : (scaledValue x).natAbs = magnitude x := by
  unfold scaledValue
  split <;> simp

theorem magnitude_eq_zero {x : F32} : magnitude x = 0 ↔ isZero x = true := by
  have h := Nat.div_add_mod (absBits x) (2 ^ 23)
  simp only [magnitude, isZero, beq_iff_eq]
  split
  · omega
  · have : 0 < (2 ^ 23 + absBits x % 2 ^ 23) * 2 ^ (absBits x / 2 ^ 23 - 1) := by positivity
    omega

/-- The nearest integer is off by at most a half. -/
theorem nearestEven_error (n : Nat) {d : Nat} (hd : 0 < d) : 2 * ((n : Int) - d * nearestEven n d).natAbs ≤ d := by
  have h1 : (d : Int) * (n / d : Nat) + (n % d : Nat) = n := by exact_mod_cast Nat.div_add_mod n d
  have h2 := Nat.mod_lt n hd
  simp only [nearestEven]
  generalize n / d = q at h1
  split
  · omega
  · have h3 : (d : Int) * (q + 1 : Nat) = d * q + d := by
      push_cast
      ring
    split
    · omega
    · rcases Nat.mod_two_eq_zero_or_one q with h | h <;> rw [h]
      · rw [Nat.add_zero]
        omega
      · omega

/-- The nearest integer lies within the integers that bound the quotient. -/
theorem nearestEven_bounds {n d lo hi : Nat} (hd : 0 < d) (h1 : lo * d ≤ n) (h2 : n < hi * d) :
    lo ≤ nearestEven n d ∧ nearestEven n d ≤ hi := by
  have h3 : lo ≤ n / d := (Nat.le_div_iff_mul_le hd).mpr h1
  have h4 : n / d < hi := (Nat.div_lt_iff_lt_mul hd).mpr h2
  simp only [nearestEven]
  split
  · omega
  · split <;> omega

/-- The exponent `roundBits` chooses brackets the quotient. -/
theorem roundBits_exponent {n d : Nat} (hd : 0 < d) :
    n < 2 ^ 24 * (d * 2 ^ (Nat.log2 (n / d) - 23)) ∧
      (Nat.log2 (n / d) - 23 ≠ 0 → 2 ^ 23 * (d * 2 ^ (Nat.log2 (n / d) - 23)) ≤ n) := by
  have key : n / d < 2 ^ (Nat.log2 (n / d) + 1) := Nat.lt_log2_self
  constructor
  · have h1 : 2 ^ (Nat.log2 (n / d) + 1) ≤ 2 ^ (24 + (Nat.log2 (n / d) - 23)) :=
      Nat.pow_le_pow_right (by decide) (by omega)
    rw [Nat.pow_add] at h1
    have h2 := (Nat.div_lt_iff_lt_mul hd).mp (Nat.lt_of_lt_of_le key h1)
    calc n < _ := h2
      _ = _ := by ring
  · intro h
    have h0 : n / d ≠ 0 := fun hz => by simp [hz] at h
    have h1 := Nat.log2_self_le h0
    rw [show Nat.log2 (n / d) = 23 + (Nat.log2 (n / d) - 23) by omega, Nat.pow_add] at h1
    have h2 := (Nat.le_div_iff_mul_le hd).mp h1
    calc _ = _ := by ring
      _ ≤ n := h2

/-- The value of a rounded pattern that is no infinity: the nearest multiple of the last place's unit. -/
theorem magnitude_roundBits (neg : Bool) {n d : Nat} (hd : 0 < d) (hf : roundBits n d < infBits) :
    magnitude (withSign neg (roundBits n d)) =
      nearestEven n (d * 2 ^ (Nat.log2 (n / d) - 23)) * 2 ^ (Nat.log2 (n / d) - 23) := by
  obtain ⟨hu, hl⟩ := roundBits_exponent (n := n) hd
  simp only [roundBits] at hf ⊢
  generalize he : Nat.log2 (n / d) - 23 = e at *
  have hp : 0 < d * 2 ^ e := by positivity
  have hb := fun lo h => nearestEven_bounds (lo := lo) (hi := 2 ^ 24) hp h hu
  generalize nearestEven n (d * 2 ^ e) = q at *
  rw [Nat.min_eq_right (by omega)]
  have hi : infBits = 255 * 2 ^ 23 := by decide
  have hq : q ≤ 2 ^ 24 := (hb 0 (by omega)).2
  by_cases hz : e = 0
  · subst hz
    rcases Nat.lt_or_ge q (2 ^ 23) with h | h
    · have := magnitude_fields neg (e := 0) (f := q) (by omega) h
      simpa using this
    · rcases Nat.lt_or_ge q (2 ^ 24) with h' | h'
      · have := magnitude_fields neg (e := 1) (f := q - 2 ^ 23) (by omega) (by omega)
        rw [show 1 * 2 ^ 23 + (q - 2 ^ 23) = 0 * 2 ^ 23 + q by omega] at this
        rw [this]
        simp
        omega
      · have := magnitude_fields neg (e := 2) (f := 0) (by omega) (by omega)
        rw [show 2 * 2 ^ 23 + 0 = 0 * 2 ^ 23 + q by omega] at this
        rw [this]
        simp
        omega
  · have hlo := (hb (2 ^ 23) (hl hz)).1
    rcases Nat.lt_or_ge q (2 ^ 24) with h | h
    · have := magnitude_fields neg (e := e + 1) (f := q - 2 ^ 23) (by omega) (by omega)
      rw [show (e + 1) * 2 ^ 23 + (q - 2 ^ 23) = e * 2 ^ 23 + q by omega] at this
      rw [this, if_neg (by omega), Nat.add_sub_cancel, show 2 ^ 23 + (q - 2 ^ 23) = q by omega]
    · have := magnitude_fields neg (e := e + 2) (f := 0) (by omega) (by omega)
      rw [show (e + 2) * 2 ^ 23 + 0 = e * 2 ^ 23 + q by omega] at this
      rw [this, if_neg (by omega), show q = 2 ^ 24 by omega, show e + 2 - 1 = e + 1 by omega, Nat.pow_succ]
      ring

/-- A result below 2^256 counts of 2^-149 does not round to the infinity. -/
theorem roundBits_finite {n d : Nat} (hd : 0 < d) (h : n < 2 ^ 256 * d) : roundBits n d < infBits := by
  have h1 : n / d < 2 ^ 256 := (Nat.div_lt_iff_lt_mul hd).mpr h
  have h2 : Nat.log2 (n / d) < 256 := by
    by_cases hz : n / d = 0
    · simp [hz]
    · exact (Nat.log2_lt hz).mpr h1
  have h3 := (nearestEven_bounds (lo := 0) (hi := 2 ^ 24) (show 0 < d * 2 ^ (Nat.log2 (n / d) - 23) by positivity)
    (by omega) (roundBits_exponent hd).1).2
  have h4 : infBits = 255 * 2 ^ 23 := by decide
  simp only [roundBits]
  omega

/-- A rounded result is finite, has its sign, and is off by at most one part in 2^24, where it does not overflow and either is
normal or is a whole count of 2^-149 (00_scope R11). -/
theorem roundF32_close (neg : Bool) {n d : Nat} (hd : 0 < d) (h : n < 2 ^ 256 * d) (hn : d = 1 ∨ n = 0 ∨ 2 ^ 23 * d ≤ n) :
    isNaN (roundF32 neg n d) = false ∧ isInf (roundF32 neg n d) = false ∧ signBit (roundF32 neg n d) = neg ∧
      2 ^ 24 * ((n : Int) - d * magnitude (roundF32 neg n d)).natAbs ≤ n := by
  have hf := roundBits_finite hd h
  have hi : infBits < 2 ^ 31 := by decide
  unfold roundF32
  refine ⟨?_, ?_, signBit_withSign neg (by omega), ?_⟩
  · simp only [isNaN, absBits_withSign neg (show roundBits n d < 2 ^ 31 by omega), decide_eq_false_iff_not]
    omega
  · simp only [isInf, absBits_withSign neg (show roundBits n d < 2 ^ 31 by omega), beq_eq_false_iff_ne, ne_eq]
    omega
  · rw [magnitude_roundBits neg hd hf]
    obtain ⟨-, hl⟩ := roundBits_exponent (n := n) hd
    have he := nearestEven_error n (show 0 < d * 2 ^ (Nat.log2 (n / d) - 23) by positivity)
    have hz : Nat.log2 (n / d) - 23 = 0 → n = 0 ∨ d = 1 ∨ 2 ^ 23 * (d * 2 ^ (Nat.log2 (n / d) - 23)) ≤ n := fun hz => by
      rw [hz]
      omega
    generalize Nat.log2 (n / d) - 23 = e at *
    have hm : (d : Int) * ((nearestEven n (d * 2 ^ e) * 2 ^ e : Nat) : Int) =
        ((d * 2 ^ e : Nat) : Int) * (nearestEven n (d * 2 ^ e) : Nat) := by
      push_cast
      ring
    rw [hm]
    by_cases hz0 : e = 0
    · rcases hz hz0 with rfl | rfl | h'
      · have : nearestEven 0 (d * 2 ^ e) = 0 := by
          simp only [nearestEven, Nat.zero_div, Nat.zero_mod]
          split
          · rfl
          · split <;> omega
        simp [this]
      · subst hz0
        simp only [Nat.pow_zero, Nat.mul_one] at he ⊢
        omega
      · omega
    · have := hl hz0
      omega

/-- A sum of finite operands that does not overflow is finite and off by at most one part in 2^24 (00_scope R11). -/
theorem fadd_close {a b : F32} (ha : isNaN a = false ∧ isInf a = false) (hb : isNaN b = false ∧ isInf b = false)
    (h : (scaledValue a + scaledValue b).natAbs < 2 ^ 256) :
    isNaN (fadd a b) = false ∧ isInf (fadd a b) = false ∧
      2 ^ 24 * (scaledValue (fadd a b) - (scaledValue a + scaledValue b)).natAbs ≤
        (scaledValue a + scaledValue b).natAbs := by
  have hf : fadd a b = if scaledValue a + scaledValue b = 0 then withSign (signBit a && signBit b) 0
      else roundF32 (scaledValue a + scaledValue b < 0) (scaledValue a + scaledValue b).natAbs 1 := by
    simp [fadd, ha, hb]
  rw [hf]
  generalize scaledValue a + scaledValue b = v at *
  split
  · subst v
    cases signBit a <;> cases signBit b <;> decide
  · obtain ⟨e1, e2, e3, e4⟩ := roundF32_close (decide (v < 0)) (n := v.natAbs) (d := 1) (by decide) (by omega) (.inl rfl)
    refine ⟨e1, e2, ?_⟩
    rw [scaledValue, e3]
    generalize magnitude (roundF32 (decide (v < 0)) v.natAbs 1) = y at *
    by_cases hv : v < 0 <;> simp only [hv, decide_true, decide_false, if_true] <;> simp <;> omega

/-- A product of finite operands that is zero or normal and does not overflow is finite and off by at most one part in 2^24
(00_scope R11). -/
theorem fmul_close {a b : F32} (ha : isNaN a = false ∧ isInf a = false) (hb : isNaN b = false ∧ isInf b = false)
    (h : (scaledValue a * scaledValue b).natAbs < 2 ^ 256 * 2 ^ 149)
    (hn : scaledValue a * scaledValue b = 0 ∨ 2 ^ 23 * 2 ^ 149 ≤ (scaledValue a * scaledValue b).natAbs) :
    isNaN (fmul a b) = false ∧ isInf (fmul a b) = false ∧
      2 ^ 24 * (scaledValue (fmul a b) * 2 ^ 149 - scaledValue a * scaledValue b).natAbs ≤
        (scaledValue a * scaledValue b).natAbs := by
  have hf : fmul a b = roundF32 (signBit a != signBit b) (magnitude a * magnitude b) (2 ^ 149) := by simp [fmul, ha, hb]
  have hm : (scaledValue a * scaledValue b).natAbs = magnitude a * magnitude b := by
    rw [Int.natAbs_mul, natAbs_scaledValue, natAbs_scaledValue]
  have hs : scaledValue a * scaledValue b = if (signBit a != signBit b) then -((magnitude a * magnitude b : Nat) : Int)
      else (magnitude a * magnitude b : Nat) := by
    rw [scaledValue, scaledValue]
    cases signBit a <;> cases signBit b <;> simp
  have hz : scaledValue a * scaledValue b = 0 → magnitude a * magnitude b = 0 := fun hz => by rw [← hm, hz]; rfl
  rw [hm] at h hn
  obtain ⟨e1, e2, e3, e4⟩ := roundF32_close (signBit a != signBit b) (n := magnitude a * magnitude b) (d := 2 ^ 149)
    (by decide) h (.inr (hn.imp_left hz))
  rw [hf, hm]
  refine ⟨e1, e2, ?_⟩
  rw [scaledValue, e3, hs]
  generalize magnitude a * magnitude b = p at *
  generalize (signBit a != signBit b) = g at *
  generalize magnitude (roundF32 g p (2 ^ 149)) = y at *
  cases g <;> simp <;> omega

end Sys2Proof.Machine
end

