-- ==== Sys2Proof/Laws/Memory.lean ====
section
/-! SUPPORT. The laws of memory: read after write, the canonical form kept by every operation, and what a list of stores
leaves where. -/

namespace Sys2Proof.Machine

theorem Memory.read_nil (a : Nat) : Memory.read [] a = Config.unlistedByte := rfl

theorem Memory.read_cons_entry (c : Host.Cell) (m : Memory) (a : Nat) :
    Memory.read (c :: m) a = if c.1 = a then c.2 else m.read a := rfl

/-- An address below every listed one is unlisted. -/
theorem Memory.read_of_lt (m : Memory) (a : Nat) (h : ∀ c ∈ m, a < c.1) : m.read a = Config.unlistedByte := by
  induction m with
  | nil => rfl
  | cons c m ih =>
    have hc := h c (by simp)
    rw [read_cons_entry, if_neg (by omega)]
    exact ih fun d hd => h d (by simp [hd])

theorem Memory.wf_nil : Memory.wf [] := by simp [Memory.wf]

theorem Memory.wf_cons {c : Host.Cell} {m : Memory} :
    Memory.wf (c :: m) ↔
      (∀ d ∈ m, c.1 < d.1) ∧ c.1 < 2 ^ 64 ∧ c.2 ≠ Config.unlistedByte ∧ Memory.wf m := by
  simp only [Memory.wf, List.pairwise_cons, List.mem_cons, forall_eq_or_imp]
  tauto

theorem Memory.mem_cons {a : Nat} {b : Byte} {m : Memory} {c : Host.Cell} (h : c ∈ Memory.cons a b m) :
    c = (a, b) ∨ c ∈ m := by
  unfold Memory.cons at h
  split at h
  · exact .inr h
  · simpa using h

theorem Memory.mem_insert {m : Memory} {a : Nat} {b : Byte} {c : Host.Cell} (h : c ∈ m.insert a b) :
    c = (a, b) ∨ c ∈ m := by
  induction m with
  | nil => exact (Memory.mem_cons h)
  | cons d m ih =>
    unfold Memory.insert at h
    split at h
    · rcases Memory.mem_cons h with h | h <;> simp_all
    · split at h
      · rcases Memory.mem_cons h with h | h <;> simp_all
      · rcases List.mem_cons.mp h with h | h
        · simp [h]
        · rcases ih h with h | h <;> simp [h]

theorem Memory.cons_wf {a : Nat} {b : Byte} {m : Memory} (ha : a < 2 ^ 64) (hm : m.wf) (h : ∀ d ∈ m, a < d.1) :
    (Memory.cons a b m).wf := by
  unfold Memory.cons
  split
  · exact hm
  · exact Memory.wf_cons.mpr ⟨h, ha, ‹_›, hm⟩

theorem Memory.insert_wf {m : Memory} {a : Nat} (b : Byte) (ha : a < 2 ^ 64) (hm : m.wf) : (m.insert a b).wf := by
  induction m with
  | nil => exact Memory.cons_wf ha hm (by simp)
  | cons c m ih =>
    have ⟨h1, h2, h3, h4⟩ := Memory.wf_cons.mp hm
    unfold Memory.insert
    split
    · refine Memory.cons_wf ha hm fun d hd => ?_
      rcases List.mem_cons.mp hd with rfl | hd
      · assumption
      · have := h1 d hd
        omega
    · split
      · rename_i h5
        exact Memory.cons_wf ha h4 fun d hd => h5 ▸ h1 d hd
      · refine Memory.wf_cons.mpr ⟨fun d hd => ?_, h2, h3, ih h4⟩
        rcases Memory.mem_insert hd with rfl | hd
        · simp only
          omega
        · exact h1 d hd

/-- Writing a byte keeps the canonical form. -/
theorem Memory.write_wf {m : Memory} (hm : m.wf) (a : Nat) (b : Byte) : (m.write a b).wf := by
  unfold Memory.write
  split
  · exact Memory.insert_wf b ‹_› hm
  · exact hm

/-- A list of stores keeps the canonical form. -/
theorem Memory.store_wf {m : Memory} (hm : m.wf) (ws : List (Nat × Byte)) : (m.store ws).wf := by
  induction ws generalizing m with
  | nil => exact hm
  | cons w ws ih => exact ih (Memory.write_wf hm _ _)

theorem Memory.read_cons_op {a : Nat} {b : Byte} {m : Memory} (h : ∀ d ∈ m, a < d.1) (x : Nat) :
    (Memory.cons a b m).read x = if x = a then b else m.read x := by
  unfold Memory.cons
  split
  · split
    · rename_i hb hx
      rw [hx, hb, Memory.read_of_lt m a h]
    · rfl
  · simp only [Memory.read_cons_entry, eq_comm]

theorem Memory.read_insert {m : Memory} (hm : m.wf) (a : Nat) (b : Byte) (x : Nat) :
    (m.insert a b).read x = if x = a then b else m.read x := by
  induction m with
  | nil => exact Memory.read_cons_op (by simp) x
  | cons c m ih =>
    have ⟨h1, h2, h3, h4⟩ := Memory.wf_cons.mp hm
    unfold Memory.insert
    split
    · refine Memory.read_cons_op (fun d hd => ?_) x
      rcases List.mem_cons.mp hd with rfl | hd
      · assumption
      · have := h1 d hd
        omega
    · split
      · rename_i h5 h6
        rw [Memory.read_cons_op (fun d hd => h6 ▸ h1 d hd), Memory.read_cons_entry]
        by_cases hx : x = a
        · simp [hx]
        · rw [if_neg hx, if_neg hx, if_neg (by omega)]
      · rw [Memory.read_cons_entry, Memory.read_cons_entry, ih h4]
        by_cases hx : c.1 = x
        · rw [if_pos hx, if_pos hx, if_neg (by omega)]
        · rw [if_neg hx, if_neg hx]

/-- Reading after writing: the written byte at its own existing address, the old byte elsewhere. -/
theorem Memory.read_write {m : Memory} (hm : m.wf) (a : Nat) (b : Byte) (x : Nat) :
    (m.write a b).read x = if x = a ∧ a < 2 ^ 64 then b else m.read x := by
  unfold Memory.write
  split
  · rename_i h
    simp only [Memory.read_insert hm, h, and_true]
  · rename_i h
    rw [if_neg fun hx => h hx.2]

theorem Memory.store_nil (m : Memory) : m.store [] = m := rfl

theorem Memory.store_cons (m : Memory) (w : Nat × Byte) (ws : List (Nat × Byte)) :
    m.store (w :: ws) = (m.write w.1 w.2).store ws := rfl

theorem Memory.store_append (m : Memory) (ws vs : List (Nat × Byte)) : m.store (ws ++ vs) = (m.store ws).store vs :=
  List.foldl_append

/-- A byte that no store of the list addresses keeps its value. -/
theorem Memory.read_store_of_not_mem {m : Memory} (hm : m.wf) {ws : List (Nat × Byte)} {a : Nat}
    (h : ∀ w ∈ ws, w.1 ≠ a) : (m.store ws).read a = m.read a := by
  induction ws generalizing m with
  | nil => rfl
  | cons w ws ih =>
    rw [Memory.store_cons, ih (Memory.write_wf hm _ _) fun v hv => h v (by simp [hv]), Memory.read_write hm,
      if_neg]
    exact fun hx => h w (by simp) hx.1.symm

/-- A byte that one store of the list addresses, and no other store addresses with another value, holds that value. -/
theorem Memory.read_store_of_mem {m : Memory} (hm : m.wf) {ws : List (Nat × Byte)} {a : Nat} {b : Byte} (ha : a < 2 ^ 64)
    (hmem : (a, b) ∈ ws) (huniq : ∀ w ∈ ws, w.1 = a → w.2 = b) : (m.store ws).read a = b := by
  induction ws generalizing m with
  | nil => simp at hmem
  | cons w ws ih =>
    rw [Memory.store_cons]
    by_cases hin : (a, b) ∈ ws
    · exact ih (Memory.write_wf hm _ _) hin fun v hv => huniq v (by simp [hv])
    · have hw : w = (a, b) := by simpa [hin, eq_comm] using hmem
      rw [Memory.read_store_of_not_mem (Memory.write_wf hm _ _), Memory.read_write hm, hw,
        if_pos ⟨rfl, ha⟩]
      · intro v hv hva
        have := huniq v (by simp [hv]) hva
        exact hin (by rw [← hva, ← this]; exact hv)

/-- Membership of an address in a footprint, in its two spellings. -/
theorem mem_addrsOf {rs : List Range} {a : Nat} : a ∈ addrsOf rs ↔ inRanges rs a = true := by
  simp only [addrsOf, inRanges, List.mem_flatMap, List.any_eq_true, Range.addrs, List.mem_map, List.mem_range, Range.has,
    Bool.and_eq_true, decide_eq_true_eq]
  refine exists_congr fun r => and_congr_right fun _ => ⟨?_, ?_⟩
  · rintro ⟨i, hi, rfl⟩
    omega
  · intro h
    exact ⟨a - r.base, by omega, by omega⟩

/-- No byte of a footprint is refused exactly when every byte of it is mapped. -/
theorem refusedAddrs_eq_nil {mapped rs : List Range} :
    refusedAddrs mapped rs = [] ↔ ∀ a, inRanges rs a = true → isMapped mapped a = true := by
  simp only [refusedAddrs, List.filter_eq_nil_iff, mem_addrsOf]
  simp

/-- A mapped address exists. -/
theorem isMapped_lt {mapped : List Range} {a : Nat} (h : isMapped mapped a = true) : a < 2 ^ 64 := by
  simp only [isMapped, Bool.and_eq_true, decide_eq_true_eq] at h
  exact h.1

/-- The free stores of a footprint address only its bytes. -/
theorem freeStores_addr {draw : Nat} {rs : List Range} {w : Nat × Byte} (h : w ∈ freeStores draw rs) :
    inRanges rs w.1 = true := by
  simp only [freeStores, List.mem_map, mem_addrsOf] at h
  obtain ⟨a, h, rfl⟩ := h
  exact h

/-- The four bytes of a stored binary32 pattern. -/
theorem mem_f32Stores {a : Nat} {v : F32} {w : Nat × Byte} :
    w ∈ f32Stores a v ↔ ∃ i < 4, w = (a + i, BitVec.ofNat 8 (v.toNat / 256 ^ i)) := by
  simp only [f32Stores, List.mem_map, List.mem_range, eq_comm]

/-- Four bytes that are a pattern's little-endian bytes read back as the pattern. -/
theorem Memory.f32_eq {m : Memory} {a : Nat} {v : F32}
    (h : ∀ i < 4, m.read (a + i) = BitVec.ofNat 8 (v.toNat / 256 ^ i)) : m.f32 a = v := by
  have hv := v.isLt
  have h0 := h 0 (by omega)
  have h1 := h 1 (by omega)
  have h2 := h 2 (by omega)
  have h3 := h 3 (by omega)
  apply BitVec.eq_of_toNat_eq
  have hr : List.range 4 = [0, 1, 2, 3] := rfl
  simp only [Memory.f32, Memory.bytes, hr, List.map_cons, List.map_nil, leNat, h0, h1, h2, h3, BitVec.toNat_ofNat]
  omega

end Sys2Proof.Machine
end

