-- ==== Sys2Proof/Laws/State.lean ====
section
/-! SUPPORT. One lemma per field per shared update, true by rfl, so that no later proof unfolds a record update. -/

namespace Sys2Proof.Machine

section TakeFault
variable (c : Cause) (s : State)
@[simp] theorem takeFault_others : (takeFault c s).others = s.others := rfl
@[simp] theorem takeFault_mem : (takeFault c s).mem = s.mem := rfl
@[simp] theorem takeFault_mapped : (takeFault c s).mapped = s.mapped := rfl
@[simp] theorem takeFault_turns : (takeFault c s).turns = s.turns := rfl
@[simp] theorem takeFault_hostData : (takeFault c s).hostData = s.hostData := rfl
@[simp] theorem takeFault_fresh : (takeFault c s).fresh = s.fresh := rfl
@[simp] theorem takeFault_baseBlock : (takeFault c s).eng.baseBlock = s.eng.baseBlock := rfl
@[simp] theorem takeFault_irqEn : (takeFault c s).eng.irqEn = s.eng.irqEn := rfl
@[simp] theorem takeFault_busy : (takeFault c s).eng.busy = false := rfl
@[simp] theorem takeFault_done : (takeFault c s).eng.done = s.eng.done := rfl
@[simp] theorem takeFault_err : (takeFault c s).eng.err = true := rfl
@[simp] theorem takeFault_cmd : (takeFault c s).eng.cmd = s.eng.cmd := rfl
@[simp] theorem takeFault_result : (takeFault c s).eng.result = s.eng.result := rfl
@[simp] theorem takeFault_errCode : (takeFault c s).eng.errCode = faultNumber c.code := rfl
@[simp] theorem takeFault_errInfo : (takeFault c s).eng.errInfo = c.info := rfl
@[simp] theorem takeFault_seq : (takeFault c s).eng.seq = s.eng.seq := rfl
@[simp] theorem takeFault_latch : (takeFault c s).eng.latch = s.eng.latch := rfl
@[simp] theorem takeFault_disturbed : (takeFault c s).eng.disturbed = s.eng.disturbed := rfl
end TakeFault

section Complete
variable (r : Option Word) (s : State)
@[simp] theorem complete_others : (complete r s).others = s.others := rfl
@[simp] theorem complete_mem : (complete r s).mem = s.mem := rfl
@[simp] theorem complete_mapped : (complete r s).mapped = s.mapped := rfl
@[simp] theorem complete_turns : (complete r s).turns = s.turns := rfl
@[simp] theorem complete_hostData : (complete r s).hostData = s.hostData := rfl
@[simp] theorem complete_fresh : (complete r s).fresh = s.fresh := rfl
@[simp] theorem complete_baseBlock : (complete r s).eng.baseBlock = s.eng.baseBlock := rfl
@[simp] theorem complete_irqEn : (complete r s).eng.irqEn = s.eng.irqEn := rfl
@[simp] theorem complete_busy : (complete r s).eng.busy = false := rfl
@[simp] theorem complete_done : (complete r s).eng.done = true := rfl
@[simp] theorem complete_err : (complete r s).eng.err = s.eng.err := rfl
@[simp] theorem complete_cmd : (complete r s).eng.cmd = s.eng.cmd := rfl
@[simp] theorem complete_result : (complete r s).eng.result = r.getD s.eng.result := rfl
@[simp] theorem complete_errCode : (complete r s).eng.errCode = s.eng.errCode := rfl
@[simp] theorem complete_errInfo : (complete r s).eng.errInfo = s.eng.errInfo := rfl
@[simp] theorem complete_seq : (complete r s).eng.seq = s.eng.seq + 1 := rfl
@[simp] theorem complete_latch : (complete r s).eng.latch = s.eng.latch := rfl
@[simp] theorem complete_disturbed : (complete r s).eng.disturbed = s.eng.disturbed := rfl
end Complete

section Scramble
variable (i : Instr) (s : State)
@[simp] theorem scramble_eng : (scramble i s).eng = s.eng := rfl
@[simp] theorem scramble_others : (scramble i s).others = s.others := rfl
@[simp] theorem scramble_mem : (scramble i s).mem = s.mem.store (freeStores s.fresh (writeFootprint i)) := rfl
@[simp] theorem scramble_mapped : (scramble i s).mapped = s.mapped := rfl
@[simp] theorem scramble_turns : (scramble i s).turns = s.turns := rfl
@[simp] theorem scramble_hostData : (scramble i s).hostData = s.hostData := rfl
@[simp] theorem scramble_fresh : (scramble i s).fresh = s.fresh + 1 := rfl
end Scramble

section DisturbOthers
variable (i : Instr) (s : State)
@[simp] theorem disturbOthers_eng : (disturbOthers i s).eng = s.eng := rfl
@[simp] theorem disturbOthers_mem : (disturbOthers i s).mem = s.mem := rfl
@[simp] theorem disturbOthers_mapped : (disturbOthers i s).mapped = s.mapped := rfl
@[simp] theorem disturbOthers_turns : (disturbOthers i s).turns = s.turns := rfl
@[simp] theorem disturbOthers_hostData : (disturbOthers i s).hostData = s.hostData := rfl
@[simp] theorem disturbOthers_fresh : (disturbOthers i s).fresh = s.fresh := rfl
@[simp] theorem disturbOthers_others :
    (disturbOthers i s).others =
      s.others.map fun e => if clashesWith s.mapped i e then { e with disturbed := true } else e := rfl
end DisturbOthers

section ResetRegisters
variable (s : State)
@[simp] theorem resetRegisters_eng : (resetRegisters s).eng = Engine.afterReset s.eng.baseBlock s.eng.latch := rfl
@[simp] theorem resetRegisters_others : (resetRegisters s).others = s.others := rfl
@[simp] theorem resetRegisters_mem : (resetRegisters s).mem = s.mem := rfl
@[simp] theorem resetRegisters_mapped : (resetRegisters s).mapped = s.mapped := rfl
@[simp] theorem resetRegisters_turns : (resetRegisters s).turns = s.turns := rfl
@[simp] theorem resetRegisters_hostData : (resetRegisters s).hostData = s.hostData := rfl
@[simp] theorem resetRegisters_fresh : (resetRegisters s).fresh = s.fresh := rfl
end ResetRegisters

section AfterReset
variable (b : BitVec 58) (d : Descriptor)
@[simp] theorem afterReset_baseBlock : (Engine.afterReset b d).baseBlock = b := rfl
@[simp] theorem afterReset_irqEn : (Engine.afterReset b d).irqEn = false := rfl
@[simp] theorem afterReset_busy : (Engine.afterReset b d).busy = false := rfl
@[simp] theorem afterReset_done : (Engine.afterReset b d).done = false := rfl
@[simp] theorem afterReset_err : (Engine.afterReset b d).err = false := rfl
@[simp] theorem afterReset_cmd : (Engine.afterReset b d).cmd = 0 := rfl
@[simp] theorem afterReset_result : (Engine.afterReset b d).result = 0 := rfl
@[simp] theorem afterReset_errCode : (Engine.afterReset b d).errCode = 0 := rfl
@[simp] theorem afterReset_errInfo : (Engine.afterReset b d).errInfo = 0 := rfl
@[simp] theorem afterReset_seq : (Engine.afterReset b d).seq = 0 := rfl
@[simp] theorem afterReset_latch : (Engine.afterReset b d).latch = d := rfl
@[simp] theorem afterReset_disturbed : (Engine.afterReset b d).disturbed = false := rfl
end AfterReset

section ClearStatus
variable (w : Word) (e : Engine)
@[simp] theorem clearStatus_baseBlock : (clearStatus w e).baseBlock = e.baseBlock := rfl
@[simp] theorem clearStatus_irqEn : (clearStatus w e).irqEn = e.irqEn := rfl
@[simp] theorem clearStatus_busy : (clearStatus w e).busy = e.busy := rfl
@[simp] theorem clearStatus_done : (clearStatus w e).done = if w.getLsbD 1 then false else e.done := rfl
@[simp] theorem clearStatus_err : (clearStatus w e).err = if w.getLsbD 2 && e.err then false else e.err := rfl
@[simp] theorem clearStatus_cmd : (clearStatus w e).cmd = e.cmd := rfl
@[simp] theorem clearStatus_result : (clearStatus w e).result = e.result := rfl
@[simp] theorem clearStatus_errCode :
    (clearStatus w e).errCode = if w.getLsbD 2 && e.err then 0 else e.errCode := rfl
@[simp] theorem clearStatus_errInfo :
    (clearStatus w e).errInfo = if w.getLsbD 2 && e.err then 0 else e.errInfo := rfl
@[simp] theorem clearStatus_seq : (clearStatus w e).seq = e.seq := rfl
@[simp] theorem clearStatus_latch : (clearStatus w e).latch = e.latch := rfl
@[simp] theorem clearStatus_disturbed : (clearStatus w e).disturbed = e.disturbed := rfl
end ClearStatus

section MemReadTurn
variable (a : Word) (s : State)
@[simp] theorem memReadTurn_eng : (memReadTurn a s).eng = s.eng := rfl
@[simp] theorem memReadTurn_others : (memReadTurn a s).others = s.others := rfl
@[simp] theorem memReadTurn_mem : (memReadTurn a s).mem = s.mem := rfl
@[simp] theorem memReadTurn_mapped : (memReadTurn a s).mapped = s.mapped := rfl
@[simp] theorem memReadTurn_turns : (memReadTurn a s).turns = s.turns := rfl
@[simp] theorem memReadTurn_hostData : (memReadTurn a s).hostData = (observe s a.toNat).setWidth 64 := rfl
@[simp] theorem memReadTurn_fresh : (memReadTurn a s).fresh = s.fresh + 1 := rfl
end MemReadTurn

section MemWriteTurn
variable (a : Word) (b : Byte) (s : State)
@[simp] theorem memWriteTurn_eng : (memWriteTurn a b s).eng = disturbAt s.mapped a.toNat s.eng := rfl
@[simp] theorem memWriteTurn_others :
    (memWriteTurn a b s).others = s.others.map (disturbAt s.mapped a.toNat) := rfl
@[simp] theorem memWriteTurn_mem : (memWriteTurn a b s).mem = s.mem.write a.toNat b := rfl
@[simp] theorem memWriteTurn_mapped : (memWriteTurn a b s).mapped = s.mapped := rfl
@[simp] theorem memWriteTurn_turns : (memWriteTurn a b s).turns = s.turns := rfl
@[simp] theorem memWriteTurn_hostData : (memWriteTurn a b s).hostData = s.hostData := rfl
@[simp] theorem memWriteTurn_fresh : (memWriteTurn a b s).fresh = s.fresh := rfl
end MemWriteTurn

end Sys2Proof.Machine
end

