-- ==== Sys2Proof/Laws/Ops.lean ====
section
/-! SUPPORT. For each shared operation, once, everything it can do. -/

namespace Sys2Proof.Machine

/-- What running a query can do: raise the first failing check's fault, or complete with its value. -/
theorem runQuery_cases (i : Instr) (r : Nat) (s : State) :
    (∃ c, checkInstr i = some c ∧ runQuery i r s = .next (takeFault c s)) ∨
      (checkInstr i = none ∧ runQuery i r s = .next (complete (some (BitVec.ofNat 64 r)) s)) := by
  unfold runQuery
  cases checkInstr i <;> simp

/-- What running a storing command can do: a failing check's fault; a data bus fault; completion with free values in the write
footprint; completion with its stores. -/
theorem runStores_cases (i : Instr) (stores : Memory → List (Nat × Byte)) (s : State) :
    (∃ c, checkInstr i = some c ∧ runStores i stores s = .next (takeFault c s)) ∨
    (checkInstr i = none ∧ refusedOf i s ≠ [] ∧
      runStores i stores s = .next (dataBusFault i (refusedOf i s) s)) ∨
    (checkInstr i = none ∧ refusedOf i s = [] ∧ hazard i s = true ∧
      runStores i stores s = .next (complete none (scramble i (disturbOthers i s)))) ∨
    (checkInstr i = none ∧ refusedOf i s = [] ∧ hazard i s = false ∧
      runStores i stores s = .next (complete none { s with mem := s.mem.store (stores s.mem) })) := by
  unfold runStores
  cases checkInstr i with
  | some c => simp
  | none =>
    by_cases hr : refusedOf i s = [] <;> cases hh : hazard i s <;> simp [hr]

/-- A storing command that passes its checks, is refused no byte and breaks no software obligation completes with its stores. -/
theorem runStores_completes {i : Instr} {s : State} (stores : Memory → List (Nat × Byte)) (hc : checkInstr i = none)
    (hr : refusedOf i s = []) (hh : hazard i s = false) :
    runStores i stores s = .next (complete none { s with mem := s.mem.store (stores s.mem) }) := by
  unfold runStores
  simp [hc, hr, hh]

/-- What a doorbell can do: nothing while BUSY or ERR, else acceptance. -/
theorem ringDoorbell_dropped {a : Word} {s : State} (h : s.eng.busy = true ∨ s.eng.err = true) : ringDoorbell a s = s := by
  unfold ringDoorbell
  rcases h with h | h <;> simp [h]

theorem ringDoorbell_accepted {a : Word} {s : State} (hb : s.eng.busy = false) (he : s.eng.err = false) :
    ringDoorbell a s =
      { s with
        eng := { s.eng with
          cmd := a
          done := false
          busy := true
          disturbed := false
          latch := if fetchCause s.mapped a = none then fetchDescriptor s a else s.eng.latch }
        fresh := s.fresh + 1 } := by
  unfold ringDoorbell
  simp [hb, he]

/-- ENGINE_BASE is 64 times the block number that is stored (10_state R22). -/
theorem Engine.toNat_base (e : Engine) : e.base.toNat = 64 * e.baseBlock.toNat := by
  unfold Engine.base
  rw [BitVec.toNat_append]
  simp [Nat.shiftLeft_eq, Nat.mul_comm]

/-- What a hard reset can do. -/
theorem hardReset_cases (s : State) :
    (runningJob s.mapped s.eng = none ∧ hardReset s = resetRegisters s) ∨
      ∃ i, runningJob s.mapped s.eng = some i ∧ hardReset s = resetRegisters (scramble i (disturbOthers i s)) := by
  unfold hardReset
  cases runningJob s.mapped s.eng <;> simp

/-- Scrambling keeps the canonical form of memory. -/
theorem scramble_wf (i : Instr) {s : State} (h : s.mem.wf) : (scramble i s).mem.wf := Memory.store_wf h _

/-- Scrambling leaves every byte outside the write footprint as it was. -/
theorem scramble_read {i : Instr} {s : State} (h : s.mem.wf) {a : Nat} (ha : inRanges (writeFootprint i) a = false) :
    (scramble i s).mem.read a = s.mem.read a :=
  Memory.read_store_of_not_mem h fun _ hw hwa => by simp [hwa ▸ freeStores_addr hw] at ha

/-- An engine runs a command exactly when it is busy, its fetch raises no fault and the latched descriptor decodes to the command. -/
theorem runningJob_eq_some {mapped : List Range} {e : Engine} {i : Instr} :
    runningJob mapped e = some i ↔ e.busy = true ∧ fetchCause mapped e.cmd = none ∧ decode e.latch = .ok i := by
  unfold runningJob
  cases decode e.latch <;> simp [Except.toOption, and_assoc]

/-- What the engine's turn can do: nothing when idle; the fetch's fault; the decoder's fault; the command. -/
theorem engineTurn_cases (s : State) :
    (s.eng.busy = false ∧ engineTurn s = .next s) ∨
    (∃ c, s.eng.busy = true ∧ fetchCause s.mapped s.eng.cmd = some c ∧ engineTurn s = .next (takeFault c s)) ∨
    (∃ d, s.eng.busy = true ∧ fetchCause s.mapped s.eng.cmd = none ∧ decode s.eng.latch = .error d ∧
      engineTurn s = .next (takeFault (decodeCause d) s)) ∨
    (∃ i, s.eng.busy = true ∧ fetchCause s.mapped s.eng.cmd = none ∧ decode s.eng.latch = .ok i ∧
      engineTurn s = exec i s) := by
  unfold engineTurn
  cases hb : s.eng.busy with
  | false => simp
  | true =>
    cases hf : fetchCause s.mapped s.eng.cmd with
    | some c => simp
    | none => cases hd : decode s.eng.latch <;> simp

/-- The value a query returns, none for a storing command. -/
def queryValue : Instr → Option Nat
  | .packsz b n k => some (packedSize b.toNat n.toNat k.toNat)
  | .wssz mode b m k => some (workspaceSize mode b.toNat m.toNat k.toNat)
  | .wsalign mode => some (workspaceAlign mode)
  | .pack .. | .gemmf .. | .deq .. | .gemmi .. | .qrow .. => none

/-- The stores a storing command makes of the memory it finds, none for a query. -/
def storesOf : Instr → Memory → List (Nat × Byte)
  | .packsz .., _ | .wssz .., _ | .wsalign _, _ => []
  | .pack mode b n k pa pb, mem => packStores mem mode b.toNat n.toNat k.toNat pa.toNat pb.toNat
  | .gemmf b m n k lda ldc pa pb ps pz bias pc, mem =>
    gemmfStores mem (weightsOf b n k pb ps pz) bias m.toNat pa.toNat lda.toNat ldc.toNat pc.toNat
  | .deq b n k ldc pb ps pz pc, mem => deqStores mem (weightsOf b n k pb ps pz) ldc.toNat pc.toNat
  | .gemmi b m n k ldc pa pb ps pz bias pc, mem =>
    gemmiStores mem (weightsOf b n k pb ps pz) bias m.toNat pa.toNat ldc.toNat pc.toNat
  | .qrow b k pa pc, mem => qrowStores mem b.toNat k.toNat pa.toNat pc.toNat

/-- Every command is a query over its value or a storing command over its stores. -/
theorem exec_eq (i : Instr) (s : State) :
    exec i s = match queryValue i with
      | some r => runQuery i r s
      | none => runStores i (storesOf i) s := by
  cases i <;> rfl

/-- What a command can do: a failing check's fault; a query's completion; a data bus fault; completion with free values in the write
footprint; completion with its stores. -/
theorem exec_cases (i : Instr) (s : State) :
    (∃ c, checkInstr i = some c ∧ exec i s = .next (takeFault c s)) ∨
    (∃ r, checkInstr i = none ∧ queryValue i = some r ∧
      exec i s = .next (complete (some (BitVec.ofNat 64 r)) s)) ∨
    (checkInstr i = none ∧ queryValue i = none ∧ refusedOf i s ≠ [] ∧
      exec i s = .next (dataBusFault i (refusedOf i s) s)) ∨
    (checkInstr i = none ∧ queryValue i = none ∧ refusedOf i s = [] ∧ hazard i s = true ∧
      exec i s = .next (complete none (scramble i (disturbOthers i s)))) ∨
    (checkInstr i = none ∧ queryValue i = none ∧ refusedOf i s = [] ∧ hazard i s = false ∧
      exec i s = .next (complete none { s with mem := s.mem.store (storesOf i s.mem) })) := by
  rw [exec_eq]
  cases hq : queryValue i with
  | some r => rcases runQuery_cases i r s with ⟨c, h, e⟩ | ⟨h, e⟩ <;> simp [h, e]
  | none =>
    rcases runStores_cases i (storesOf i) s with ⟨c, h, e⟩ | ⟨h, hr, e⟩ | ⟨h, hr, hh, e⟩ | ⟨h, hr, hh, e⟩
    · exact .inl ⟨c, h, e⟩
    · exact .inr (.inr (.inl ⟨h, rfl, hr, e⟩))
    · exact .inr (.inr (.inr (.inl ⟨h, rfl, hr, hh, e⟩)))
    · exact .inr (.inr (.inr (.inr ⟨h, rfl, hr, hh, e⟩)))

/-- A step takes the next turn, with that turn gone from the pending ones. -/
theorem step_eq (s : State) : step s = takeTurn (nextTurn s) { s with turns := s.turns.tail } := rfl

/-- A step with a pending turn takes it. -/
theorem step_cons {s : State} {t : Turn} {ts : List Turn} (h : s.turns = t :: ts) :
    step s = takeTurn t { s with turns := ts } := by
  simp only [step_eq, nextTurn, h, List.tail_cons]

/-- With no pending turn a step is the selected engine's while it is busy. -/
theorem step_nil {s : State} (h : s.turns = []) (hb : s.eng.busy = true) : step s = engineTurn s := by
  have hs : ({ s with turns := [] } : State) = s := by
    rw [← h]
  simp only [step_eq, nextTurn, h, hb, takeTurn, List.tail_nil, hs, if_true]

/-- With no pending turn and the selected engine not busy, a step selects the first other busy engine, and changes nothing when
every engine is idle. -/
theorem step_nil_idle {s : State} (h : s.turns = []) (hb : s.eng.busy = false) :
    (s.others.findIdx? Engine.busy = none ∧ step s = .next s) ∨
      ∃ k e, s.others[k]? = some e ∧ e.busy = true ∧ step s = .next { s with eng := e, others := s.others.set k s.eng } := by
  have hs : ({ s with turns := [] } : State) = s := by
    rw [← h]
  cases hf : s.others.findIdx? Engine.busy with
  | none =>
    refine .inl ⟨rfl, ?_⟩
    simp only [step_eq, nextTurn, h, hb, hf, takeTurn, engineTurn, List.tail_nil, hs, Bool.false_eq_true, if_false]
  | some k =>
    obtain ⟨hk, he, -⟩ := List.findIdx?_eq_some_iff_getElem.mp hf
    refine .inr ⟨k, s.others[k], List.getElem?_eq_getElem hk, he, ?_⟩
    simp only [step_eq, nextTurn, h, hb, hf, takeTurn, selectTurn, List.tail_nil, List.getElem?_eq_getElem hk,
      Bool.false_eq_true, if_false]

end Sys2Proof.Machine
end

