-- ==== Sys2Proof/Laws/PerInstr.lean ====
section
/-! SUPPORT. The per-instruction family EncodeShape: every encoding is 72 bytes, starts with the command's opcode and has no reserved
flag set (spec/30_encoding.md R70, R71, R76). -/

namespace Sys2Proof.Laws

/-- The shape of a command's encoding (30_encoding R70, R71, R76). -/
def EncodeShape.Statement (i : Instr) : Prop :=
  (encode i).length = 72 ∧ (encode i).head? = some i.opcode ∧ i.descriptor.flags.toNat < 8

theorem EncodeShape.head (d : Descriptor) : d.toBytes.head? = some d.opcode := by
  simp [Descriptor.toBytes, leBytes]

theorem EncodeShape.flags (z bias : Option Word) : (zpFlag z ||| biasFlag bias).toNat < 8 ∧ (zpFlag z).toNat < 8 := by
  cases z <;> cases bias <;> simp [zpFlag, biasFlag]

theorem EncodeShape.mode (m : Mode) : m.flag.toNat < 8 := by
  cases m <;> decide

theorem EncodeShape.intro {i : Instr} (ho : i.descriptor.opcode = i.opcode) (hf : i.descriptor.flags.toNat < 8) :
    EncodeShape.Statement i :=
  ⟨Descriptor.toBytes_length _, by rw [encode, head, ho], hf⟩

theorem EncodeShape.packsz (b : BitVec 16) (n k : BitVec 32) : EncodeShape.Statement (.packsz b n k) :=
  intro rfl (by simp [Instr.descriptor, Descriptor.zero])

theorem EncodeShape.pack (m : Mode) (b : BitVec 16) (n k : BitVec 32) (pa pb : Word) :
    EncodeShape.Statement (.pack m b n k pa pb) :=
  intro rfl (mode m)

theorem EncodeShape.wssz (mo : Mode) (b : BitVec 16) (m k : BitVec 32) : EncodeShape.Statement (.wssz mo b m k) :=
  intro rfl (mode mo)

theorem EncodeShape.wsalign (m : Mode) : EncodeShape.Statement (.wsalign m) := intro rfl (mode m)

theorem EncodeShape.gemmf (b : BitVec 16) (m n k lda ldc : BitVec 32) (pa pb ps : Word) (pz bias : Option Word)
    (pc : Word) : EncodeShape.Statement (.gemmf b m n k lda ldc pa pb ps pz bias pc) :=
  intro rfl (flags pz bias).1

theorem EncodeShape.deq (b : BitVec 16) (n k ldc : BitVec 32) (pb ps : Word) (pz : Option Word) (pc : Word) :
    EncodeShape.Statement (.deq b n k ldc pb ps pz pc) :=
  intro rfl (flags pz none).2

theorem EncodeShape.gemmi (b : BitVec 16) (m n k ldc : BitVec 32) (pa pb ps : Word) (pz bias : Option Word)
    (pc : Word) : EncodeShape.Statement (.gemmi b m n k ldc pa pb ps pz bias pc) :=
  intro rfl (flags pz bias).1

theorem EncodeShape.qrow (b : BitVec 16) (k : BitVec 32) (pa pc : Word) : EncodeShape.Statement (.qrow b k pa pc) :=
  intro rfl (by simp [Instr.descriptor, Descriptor.zero])

end Sys2Proof.Laws
end

