-- ==== Sys2Proof/Laws/Stores.lean ====
section
/-! SUPPORT. Where the commands store: every store lies in the write footprint (spec/20_memory.md R64), and what a matrix of
binary32 elements reads back as. -/

namespace Sys2Proof.Machine

theorem blkLenOk_of_check {b : BitVec 16} (h : checkBlkLen b = none) : 16 ≤ b.toNat ∧ b.toNat % 16 = 0 := by
  unfold checkBlkLen at h
  split at h
  · simp at h
  · omega

theorem firstCause_none {cs : List (Option Cause)} : firstCause cs = none ↔ ∀ c ∈ cs, c = none := by
  induction cs with
  | nil => simp [firstCause]
  | cons c cs ih => cases c <;> simp [firstCause, ih]

theorem checkStride_none {ldc : BitVec 32} {width : Nat} : checkStride ldc width = none ↔ width ≤ ldc.toNat := by
  unfold checkStride
  split <;> simp <;> omega

/-- One range as a footprint. -/
theorem inRanges_single {b n a : Nat} : inRanges [⟨b, n⟩] a = true ↔ b ≤ a ∧ a < b + n := by
  simp [inRanges, Range.has]

/-- The bytes of element `(row, col)` lie in the rows of its matrix. -/
theorem inRanges_rowRanges {ptr stride rows width row col j : Nat} (hr : row < rows) (hc : col < width) (hj : j < 4) :
    inRanges (rowRanges ptr stride rows width) (ptr + 4 * (row * stride + col) + j) = true := by
  simp only [inRanges, rowRanges, List.any_map, List.any_eq_true, List.mem_range, Function.comp, Range.has, Bool.and_eq_true,
    decide_eq_true_eq]
  exact ⟨row, hr, by omega, by omega⟩

/-- The sub-block length is positive, even, and divides a legal block length (00_scope R14). -/
theorem subBlkLen_facts (mode : Mode) {b : Nat} (h : b % 16 = 0) :
    0 < subBlkLen mode b ∧ subBlkLen mode b = 2 * (subBlkLen mode b / 2) ∧
      b / subBlkLen mode b * (subBlkLen mode b / 2) = b / 2 ∧ b / subBlkLen mode b * subBlkLen mode b = b := by
  cases mode with
  | float =>
    simp only [subBlkLen]
    exact ⟨by decide, by decide, by omega, by omega⟩
  | int8 =>
    simp only [subBlkLen]
    split
    · exact ⟨by decide, by decide, by omega, by omega⟩
    · exact ⟨by decide, by decide, by omega, by omega⟩

theorem row_block_lt {x n y k : Nat} (hx : x < n) (hy : y < k) : x * k + y < n * k := by
  calc x * k + y < x * k + k := by omega
    _ = (x + 1) * k := by ring
    _ ≤ n * k := Nat.mul_le_mul_right k hx

/-- A packed block stores only its own `BlkLen / 2` bytes (20_memory R51). -/
theorem packBlock_addr {m : Memory} {mode : Mode} {b src dst : Nat} (h : b % 16 = 0) {w : Nat × Byte}
    (hw : w ∈ packBlock m mode b src dst) : dst ≤ w.1 ∧ w.1 < dst + b / 2 := by
  simp only [packBlock, List.mem_flatMap, List.mem_map, List.mem_range] at hw
  obtain ⟨sb, hsb, j, hj, rfl⟩ := hw
  obtain ⟨-, -, h3, -⟩ := subBlkLen_facts mode h
  have := row_block_lt hsb hj
  simp only
  omega

theorem half_blocks {n b : Nat} (h : b % 16 = 0) : n * b / 2 = n * (b / 2) := by
  obtain ⟨c, rfl⟩ : ∃ c, b = 2 * c := ⟨b / 2, by omega⟩
  rw [show n * (2 * c) = n * c * 2 by ring, Nat.mul_div_cancel _ (by decide), Nat.mul_div_cancel_left _ (by decide)]

/-- PACK stores only in its write footprint (20_memory R58). -/
theorem packStores_addr {m : Memory} {mode : Mode} {b n k pa pb : Nat} (h : b % 16 = 0) {w : Nat × Byte}
    (hw : w ∈ packStores m mode b n k pa pb) : pb ≤ w.1 ∧ w.1 < pb + n * blockCount k b * b / 2 := by
  simp only [packStores, List.mem_flatMap, List.mem_range] at hw
  obtain ⟨blk, hblk, hw⟩ := hw
  obtain ⟨h1, h2⟩ := packBlock_addr h hw
  have h3 := row_block_lt (y := w.1 - (pb + blk * (b / 2))) (k := b / 2) hblk (by omega)
  rw [half_blocks h]
  omega

theorem q8Stores_addr {dst b : Nat} {xs : List F32} (hx : xs.length ≤ b) {w : Nat × Byte} (hw : w ∈ q8Stores dst b xs) :
    dst ≤ w.1 ∧ w.1 < dst + q8Size b := by
  simp only [q8Stores, List.mem_append, mem_f32Stores, List.mem_map] at hw
  rcases hw with ⟨i, hi, rfl⟩ | ⟨c, hc, rfl⟩
  · simp only [q8Size]
    omega
  · have := List.snd_lt_of_mem_zipIdx hc
    simp only [blockCodes, List.length_append, List.length_map, List.length_replicate] at this
    simp only [q8Size]
    omega

theorem rowBlock_length (m : Memory) (b k pa kb : Nat) : (rowBlock m b k pa kb).length = min b (k - kb * b) := by
  simp [rowBlock]

/-- QROW stores only in its write footprint (20_memory R59). -/
theorem qrowStores_addr {m : Memory} {b k pa pc : Nat} {w : Nat × Byte} (hw : w ∈ qrowStores m b k pa pc) :
    pc ≤ w.1 ∧ w.1 < pc + blockCount k b * q8Size b := by
  simp only [qrowStores, List.mem_flatMap, List.mem_range] at hw
  obtain ⟨kb, hkb, hw⟩ := hw
  obtain ⟨h1, h2⟩ := q8Stores_addr (by rw [rowBlock_length]; omega) hw
  have h3 := row_block_lt (y := w.1 - (pc + kb * q8Size b)) (k := q8Size b) hkb (by omega)
  omega

theorem le_roundUp16 (n : Nat) : n ≤ roundUp16 n := by
  unfold roundUp16 ceilDiv
  omega

/-- A query makes no store; a storing command that passes its checks stores only in its write footprint (20_memory R64). -/
theorem storesOf_addr {i : Instr} (hc : checkInstr i = none) {m : Memory} {w : Nat × Byte} (hw : w ∈ storesOf i m) :
    inRanges (writeFootprint i) w.1 = true := by
  cases i with
  | packsz | wssz | wsalign => simp [storesOf] at hw
  | pack mode b n k pa pb =>
    have h16 := blkLenOk_of_check ((firstCause_none.mp hc) (checkBlkLen b) (by simp))
    exact inRanges_single.mpr (packStores_addr h16.2 hw)
  | gemmf b m' n k lda ldc pa pb ps pz bias pc =>
    simp only [storesOf, gemmfStores, List.mem_flatMap, List.mem_range, mem_f32Stores] at hw
    obtain ⟨row, hr, col, hcol, j, hj, rfl⟩ := hw
    exact inRanges_rowRanges hr hcol hj
  | deq b n k ldc pb ps pz pc =>
    simp only [storesOf, deqStores, deqZeroFill, List.mem_append, List.mem_flatMap, List.mem_range, mem_f32Stores] at hw
    rcases hw with ⟨row, hr, col, hcol, j, hj, rfl⟩ | ⟨col, hcol, row, hr, j, hj, rfl⟩
    · exact inRanges_rowRanges hr hcol hj
    · exact inRanges_rowRanges (Nat.lt_of_lt_of_le hr (le_roundUp16 _)) (Nat.lt_of_lt_of_le hcol (le_roundUp16 _)) hj
  | gemmi b m' n k ldc pa pb ps pz bias pc =>
    simp only [storesOf, gemmiStores, List.mem_flatMap, List.mem_range, mem_f32Stores] at hw
    obtain ⟨row, hr, col, hcol, j, hj, rfl⟩ := hw
    exact inRanges_rowRanges hr hcol hj
  | qrow b k pa pc => exact inRanges_single.mpr (qrowStores_addr hw)

/-- Elements of a matrix whose rows are at least as far apart as they are wide share no byte. -/
theorem outAddr_inj {ptr stride width row col j row' col' j' : Nat} (hs : width ≤ stride) (hc : col < width)
    (hc' : col' < width) (hj : j < 4) (hj' : j' < 4)
    (h : outAddr ptr stride row col + j = outAddr ptr stride row' col' + j') : row = row' ∧ col = col' ∧ j = j' := by
  simp only [outAddr] at h
  have h1 : row * stride + col = row' * stride + col' := by omega
  have h2 : row = row' := by
    have e := congrArg (· / stride) h1
    simp only [Nat.add_comm (_ * _), Nat.add_mul_div_right _ _ (show 0 < stride by omega),
      Nat.div_eq_of_lt (show col < stride by omega), Nat.div_eq_of_lt (show col' < stride by omega)] at e
    omega
  subst h2
  omega

/-- A byte of a footprint that is refused no byte exists (20_memory R46). -/
theorem lt_of_refused_nil {mapped rs : List Range} (h : refusedAddrs mapped rs = []) {a : Nat}
    (ha : inRanges rs a = true) : a < 2 ^ 64 ∧ isMapped mapped a = true := by
  have hm : isMapped mapped a = true := by
    by_contra hn
    have : a ∈ refusedAddrs mapped rs := by
      simp only [refusedAddrs, List.mem_filter, mem_addrsOf]
      exact ⟨ha, by simpa using hn⟩
    rw [h] at this
    simp at this
  refine ⟨?_, hm⟩
  simp only [isMapped, Bool.and_eq_true, decide_eq_true_eq] at hm
  exact hm.1

theorem inRanges_append {rs qs : List Range} {a : Nat} :
    inRanges (rs ++ qs) a = (inRanges rs a || inRanges qs a) := by
  simp [inRanges]

/-- What a list of stores leaves at an element: the pattern stored there, when every store to its bytes is of that pattern. -/
theorem Memory.f32_store {m : Memory} (hm : m.wf) {ws : List (Nat × Byte)} {a : Nat} {v : F32} (ha : a + 4 ≤ 2 ^ 64)
    (hmem : ∀ j < 4, (a + j, BitVec.ofNat 8 (v.toNat / 256 ^ j)) ∈ ws)
    (huniq : ∀ j < 4, ∀ w ∈ ws, w.1 = a + j → w.2 = BitVec.ofNat 8 (v.toNat / 256 ^ j)) : (m.store ws).f32 a = v :=
  Memory.f32_eq fun j hj => Memory.read_store_of_mem hm (by omega) (hmem j hj) (huniq j hj)

end Sys2Proof.Machine
end

