-- ==== Sys2Proof/Laws/Reads.lean ====
section
/-! SUPPORT. Which bytes the operands of the kernels are read from: they lie in the weights' read footprint (spec/20_memory.md R51, R53,
R54, R60 to R62). -/

namespace Sys2Proof.Machine

/-- A float is read from its four bytes. -/
theorem Memory.f32_congr {m m' : Memory} {a : Nat} (h : ∀ j < 4, m.read (a + j) = m'.read (a + j)) : m.f32 a = m'.f32 a := by
  have hr : List.range 4 = [0, 1, 2, 3] := rfl
  simp only [Memory.f32, Memory.bytes, hr, List.map_cons, List.map_nil, h 0 (by omega), h 1 (by omega), h 2 (by omega),
    h 3 (by omega)]

/-- An address in one range of a footprint is in the footprint. -/
theorem inRanges_of_mem {rs : List Range} {r : Range} {a : Nat} (hr : r ∈ rs) (h : r.base ≤ a ∧ a < r.base + r.len) :
    inRanges rs a = true := by
  simp only [inRanges, List.any_eq_true]
  exact ⟨r, hr, by simp [Range.has, h]⟩

section Weights
variable {w : Weights} {m m' : Memory} (h : ∀ a, inRanges w.reads a = true → m.read a = m'.read a) {col kb : Nat}
  (hc : col < w.n) (hk : kb < w.bck)
include h hc hk

/-- A weight's nibble, in either mode, is read from the packed array of the footprint. -/
theorem Weights.nib_congr (hb : w.blkLen % 16 = 0) (mode : Mode) {i : Nat} (hi : i < w.blkLen) :
    w.nib m mode col kb i = w.nib m' mode col kb i := by
  have ⟨h0, h1, h2, h3⟩ := subBlkLen_facts mode hb
  have hs : i / subBlkLen mode w.blkLen < w.blkLen / subBlkLen mode w.blkLen := by
    rw [Nat.div_lt_iff_lt_mul h0, h3]
    exact hi
  have hj := row_block_lt hs
    (Nat.mod_lt (i % subBlkLen mode w.blkLen) (show 0 < subBlkLen mode w.blkLen / 2 by omega))
  rw [h2] at hj
  have hblk := row_block_lt (row_block_lt hc hk) hj
  have e : ∀ a, a = w.ptrB + w.block col kb * (w.blkLen / 2) + i / subBlkLen mode w.blkLen * (subBlkLen mode w.blkLen / 2) +
      i % subBlkLen mode w.blkLen % (subBlkLen mode w.blkLen / 2) → m.read a = m'.read a := fun a ha => by
    refine h a (inRanges_of_mem (r := ⟨w.ptrB, w.n * w.bck * w.blkLen / 2⟩) (by simp [Weights.reads]) ?_)
    simp only [half_blocks hb, ha, Weights.block]
    omega
  simp only [Weights.nib, packedNibble, e _ rfl]

/-- A block's scale is read from the scale array of the footprint. -/
theorem Weights.scale_congr : w.scale m col kb = w.scale m' col kb :=
  Memory.f32_congr fun j hj => by
    have := row_block_lt hc hk
    refine h _ (inRanges_of_mem (r := ⟨w.ptrS, 4 * w.n * w.bck⟩) (by simp [Weights.reads]) ?_)
    simp only [Weights.block, Nat.mul_assoc]
    omega

/-- A block's zero point is read from the zero-point array of the footprint, where there is one. -/
theorem Weights.zp_congr : w.zp m col kb = w.zp m' col kb := by
  unfold Weights.zp
  cases hz : w.ptrZ with
  | none => rfl
  | some z =>
    have h1 : kb / 2 < zpStride w.k w.blkLen := by
      have : kb < blockCount w.k w.blkLen := hk
      unfold zpStride ceilDiv
      omega
    have := row_block_lt hc h1
    have e : m.read (z + col * zpStride w.k w.blkLen + kb / 2) = m'.read (z + col * zpStride w.k w.blkLen + kb / 2) := by
      refine h _ (inRanges_of_mem (r := ⟨z, w.n * zpStride w.k w.blkLen⟩) (by simp [Weights.reads, hz]) ?_)
      simp only
      omega
    simp only [e]

end Weights

/-- The block of a valid element exists. -/
theorem div_lt_blockCount {k b i : Nat} (hb : 0 < b) (h : i < k) : i / b < blockCount k b := by
  unfold blockCount ceilDiv
  rw [Nat.div_lt_iff_lt_mul hb]
  have h1 := Nat.div_add_mod (k + b - 1) b
  have h2 := Nat.mod_lt (k + b - 1) hb
  rw [Nat.mul_comm] at h1
  omega

/-- A matrix of elements stored row by row reads back element by element, where its rows do not overlap and its bytes exist. -/
theorem Memory.f32_store_matrix {m : Memory} (hm : m.wf) {ptr stride width rows : Nat} (f : Nat → Nat → F32)
    (hs : width ≤ stride) (hx : ∀ a, inRanges (rowRanges ptr stride rows width) a = true → a < 2 ^ 64) {row col : Nat}
    (hr : row < rows) (hc : col < width) :
    (m.store ((List.range rows).flatMap fun row => (List.range width).flatMap fun col =>
      f32Stores (outAddr ptr stride row col) (f row col))).f32 (outAddr ptr stride row col) = f row col := by
  apply Memory.f32_store hm
  · have := hx _ (inRanges_rowRanges hr hc (j := 3) (by omega))
    simp only [outAddr]
    omega
  · intro j hj
    simp only [List.mem_flatMap, List.mem_range, mem_f32Stores]
    exact ⟨row, hr, col, hc, j, hj, rfl⟩
  · intro j hj w hw he
    simp only [List.mem_flatMap, List.mem_range, mem_f32Stores] at hw
    obtain ⟨r', hr', c', hc', j', hj', rfl⟩ := hw
    obtain ⟨rfl, rfl, rfl⟩ := outAddr_inj hs hc' hc hj' hj he
    rfl

end Sys2Proof.Machine
end

