-- ==== Sys2Proof/Laws/Turns.lean ====
section
/-! SUPPORT. For each turn, once, what it can do to the engines and to memory. -/

namespace Sys2Proof.Machine

/-- What a command can do to the engine's registers: fault entry, or completion, with a value only for a query. -/
theorem exec_engine {i : Instr} {s t : State} (h : exec i s = .next t) :
    (∃ c, t.eng = (takeFault c s).eng) ∨
      ∃ r, t.eng = (complete r s).eng ∧ (r ≠ none → (queryValue i).isSome = true) := by
  rcases exec_cases i s with ⟨c, -, e⟩ | ⟨r, -, hq, e⟩ | ⟨-, -, -, e⟩ | ⟨-, -, -, -, e⟩ | ⟨-, -, -, -, e⟩ <;>
    rw [e] at h <;> obtain rfl := Host.Outcome.next.inj h
  · exact .inl ⟨c, rfl⟩
  · exact .inr ⟨_, rfl, by simp [hq]⟩
  · exact .inl ⟨_, rfl⟩
  · exact .inr ⟨none, rfl, by simp⟩
  · exact .inr ⟨none, rfl, by simp⟩

/-- What the engine's turn can do to the engine's registers: nothing when idle, fault entry, or completion. -/
theorem engineTurn_engine {s t : State} (h : engineTurn s = .next t) :
    (s.eng.busy = false ∧ t = s) ∨
      (s.eng.busy = true ∧
        ((∃ c, t.eng = (takeFault c s).eng) ∨
          ∃ r, t.eng = (complete r s).eng ∧
            (r ≠ none → ∃ i, decode s.eng.latch = .ok i ∧ (queryValue i).isSome = true))) := by
  rcases engineTurn_cases s with ⟨hb, e⟩ | ⟨c, hb, -, e⟩ | ⟨d, hb, -, -, e⟩ | ⟨i, hb, -, hd, e⟩ <;> rw [e] at h
  · exact .inl ⟨hb, (Host.Outcome.next.inj h).symm⟩
  · obtain rfl := Host.Outcome.next.inj h
    exact .inr ⟨hb, .inl ⟨c, rfl⟩⟩
  · obtain rfl := Host.Outcome.next.inj h
    exact .inr ⟨hb, .inl ⟨_, rfl⟩⟩
  · rcases exec_engine h with hc | ⟨r, hr, hq⟩
    · exact .inr ⟨hb, .inl hc⟩
    · exact .inr ⟨hb, .inr ⟨r, hr, fun hn => ⟨i, hd, hq hn⟩⟩⟩

/-- A hard reset puts every register at its reset value, whatever the engine was doing. -/
theorem hardReset_engine (s : State) : (hardReset s).eng = Engine.afterReset s.eng.baseBlock s.eng.latch := by
  rcases hardReset_cases s with ⟨-, e⟩ | ⟨i, -, e⟩ <;> rw [e] <;> rfl

/-- A memory write by another agent can only set an engine's own flag of log 8. -/
theorem disturbAt_cases (mapped : List Range) (a : Nat) (e : Engine) :
    disturbAt mapped a e = e ∨ disturbAt mapped a e = { e with disturbed := true } := by
  unfold disturbAt
  split
  · exact .inr rfl
  · exact .inl rfl

/-- What a write to a register can do. -/
theorem writeReg_cases (r : Reg) (w : Word) (s : State) :
    writeReg r w s = s ∨
    (r = .ctrl ∧ w.getLsbD 1 = true ∧ s.eng.busy = false ∧ writeReg r w s = resetRegisters s) ∨
    (r = .ctrl ∧ w.getLsbD 1 = false ∧
      writeReg r w s = { s with eng := { s.eng with irqEn := w.getLsbD 0 } }) ∨
    (r = .status ∧ writeReg r w s = { s with eng := clearStatus w s.eng }) ∨
    (r = .cmd ∧ s.eng.busy = false ∧ s.eng.err = false ∧ writeReg r w s = ringDoorbell w s) := by
  cases r with
  | ctrl =>
    simp only [writeReg, writeCtrl]
    cases hw : w.getLsbD 1 <;> cases hb : s.eng.busy <;> simp
  | status => simp [writeReg]
  | cmd =>
    simp only [writeReg]
    cases hb : s.eng.busy with
    | true => exact .inl (ringDoorbell_dropped (.inl hb))
    | false =>
      cases he : s.eng.err with
      | true => exact .inl (ringDoorbell_dropped (.inr he))
      | false => simp
  | id | result | errCode | errInfo | seq => exact .inl rfl

/-- What a turn can do, one case a kind of turn that answers a next state. -/
theorem takeTurn_cases {u : Turn} {s t : State} (h : takeTurn u s = .next t) :
    (u = .engine ∧ engineTurn s = .next t) ∨
    (∃ addr size r, u = .regRead addr size ∧ accessedReg addr size s.eng = some r ∧
      t = { s with hostData := readReg r s.eng }) ∨
    (∃ addr size w r, u = .regWrite addr size w ∧ accessedReg addr size s.eng = some r ∧ t = writeReg r w s) ∨
    (∃ a, u = .memRead a ∧ t = memReadTurn a s) ∨
    (∃ a b, u = .memWrite a b ∧ t = memWriteTurn a b s) ∨
    (u = .hardReset ∧ t = hardReset s) ∨
    (∃ k e, u = .select k ∧ s.others[k]? = some e ∧ t = { s with eng := e, others := s.others.set k s.eng }) := by
  cases u with
  | engine => exact .inl ⟨rfl, h⟩
  | regRead addr size =>
    simp only [takeTurn, regReadTurn] at h
    split at h
    · exact absurd h (by simp)
    · exact .inr (.inl ⟨_, _, _, rfl, ‹_›, (Host.Outcome.next.inj h).symm⟩)
  | regWrite addr size w =>
    simp only [takeTurn, regWriteTurn] at h
    split at h
    · exact absurd h (by simp)
    · exact .inr (.inr (.inl ⟨_, _, _, _, rfl, ‹_›, (Host.Outcome.next.inj h).symm⟩))
  | memRead a => exact .inr (.inr (.inr (.inl ⟨_, rfl, (Host.Outcome.next.inj h).symm⟩)))
  | memWrite a b => exact .inr (.inr (.inr (.inr (.inl ⟨_, _, rfl, (Host.Outcome.next.inj h).symm⟩))))
  | hardReset => exact .inr (.inr (.inr (.inr (.inr (.inl ⟨rfl, (Host.Outcome.next.inj h).symm⟩)))))
  | select k =>
    simp only [takeTurn, selectTurn] at h
    split at h
    · exact absurd h (by simp)
    · exact .inr (.inr (.inr (.inr (.inr (.inr ⟨_, _, rfl, ‹_›, (Host.Outcome.next.inj h).symm⟩)))))

/-- A pending write that reaches a register is that register's write. -/
theorem step_writesReg {r : Reg} {s : State} {w : Word} (h : Safety.writesReg r s (nextTurn s) = some w) :
    step s = .next (writeReg r w { s with turns := s.turns.tail }) := by
  rw [step_eq]
  generalize nextTurn s = u at h
  cases u <;> simp only [Safety.writesReg, reduceCtorEq] at h
  split at h
  · obtain rfl := Option.some.inj h
    simp_all [takeTurn, regWriteTurn]
  · simp at h

end Sys2Proof.Machine
end

