-- ==== Sys2Proof/Tests/Slice0.lean ====
section
/-! SUPPORT. The model's own tests: ill-formed commands refused, decoding from bytes written out of spec/30_encoding.md R71, the
vectors of spec/95_test_vectors.md, and for each statement a witness that meets its hypotheses. Expected values are the spec's. -/

namespace Sys2Proof.Tests

set_option Elab.async false

open Sys2Proof Sys2Proof.Machine Sys2Proof.Safety

/-! ## Small states -/

/-- Bytes put in memory from an address on. -/
def bytesAt (a : Nat) (bs : List Byte) (m : Memory) : Memory := m.store (bs.zipIdx.map fun c => (a + c.2, c.1))

/-- Float patterns put in memory from an address on. -/
def floatsAt (a : Nat) (xs : List F32) (m : Memory) : Memory := m.store (xs.zipIdx.flatMap fun c => f32Stores (a + 4 * c.2) c.1)

/-- The start state of the vectors: fresh from reset, `0x1000 .. 0x7FFF` mapped (95, part 2). -/
def start (m : Memory) : State := { State.reset with mem := m, mapped := [⟨0x1000, 0x7000⟩] }

/-- The start state, busy with a command accepted at 0x1000. -/
def busyWith (i : Instr) (m : Memory) : State :=
  { start m with eng := { (start m).eng with cmd := 0x1000, busy := true, latch := i.descriptor } }

/-- The start state in the faulted condition, DONE 0 (10_state R34). -/
def faulted : State :=
  { start [] with eng := { (start []).eng with cmd := 0x1000, err := true, errCode := 5, errInfo := 0x18 } }

/-- A state with a pending turn. -/
def withTurn (u : Turn) (s : State) : State := { s with turns := [u] }

/-- What is read off the next state of an outcome. -/
def look {α : Type} (f : State → α) : Host.Outcome State Fault Refusal → Option α
  | .next t => some (f t)
  | .fault _ => none
  | .refused _ => none

/-- STATUS, SEQ, RESULT, ERRCODE, ERRINFO, CMD as the host reads them. -/
def regs (s : State) : List Word := [Reg.status, .seq, .result, .errCode, .errInfo, .cmd].map fun r => readReg r s.eng

/-! ## Ill-formed commands (30_encoding R74, 20_memory R42) -/

theorem test_wellFormed_refuses_blkLen_below_16 : (Instr.packsz 8 1 16).wellFormed = false := by decide
theorem test_wellFormed_refuses_blkLen_no_multiple : (Instr.pack .float 24 1 16 0 0).wellFormed = false := by decide
theorem test_wellFormed_refuses_large_m : (Instr.wssz .int8 16 0x80000000 1).wellFormed = false := by decide
theorem test_wellFormed_refuses_large_n : (Instr.packsz 16 0x80000000 1).wellFormed = false := by decide
theorem test_wellFormed_refuses_large_k : (Instr.qrow 16 0x80000000 0 0).wellFormed = false := by decide
theorem test_wellFormed_refuses_short_row : (Instr.gemmf 16 1 2 1 1 1 0 0 0 none none 0).wellFormed = false := by decide
theorem test_wellFormed_refuses_short_deq_row : (Instr.deq 16 1 1 15 0 0 none 0).wellFormed = false := by decide
theorem test_wellFormed_refuses_misaligned_a : (Instr.qrow 16 1 0x2002 0).wellFormed = false := by decide
theorem test_wellFormed_refuses_misaligned_s : (Instr.deq 16 1 1 16 0 0x4002 none 0).wellFormed = false := by decide
theorem test_wellFormed_refuses_misaligned_bias :
    (Instr.gemmi 16 1 1 1 1 0 0 0 none (some 0x4C01) 0).wellFormed = false := by decide
theorem test_wellFormed_refuses_misaligned_c : (Instr.qrow 16 1 0x2000 0x5001).wellFormed = false := by decide
theorem test_wellFormed_ignores_unaligned_nibbles :
    (Instr.gemmf 16 1 1 1 1 1 0x2000 0x3001 0x4000 (some 0x4801) none 0x5000).wellFormed = true := by decide

/-! ## Decoding from bytes (30_encoding R71, R75; the descriptors of 95, part 3, and rows written out of R71) -/

/-- The bytes of P1's descriptor 1. -/
def packBytes : List Byte :=
  [0x02, 0x00, 0x10, 0x00, 0x00, 0x00, 0x00, 0x00, 0x02, 0x00, 0x00, 0x00, 0x11, 0x00, 0x00, 0x00, 0x00, 0x00, 0x00, 0x00,
    0x00, 0x00, 0x00, 0x00, 0x00, 0x60, 0x00, 0x00, 0x00, 0x00, 0x00, 0x00, 0x00, 0x30, 0x00, 0x00, 0x00, 0x00, 0x00, 0x00] ++
  List.replicate 32 0

/-- The bytes of P1's descriptor 2, less opcode and flags, which P2's descriptor 6 replaces. -/
def kernelTail : List Byte :=
  [0x10, 0x00, 0x02, 0x00, 0x00, 0x00, 0x02, 0x00, 0x00, 0x00, 0x11, 0x00, 0x00, 0x00, 0x14, 0x00, 0x00, 0x00, 0x03, 0x00,
    0x00, 0x00] ++
  [0x00, 0x20, 0x00, 0x00, 0x00, 0x00, 0x00, 0x00, 0x00, 0x30, 0x00, 0x00, 0x00, 0x00, 0x00, 0x00, 0x00, 0x40, 0x00, 0x00,
    0x00, 0x00, 0x00, 0x00] ++
  [0x00, 0x48, 0x00, 0x00, 0x00, 0x00, 0x00, 0x00, 0x00, 0x4C, 0x00, 0x00, 0x00, 0x00, 0x00, 0x00, 0x00, 0x50, 0x00, 0x00,
    0x00, 0x00, 0x00, 0x00]

/-- The GEMMF of V-GF2. -/
def gf2 : Instr := .gemmf 16 2 2 17 20 3 0x2000 0x3000 0x4000 (some 0x4800) (some 0x4C00) 0x5000

theorem test_decode_packsz :
    (decodeBytes ([0x01, 0x07, 0x80, 0x00] ++ List.replicate 4 0xFF ++ [0x07, 0x00, 0x00, 0x00, 0x81, 0x00, 0x00, 0x00] ++
      List.replicate 56 0xFF)).toOption = some (.packsz 128 7 129) := by decide +kernel
theorem test_decode_pack : (decodeBytes packBytes).toOption = some (.pack .float 16 2 17 0x6000 0x3000) := by decide +kernel
theorem test_decode_wssz :
    (decodeBytes ([0x03, 0x04, 0x20, 0x00, 0x02, 0x00, 0x00, 0x00, 0x00, 0x00, 0x00, 0x00, 0x28, 0x00, 0x00, 0x00] ++
      List.replicate 56 0)).toOption = some (.wssz .int8 32 2 40) := by decide +kernel
theorem test_decode_wsalign :
    (decodeBytes ([0x04, 0x04] ++ List.replicate 70 0)).toOption = some (.wsalign .int8) := by decide +kernel
theorem test_decode_gemmf : (decodeBytes ([0x05, 0x03] ++ kernelTail)).toOption = some gf2 := by decide +kernel
theorem test_decode_deq :
    (decodeBytes ([0x06, 0x01] ++ kernelTail)).toOption = some (.deq 16 2 17 3 0x3000 0x4000 (some 0x4800) 0x5000) := by
  decide +kernel
theorem test_decode_gemmi :
    (decodeBytes ([0x07, 0x02] ++ kernelTail)).toOption =
      some (.gemmi 16 2 2 17 3 0x2000 0x3000 0x4000 none (some 0x4C00) 0x5000) := by decide +kernel
theorem test_decode_qrow :
    (decodeBytes ([0x08, 0x00, 0x20, 0x00, 0x00, 0x00, 0x00, 0x00, 0x00, 0x00, 0x00, 0x00, 0x28, 0x00, 0x00, 0x00] ++
      List.replicate 8 0 ++ [0x00, 0x21, 0x00, 0x00, 0x00, 0x00, 0x00, 0x00] ++ List.replicate 32 0 ++
      [0x48, 0x24, 0x00, 0x00, 0x00, 0x00, 0x00, 0x00])).toOption = some (.qrow 32 40 0x2100 0x2448) := by decide +kernel
theorem test_decode_refuses_zero_opcode : (decodeBytes (List.replicate 72 0)).toOption = none := by decide +kernel
theorem test_decode_refuses_opcode_9 : (decodeBytes (0x09 :: List.replicate 71 0)).toOption = none := by decide +kernel
theorem test_decode_refuses_reserved_flag :
    (decodeBytes ([0x04, 0x80] ++ List.replicate 70 0)).toOption = none := by decide +kernel
theorem test_encode_kernel : encode gf2 = [0x05, 0x03] ++ kernelTail := by decide +kernel

/-! ## Arithmetic (95, 2.1) -/

theorem test_fadd_tie_down : fadd 0x3F800000 0x33800000 = 0x3F800000 := by decide +kernel
theorem test_fadd_overflow_tie : fadd 0x7F7FFFFF 0x73000000 = 0x7F800000 := by decide +kernel
theorem test_fmul_subnormal_tie_up : fmul 0x00800003 0x3F000000 = 0x00400002 := by decide +kernel
theorem test_fmul_zero_sign : fmul 0xBF800000 0 = 0x80000000 := by decide +kernel
theorem test_fdiv_third : fdiv 0x3F800000 0x40400000 = 0x3EAAAAAB := by decide +kernel
theorem test_fdiv_just_inside : fdiv 0x3F800000 0x00200001 = 0x7F7FFFF8 := by decide +kernel
theorem test_i2f_inexact : i2f 125798400 = 0x4CEFF100 := by decide +kernel
theorem test_cvt_half_away : cvtI8 0xC0200000 = -3 ∧ cvtI8 0x3EFFFFFF = 0 := by decide +kernel

/-! ## One command each (95, 2.2 to 2.7) -/

/-- PACKSZ of V-SZ, the largest operands. -/
theorem test_packsz_largest :
    look regs (exec (.packsz 16 0x7FFFFFFF 0x7FFFFFFF) (busyWith (.packsz 16 0x7FFFFFFF 0x7FFFFFFF) [])) =
      some [2, 1, 2305843008139952128, 0, 0, 0x1000] := by decide +kernel
theorem test_packsz_ragged : look regs (exec (.packsz 32 3 65) (busyWith (.packsz 32 3 65) [])) =
    some [2, 1, 144, 0, 0, 0x1000] := by decide +kernel

/-- PACK of V-PK1. -/
def pk1 : Instr := .pack .float 16 1 16 0x6000 0x3000
def pk1Mem : Memory := bytesAt 0x6000 [0x10, 0x32, 0x54, 0x76, 0x98, 0xBA, 0xDC, 0xFE] (bytesAt 0x3008 [0xEE] [])
theorem test_pack_pk1 :
    look (fun t => t.mem.bytes 0x3000 9) (exec pk1 (busyWith pk1 pk1Mem)) =
      some [0x80, 0x91, 0xA2, 0xB3, 0xC4, 0xD5, 0xE6, 0xF7, 0xEE] := by decide +kernel

/-- PACK of V-PK3: int8 mode, sub-block 32. -/
def pk3 : Instr := .pack .int8 32 1 32 0x6000 0x3000
def pk3Mem : Memory :=
  bytesAt 0x6000 [0xA3, 0x81, 0x6F, 0x4D, 0x2B, 0x09, 0xE7, 0xC5, 0xF8, 0xD6, 0xB4, 0x92, 0x70, 0x5E, 0x3C, 0x1A] []
theorem test_pack_pk3 :
    look (fun t => t.mem.bytes 0x3000 16) (exec pk3 (busyWith pk3 pk3Mem)) =
      some [0x83, 0xFA, 0x61, 0xD8, 0x4F, 0xB6, 0x2D, 0x94, 0x0B, 0x72, 0xE9, 0x50, 0xC7, 0x3E, 0xA5, 0x1C] := by
  decide +kernel

theorem test_wssz_int8 : look regs (exec (.wssz .int8 16 5 129) (busyWith (.wssz .int8 16 5 129) [])) =
    some [2, 1, 900, 0, 0, 0x1000] := by decide +kernel
theorem test_wssz_float : look regs (exec (.wssz .float 32 3 65) (busyWith (.wssz .float 32 3 65) [])) =
    some [2, 1, 0, 0, 0, 0x1000] := by decide +kernel

theorem test_wsalign_int8 : look regs (exec (.wsalign .int8) (busyWith (.wsalign .int8) [])) =
    some [2, 1, 4, 0, 0, 0x1000] := by decide +kernel
theorem test_wsalign_float : look regs (exec (.wsalign .float) (busyWith (.wsalign .float) [])) =
    some [2, 1, 1, 0, 0, 0x1000] := by decide +kernel

/-- GEMMF of V-GF3: the order of summation. -/
def gf3 : Instr := .gemmf 16 1 1 16 16 1 0x2000 0x3000 0x4000 none none 0x5000
def gf3Mem : Memory :=
  floatsAt 0x2000 (0x4B800000 :: List.replicate 7 0x3F800000 ++ 0xCB800000 :: List.replicate 7 0x3F800000)
    (bytesAt 0x3000 (List.replicate 8 0x99) (floatsAt 0x4000 [0x3F800000] []))
theorem test_gemmf_gf3 :
    look (fun t => (t.mem.f32 0x5000, t.mem.f32 0x5004)) (exec gf3 (busyWith gf3 gf3Mem)) = some (0x41500000, 0) := by
  decide +kernel

/-- GEMMF of V-GF4: K = 0, the bias added last. -/
def gf4 : Instr := .gemmf 16 1 2 0 0 2 0x2000 0x3000 0x4000 none (some 0x4C00) 0x5000
def gf4Mem : Memory := floatsAt 0x4C00 [0x80000000, 0x3FC00000] (floatsAt 0x5000 [0x3F800000, 0x3F800000] [])
theorem test_gemmf_gf4 :
    look (fun t => (t.mem.f32 0x5000, t.mem.f32 0x5004)) (exec gf4 (busyWith gf4 gf4Mem)) = some (0, 0x3FC00000) := by
  decide +kernel

/-- DEQ of V-DQ0, the source's worked example through the command. -/
def dq0 : Instr := .deq 16 1 1 16 0x3000 0x4000 (some 0x4800) 0x5000
def dq0Mem : Memory :=
  bytesAt 0x3000 [0x05] (floatsAt 0x4000 [0x3E800000] (bytesAt 0x4800 [0x02] (floatsAt 0x53FC [0x3F800000, 0x3F800000] [])))
theorem test_deq_dq0 :
    look (fun t => [0x5000, 0x5004, 0x5040, 0x53FC, 0x5400].map t.mem.f32) (exec dq0 (busyWith dq0 dq0Mem)) =
      some [0x3F400000, 0, 0, 0, 0x3F800000] := by decide +kernel

/-- GEMMI of V-GI1. -/
def gi1 : Instr := .gemmi 16 1 1 16 1 0x2000 0x3000 0x4000 none none 0x5000
def gi1Mem : Memory :=
  bytesAt 0x2000 [0, 0, 0, 0x3F, 1, 2, 3, 4, 5, 6, 7, 8, 9, 10, 11, 12, 13, 14, 15, 16]
    (bytesAt 0x3000 [0x80, 0x91, 0xA2, 0xB3, 0xC4, 0xD5, 0xE6, 0xF7] (floatsAt 0x4000 [0x3E800000] []))
theorem test_gemmi_gi1 : look (fun t => t.mem.f32 0x5000) (exec gi1 (busyWith gi1 gi1Mem)) = some 0x42080000 := by
  decide +kernel

/-- GEMMI of V-GI5: a zero activation block and an infinite weight scale. -/
def gi5Mem : Memory := bytesAt 0x3000 (List.replicate 8 0x99) (floatsAt 0x4000 [0x7F800000] [])
theorem test_gemmi_gi5 : look (fun t => t.mem.f32 0x5000) (exec gi1 (busyWith gi1 gi5Mem)) = some 0x7FC00000 := by
  decide +kernel

/-- QROW of V-Q1. -/
def q1 : Instr := .qrow 16 3 0x2000 0x5000
def q1Mem : Memory := floatsAt 0x2000 [0x3F800000, 0xC0000000, 0x3F000000] []
theorem test_qrow_q1 :
    look (fun t => t.mem.bytes 0x5000 8) (exec q1 (busyWith q1 q1Mem)) =
      some [0x04, 0x02, 0x81, 0x3C, 0x40, 0x81, 0x20, 0x00] := by decide +kernel

/-- QROW of V-Q6: the reciprocal overflows. -/
theorem test_qrow_q6 :
    look (fun t => t.mem.bytes 0x5000 8) (exec q1 (busyWith q1 (floatsAt 0x2000 [0x00000040, 0x80000020, 0] []))) =
      some [0x01, 0x00, 0x00, 0x00, 0x7F, 0x81, 0x00, 0x00] := by decide +kernel

/-! ## Faults, the doorbell, and where the host places a command -/

/-- V-F9d: dimensions before alignment. -/
def badStride : Instr := .gemmf 16 1 2 16 16 1 1 0x3000 0x4000 none none 1
theorem test_fault_stride_before_alignment : look regs (step (busyWith badStride [])) = some [4, 0, 0, 6, 4, 0x1000] := by
  decide +kernel

/-- V-F2: the lowest refused byte of the fetch. -/
theorem test_fault_fetch :
    look regs (step { busyWith q1 [] with eng := { (busyWith q1 []).eng with cmd := 0x7FC0 } }) =
      some [4, 0, 0, 2, 0x8000, 0x7FC0] := by decide +kernel

/-- V-F8a: a refused input byte; the address reported is one of eight. -/
def refusedInput : Instr := .qrow 16 4 0x7FF8 0x5000
theorem test_fault_data : look (fun t => (t.eng.err, t.eng.errCode)) (step (busyWith refusedInput [])) = some (true, 2) := by
  decide +kernel

/-- P3, step 5: the doorbell, then the engine. -/
def rung : State := withTurn (.regWrite 0x18 8 0x1000) (start (bytesAt 0x1000 (encode pk1) pk1Mem))
theorem test_doorbell_starts :
    look (fun t => (t.eng.busy, t.eng.latch == pk1.descriptor, regs t)) (step rung) =
      some (true, true, [1, 0, 0, 0, 0, 0x1000]) := by decide +kernel

theorem test_withFetchWord_wsalign : look regs (step (State.reset.withFetchWord 16 0x0404)) = some [2, 1, 4, 0, 0, 0] := by
  decide +kernel
theorem test_withFetchWord_packsz :
    look regs (step (State.reset.withFetchWord 128 0x00000011000000020000000000100001)) = some [2, 1, 32, 0, 0, 0] := by
  decide +kernel

/-! ## Witnesses: for each statement, operands and a state that meet its hypotheses together -/

/-- An outcome that is looked at successfully is a next state. -/
theorem look_some {α : Type} {f : State → α} {o : Host.Outcome State Fault Refusal} {x : α} (h : look f o = some x) :
    ∃ t, o = .next t ∧ f t = x := by
  cases o with
  | next t => exact ⟨t, rfl, Option.some.inj h⟩
  | fault r => cases h
  | refused r => cases h

/-- The engine busy with PACK of V-PK1, and everything around it as in the vector. -/
def pk1State : State := busyWith pk1 pk1Mem

/-- The same engine when another one is running QROW of V-Q1. -/
def twoEngines : State := { pk1State with others := [(busyWith q1 []).eng] }

theorem witness_IgnoredFieldsDoNotChangeTheCommand :
    (∃ d e : Descriptor, d ≠ e ∧ sameUsedFields d e ∧ e.flags.toNat < 8 ∧ decode d = .ok (.wsalign .int8)) ∧
    ∃ d e : Descriptor, d ≠ e ∧ sameUsedFields d e ∧ e.flags.toNat = 7 ∧ decode d = .ok gf2 := by
  refine ⟨⟨(Instr.wsalign .int8).descriptor, { (Instr.wsalign .int8).descriptor with blkLen := 3, flags := 7, ptrC := 1 },
    by decide, by unfold sameUsedFields; decide, by decide, by decide +kernel⟩,
    gf2.descriptor, { gf2.descriptor with flags := 7 }, by decide, by unfold sameUsedFields; decide, by decide, by decide +kernel⟩

theorem witness_StepRunsTheDecodedCommand :
    Running pk1 pk1State ∧ pk1State.turns = [] ∧ Running pk1 (withTurn .engine pk1State) := by decide +kernel

theorem witness_AcceptedDoorbellStartsTheEngine :
    writesReg .cmd rung (nextTurn rung) = some 0x1000 ∧ rung.eng.busy = false ∧ rung.eng.err = false ∧
      ∃ t, step rung = .next t ∧ t.eng.cmd = 0x1000 :=
  ⟨by decide +kernel, by decide +kernel, by decide +kernel, look_some (by decide +kernel)⟩

theorem witness_RungCommandIsRunning :
    writesReg .cmd rung (nextTurn rung) = some 0x1000 ∧ rung.eng.busy = false ∧ rung.eng.err = false ∧
      (0x1000 : Word).toNat % 8 = 0 ∧
      (∀ j < 72, isMapped rung.mapped ((0x1000 : Word).toNat + j) = true ∧
        beingWritten rung ((0x1000 : Word).toNat + j) = false) ∧
      (decodeBytes (rung.mem.bytes (0x1000 : Word).toNat 72)).toOption = some pk1 ∧ ∃ t, step rung = .next t ∧ t.eng.busy = true :=
  ⟨by decide +kernel, by decide +kernel, by decide +kernel, by decide +kernel, by decide +kernel, by decide +kernel,
    look_some (by decide +kernel)⟩

/-- A descriptor with reserved flags and non-zero ignored fields is latched as it stands. -/
def rungReserved : State := withTurn (.regWrite 0x18 8 0x1000) (start (bytesAt 0x1000 (0x04 :: List.replicate 71 0xFF) []))
theorem test_doorbell_latches_a_reserved_encoding :
    look (fun t => (t.eng.busy, t.eng.latch.opcode, t.eng.latch.flags, t.eng.latch.ptrC)) (step rungReserved) =
      some (true, 0x04, 0xFF, 0xFFFFFFFFFFFFFFFF) := by decide +kernel

/-- A doorbell pending at a busy and at a faulted engine. -/
def ringBusy : State := withTurn (.regWrite 0x18 8 0x1048) pk1State
def ringFaulted : State := withTurn (.regWrite 0x18 8 0x1048) faulted

theorem witness_DroppedDoorbellLeavesNoRecord :
    (writesReg .cmd ringBusy (nextTurn ringBusy) = some 0x1048 ∧ ringBusy.eng.busy = true) ∧
      writesReg .cmd ringFaulted (nextTurn ringFaulted) = some 0x1048 ∧ ringFaulted.eng.err = true := by decide +kernel

theorem witness_EveryAcceptedCommandEnds :
    (pk1State.eng.busy = true ∧ pk1State.eng.err = false ∧ nextTurn pk1State = .engine) ∧
      (busyWith badStride []).eng.busy = true ∧ (busyWith badStride []).eng.err = false ∧
        nextTurn (busyWith badStride []) = .engine := by decide +kernel

/-- An idle selected engine beside an idle and a busy one, with no turn pending: the busy one is selected and ends (70_reset R193). -/
def leftBehind : State := { start q1Mem with others := [(start []).eng, (busyWith q1 []).eng] }
theorem test_left_behind_engine_ends :
    look (fun t => (busyCount t, t.mem.read 0x5004, t.turns)) (runSteps 2 leftBehind) = some (0, 0x40, []) := by decide +kernel
theorem witness_EveryAcceptedCommandEnds_others :
    leftBehind.turns = [] ∧ busyCount leftBehind = 1 ∧ leftBehind.eng.busy = false ∧ twoEngines.turns = [] ∧
      busyCount twoEngines = 2 := by decide +kernel

theorem witness_IdleEngineDoesNothing : (start []).eng.busy = false ∧ nextTurn (start []) = .engine := by decide +kernel

theorem witness_LatchIsKeptWhileBusy :
    pk1State.eng.busy = true ∧ notSelect (nextTurn pk1State) = true ∧ ∃ t, step pk1State = .next t ∧ t.eng.done = true :=
  ⟨by decide +kernel, by decide +kernel, look_some (by decide +kernel)⟩

/-- The engine's turn, with a read of STATUS after it. -/
def polled : State := { busyWith badStride [] with turns := [.engine, .regRead 0x10 8] }
theorem test_fault_while_polled :
    look (fun t => (regs t, t.turns)) (step polled) = some ([4, 0, 0, 6, 4, 0x1000], [.regRead 0x10 8]) := by decide +kernel

/-- Each clause: a failing check, a refused data byte, a completion. -/
theorem witness_ChecksAreMadeInOrder :
    (polled.eng.busy = true ∧ nextTurn polled = .engine) ∧
    ((busyWith badStride []).eng.busy = true ∧ nextTurn (busyWith badStride []) = .engine ∧
      orderedCause (busyWith badStride []).mapped 0x1000 badStride.descriptor = some (6, 4)) ∧
    (orderedCause [⟨0x1000, 0x7000⟩] 0x1000 refusedInput.descriptor = none ∧
      refusedOf refusedInput (busyWith refusedInput []) ≠ []) ∧
    orderedCause pk1State.mapped pk1State.eng.cmd pk1State.eng.latch = none ∧ refusedOf pk1 pk1State = [] ∧
      Exclusive pk1 pk1State := by
  decide +kernel

theorem witness_MemoryAfterAFault :
    (∃ t, step (busyWith badStride []) = .next t ∧ (t.eng.err, t.eng.errCode) = (true, 6)) ∧
    (∃ t, step (busyWith refusedInput []) = .next t ∧ t.eng.err = true) ∧
    Running refusedInput (busyWith refusedInput []) ∧ (busyWith refusedInput []).mem.wf ∧
      inRanges (writeFootprint refusedInput) 0x4FFF = false :=
  ⟨look_some (f := fun t => (t.eng.err, t.eng.errCode)) (by decide +kernel), look_some (f := fun t => t.eng.err) (by decide +kernel), by decide +kernel,
    by decide +kernel, by decide +kernel⟩

/-- A write to STATUS pending in the faulted condition: bit 1 only, and bit 2. -/
def clearDone : State := withTurn (.regWrite 0x10 8 2) faulted
def clearErr : State := withTurn (.regWrite 0x10 8 4) faulted
def softReset : State := withTurn (.regWrite 0x08 8 3) faulted

theorem witness_FaultRecordIsKept :
    engineOk clearDone.eng ∧ clearDone.eng.err = true ∧ notSelect (nextTurn clearDone) = true ∧
      clearsErr clearDone (nextTurn clearDone) = false ∧ resets clearDone (nextTurn clearDone) = false ∧
      ∃ t, step clearDone = .next t ∧ t.eng.err = true :=
  ⟨by decide +kernel, by decide +kernel, by decide +kernel, by decide +kernel, by decide +kernel,
    look_some (f := fun t => t.eng.err) (by decide +kernel)⟩

theorem witness_FaultReturn :
    (engineOk clearErr.eng ∧ clearErr.eng.err = true ∧ clearsErr clearErr (nextTurn clearErr) = true ∧
      ∃ t, step clearErr = .next t ∧ t.eng.err = false) ∧
    (engineOk softReset.eng ∧ softReset.eng.err = true ∧ writesReg .ctrl softReset (nextTurn softReset) = some 3 ∧
      (3 : Word).getLsbD 1 = true ∧ ∃ t, step softReset = .next t ∧ t.eng.err = false) :=
  ⟨⟨by decide +kernel, by decide +kernel, by decide +kernel, look_some (f := fun t => t.eng.err) (by decide +kernel)⟩,
    by decide +kernel, by decide +kernel, by decide +kernel, by decide +kernel,
    look_some (f := fun t => t.eng.err) (by decide +kernel)⟩

/-- A read and a write of the byte after the buffer PACK is writing. -/
def readBeside : State := withTurn (.memRead 0x3008) pk1State
def writeBeside : State := withTurn (.memWrite 0x3008 0x77) pk1State
theorem witness_HostAccessesMemory :
    (nextTurn readBeside = .memRead 0x3008 ∧ beingWritten readBeside (0x3008 : Word).toNat = false) ∧
      beingWritten readBeside 0x3007 = true ∧ nextTurn writeBeside = .memWrite 0x3008 0x77 ∧ writeBeside.mem.wf := by
  decide +kernel

theorem witness_CtrlRegisterRule :
    { faulted.eng with irqEn := true }.irqEn = true ∧ (1 : Word).getLsbD 1 = false ∧ ((2 : Word).getLsbD 1 = true ∧ pk1State.eng.busy = true) ∧
      (3 : Word).getLsbD 1 = true ∧ (start []).eng.busy = false := by decide +kernel

/-- An engine whose window starts at 0xC0, with SEQ 5. -/
def movedWindow : State := { start [] with eng := { (start []).eng with baseBlock := 3, seq := 5 } }

/-- Sizes, alignments and offsets where the clauses meet: before the window, each register, between two, the first byte beyond. -/
theorem witness_RegisterAccessRule :
    movedWindow.eng.base = 0xC0 ∧ ((4 : Nat) ≠ 8) ∧ (0xFC : Word).toNat % 8 ≠ 0 ∧
      0x40 ≤ ((0xB8 : Word) - movedWindow.eng.base).toNat ∧ 0x40 ≤ ((0x100 : Word) - movedWindow.eng.base).toNat ∧
      movedWindow.eng.base + 0x08 = 0xC8 ∧ movedWindow.eng.base + 0x38 = 0xF8 ∧
      look (fun t => t.hostData) (regReadTurn 0xF8 8 movedWindow) = some 5 := by decide +kernel

theorem witness_SeqCountsCompletedCommands :
    (engineOk softReset.eng ∧ notSelect (nextTurn softReset) = true ∧ resets softReset (nextTurn softReset) = true ∧
      ∃ t, step softReset = .next t ∧ t.eng.seq = 0) ∧
    (engineOk pk1State.eng ∧ nextTurn pk1State = .engine ∧ pk1State.eng.busy = true ∧
      ∃ t, step pk1State = .next t ∧ t.eng.seq = 1) ∧
    (engineOk clearErr.eng ∧ resets clearErr (nextTurn clearErr) = false ∧ nextTurn clearErr ≠ .engine ∧
      ∃ t, step clearErr = .next t ∧ t.eng.seq = 0) :=
  ⟨⟨by decide +kernel, by decide +kernel, by decide +kernel, look_some (f := fun t => t.eng.seq) (by decide +kernel)⟩,
    ⟨by decide +kernel, by decide +kernel, by decide +kernel, look_some (f := fun t => t.eng.seq) (by decide +kernel)⟩,
    by decide +kernel, by decide +kernel, by decide +kernel, look_some (f := fun t => t.eng.seq) (by decide +kernel)⟩

/-- The engine busy with WSALIGN, which changes RESULT from 0 to 4; and a reset that changes RESULT from 9 to 0. -/
def alignState : State := busyWith (.wsalign .int8) []
def resetNine : State := withTurn .hardReset { alignState with eng := { alignState.eng with result := 9 } }

theorem witness_ResultChangesOnlyByQueries :
    (engineOk alignState.eng ∧ notSelect (nextTurn alignState) = true ∧
      ∃ t, step alignState = .next t ∧ (t.eng.result != alignState.eng.result) = true) ∧
    (engineOk resetNine.eng ∧ notSelect (nextTurn resetNine) = true ∧
      ∃ t, step resetNine = .next t ∧ (t.eng.result != resetNine.eng.result) = true) :=
  ⟨⟨by decide +kernel, by decide +kernel, look_some (f := fun t => t.eng.result != alignState.eng.result) (by decide +kernel)⟩,
    by decide +kernel, by decide +kernel, look_some (f := fun t => t.eng.result != resetNine.eng.result) (by decide +kernel)⟩

theorem witness_RegistersAfterReset : faulted.eng.busy = false ∧ (2 : Word).getLsbD 1 = true := by decide +kernel

/-- A hard reset pending while PACK runs. -/
def resetBusy : State := withTurn .hardReset pk1State

theorem witness_HardResetRule :
    resetBusy.mem.wf ∧ nextTurn resetBusy = .hardReset ∧ (∃ t, step resetBusy = .next t ∧ t.eng.busy = false) ∧
      (runningJob resetBusy.mapped resetBusy.eng = some pk1 ∧ inRanges (writeFootprint pk1) 0x3008 = false) ∧
      runningJob (busyWith badStride []).mapped (busyWith badStride []).eng = some badStride :=
  ⟨by decide +kernel, by decide +kernel, look_some (f := fun t => t.eng.busy) (by decide +kernel), by decide +kernel,
    by decide +kernel⟩

theorem witness_StepKeepsTheRegistersOk :
    registersOk twoEngines ∧ ∃ t, step twoEngines = .next t ∧ t.eng.done = true :=
  ⟨by decide +kernel, look_some (f := fun t => t.eng.done) (by decide +kernel)⟩

theorem witness_StepKeepsMemoryCanonical :
    pk1State.mem.wf ∧ ∃ t, step pk1State = .next t ∧ t.mem.read 0x3000 = 0x80 :=
  ⟨by decide +kernel, look_some (f := fun t => t.mem.read 0x3000) (by decide +kernel)⟩

theorem witness_EngineWritesOnlyItsFootprint :
    pk1State.mem.wf ∧ ∃ t, engineTurn pk1State = .next t ∧ (t.mem.read 0x3007 != pk1State.mem.read 0x3007) = true :=
  ⟨by decide +kernel, look_some (f := fun t => t.mem.read 0x3007 != pk1State.mem.read 0x3007) (by decide +kernel)⟩

theorem witness_CommandReadsOnlyItsFootprint :
    pk1.wellFormed = true ∧ pk1State.mem.wf ∧ (bytesAt 0x7000 [0x55] pk1Mem).wf ∧ Accessible pk1 pk1State ∧
      Exclusive pk1 pk1State ∧ (bytesAt 0x7000 [0x55] pk1Mem) ≠ pk1State.mem ∧
      ∀ a, inRanges (readFootprint pk1) a = true → (bytesAt 0x7000 [0x55] pk1Mem).read a = pk1State.mem.read a := by
  refine ⟨by decide +kernel, by decide +kernel, by decide +kernel, by decide +kernel, by decide +kernel, by decide +kernel, ?_⟩
  intro a ha
  have h := inRanges_single.mp ha
  refine Memory.read_store_of_not_mem (by decide +kernel) fun w hw => ?_
  have : w = (0x7000, 0x55) := by simpa using hw
  subst this
  have h2 : a < 0x6008 := h.2
  simp only
  omega

theorem witness_InstancesShareOnlyMemory :
    notSelect (nextTurn twoEngines) = true ∧ twoEngines.others.length = 1 ∧
      ∃ t, step twoEngines = .next t ∧ t.eng.done = true :=
  ⟨by decide +kernel, by decide +kernel, look_some (f := fun t => t.eng.done) (by decide +kernel)⟩

/-- PACK in place (R186 broken), and PACK after another agent has touched its buffer (R185 broken). -/
def inPlace : Instr := .pack .float 16 1 16 0x3000 0x3000
def touched : State := { pk1State with eng := { pk1State.eng with disturbed := true } }

theorem witness_BrokenObligationOnlyFreesTheFootprint :
    (inPlace.wellFormed = true ∧ (busyWith inPlace []).mem.wf ∧ Accessible inPlace (busyWith inPlace []) ∧
      hazard inPlace (busyWith inPlace []) = true) ∧
    pk1.wellFormed = true ∧ touched.mem.wf ∧ Accessible pk1 touched ∧ hazard pk1 touched = true := by decide +kernel

theorem witness_PackszReturnsThePackedSize : (Instr.packsz 65520 0x7FFFFFFF 0x7FFFFFFF).wellFormed = true := by decide +kernel
theorem witness_WsszReturnsTheWorkspaceSize : (Instr.wssz .int8 65520 0x7FFFFFFF 0x7FFFFFFF).wellFormed = true := by
  decide +kernel
theorem witness_QuerySizesFitTheirRegister :
    blkLenOk 16 = true ∧ blkLenOk 65520 = true ∧ dimOk 0x7FFFFFFF = true := by decide +kernel

theorem witness_PackThenExtractRecoversEveryNibble :
    pk1.wellFormed = true ∧ pk1State.mem.wf ∧ Accessible pk1 pk1State ∧ Exclusive pk1 pk1State ∧
      (0 : Nat) < (1 : BitVec 32).toNat * blockCount (16 : BitVec 32).toNat (16 : BitVec 16).toNat ∧
      inRanges (writeFootprint pk1) 0x3008 = false := by decide +kernel
theorem witness_DeqMaterializesTheMatrix :
    dq0.wellFormed = true ∧ dq0Mem.wf ∧ Accessible dq0 (busyWith dq0 dq0Mem) ∧ Exclusive dq0 (busyWith dq0 dq0Mem) ∧
      15 < roundUp16 (1 : BitVec 32).toNat ∧ inRanges (writeFootprint dq0) 0x5400 = false := by decide +kernel
theorem witness_GemmfWritesEveryElement :
    gf4.wellFormed = true ∧ gf4Mem.wf ∧ Accessible gf4 (busyWith gf4 gf4Mem) ∧ Exclusive gf4 (busyWith gf4 gf4Mem) ∧
      inRanges (writeFootprint gf4) 0x5008 = false := by decide +kernel
theorem witness_GemmiWritesEveryElement :
    gi1.wellFormed = true ∧ gi1Mem.wf ∧ Accessible gi1 (busyWith gi1 gi1Mem) ∧ Exclusive gi1 (busyWith gi1 gi1Mem) ∧
      inRanges (writeFootprint gi1) 0x5004 = false := by decide +kernel
theorem witness_QrowWritesEveryBlock :
    q1.wellFormed = true ∧ q1Mem.wf ∧ Accessible q1 (busyWith q1 q1Mem) ∧ Exclusive q1 (busyWith q1 q1Mem) ∧
      0 < blockCount (3 : BitVec 32).toNat (16 : BitVec 16).toNat ∧ inRanges (writeFootprint q1) 0x5014 = false := by
  decide +kernel
theorem witness_FloatKernelMultipliesWhatDeqWrites :
    dq0.wellFormed = true ∧ dq0Mem.wf ∧ Accessible dq0 (busyWith dq0 dq0Mem) ∧ Exclusive dq0 (busyWith dq0 dq0Mem) ∧
      0 < (1 : BitVec 32).toNat := by decide +kernel

/-- The bias pointer of the tile from column 2 on, and no bias. -/
theorem witness_ElementsDoNotDependOnTheTile : biasTile (some 0x4C00) (some 0x4C08) 2 ∧ biasTile none none 2 := by
  simp [biasTile]

/-- The operands of V-GF3, a bias of 1.5, and the ends of the range of magnitudes. -/
theorem witness_GemmfStaysCloseToTheExactProduct :
    (∀ k < 16, tame (activation gf3Mem 0x2000 16 0 k) ∧ tame ((⟨16, 1, 16, 0x3000, 0x4000, none⟩ : Weights).scale gf3Mem 0 (k / 16))) ∧
      tame (gf4Mem.f32 (0x4C00 + 4 * 1)) ∧ tame 0x80000000 ∧ tame 0x2B800000 ∧ tame 0xD3800000 ∧
      ¬tame 0x2B7FFFFF ∧ ¬tame 0x53800001 := by decide +kernel

/-- The same row at another place, in another state. -/
def q1Far : Instr := .qrow 16 3 0x2100 0x6000
def q1FarState : State := busyWith q1Far (floatsAt 0x2100 [0x3F800000, 0xC0000000, 0x3F000000] [])
theorem witness_QuantizationIsDeterministic :
    q1.wellFormed = true ∧ q1Far.wellFormed = true ∧ (busyWith q1 q1Mem).mem.wf ∧ q1FarState.mem.wf ∧
      Accessible q1 (busyWith q1 q1Mem) ∧ Accessible q1Far q1FarState ∧ Exclusive q1 (busyWith q1 q1Mem) ∧
      Exclusive q1Far q1FarState ∧ ∀ j < 12, (busyWith q1 q1Mem).mem.read (0x2000 + j) = q1FarState.mem.read (0x2100 + j) := by
  decide +kernel

theorem witness_RoundingIsToNearestEven :
    (isNaN 0x7F7FFFFF = false ∧ isInf 0x7F7FFFFF = false ∧ scaledValue 0x7F7FFFFF + scaledValue 0x7F7FFFFF ≠ 0) ∧
      (isNaN 0x80000001 = false ∧ isInf 0x80000001 = false ∧ scaledValue 0x80000001 = -1) ∧ 0 < (1 : Nat) ∧ roundBits ((2 ^ 25 - 1) * 2 ^ 252) 1 = infBits ∧
      roundBits ((2 ^ 25 - 1) * 2 ^ 252 - 1) 1 < infBits ∧ infBits - 1 < infBits := by decide +kernel

theorem witness_SpecialFloatResults :
    isNaN 0x7F800001 = true ∧ (isInf 0x7F800000 = true ∧ isInf 0xFF800000 = true ∧ signBit 0x7F800000 ≠ signBit 0xFF800000) ∧
      isZero 0x80000000 = true ∧
      (isNaN 0x7F7FFFFF = false ∧ isInf 0x7F7FFFFF = false ∧ isZero 0x7F7FFFFF = false) ∧
      (isInf 0x7F800000 = true ∧ isNaN 0 = false ∧ isInf 0 = false ∧ isZero 0x00000001 = false) ∧
      isZero (fmul 0x80000000 0x3F800000) = true ∧ isZero (fmul 0x00000001 0x80000001) = true ∧
      isZero (fdiv 0x80000000 0x3F800000) = true ∧
      isNaN 0x3F800000 = false ∧ isInf 0x3F800000 = false ∧ isNaN 0xBF800000 = false ∧ isInf 0xBF800000 = false ∧
      signBit 0x3F800000 ≠ signBit 0xBF800000 ∧ isZero (fadd 0x3F800000 0xBF800000) = true := by decide +kernel

theorem witness_SmallIntegersConvertExactly :
    ((2 : Int) ^ 24).natAbs ≤ 2 ^ 24 ∧ (-(2 : Int) ^ 24).natAbs ≤ 2 ^ 24 := by decide +kernel
theorem witness_CodesAreSaturated :
    isNaN 0xFFFFFFFF = true ∧ isNaN 0x7F7FFFFF = false ∧ isInf 0x7F7FFFFF = false ∧
      2 * (scaledValue 0xC0200000 - rta 0xC0200000 * 2 ^ 149).natAbs = 2 ^ 149 := by decide +kernel
theorem witness_ZeroBlockQuantizesToZero : ∀ x ∈ [(0 : F32), 0x80000000], isZero x = true :=
  List.all_eq_true.mp (by decide +kernel)
theorem witness_NonFiniteBlockQuantizesToZeroCodes :
    (∃ x ∈ [(0x3F800000 : F32), 0x7FC00001], isNaN x = true) ∧
      (∀ x ∈ [(0x3F800000 : F32), 0xFF800000], isNaN x = false) ∧
      ∃ x ∈ [(0x3F800000 : F32), 0xFF800000], isInf x = true := by
  refine ⟨⟨0x7FC00001, by simp, by decide +kernel⟩, fun x hx => ?_, 0xFF800000, by simp, by decide +kernel⟩
  have h : [(0x3F800000 : F32), 0xFF800000].all (fun x => !isNaN x) = true := by decide +kernel
  simpa using List.all_eq_true.mp h x hx

theorem witness_DecodeStepRule :
    (15 : Nat) < 16 ∧ isNaN 0x7FC00000 = true ∧ isInf 0xFF800000 = true ∧ isNaN 0xBF800000 = false ∧
      isInf 0xBF800000 = false ∧ (⟨16, 1, 1, 0, 0, none⟩ : Weights).ptrZ = none := by decide +kernel
theorem witness_BitConstructionGivesTheSameValue : (0 : Nat) < 16 ∧ (15 : Nat) < 16 := by decide
theorem witness_FloatKernelNeverGivesNegativeZero :
    fadd 0x80000000 0x80000000 = 0x80000000 ∧
      lanesZero.l0 ≠ 0x80000000 ∧ lanesZero.l1 ≠ 0x80000000 ∧ lanesZero.l2 ≠ 0x80000000 ∧ lanesZero.l3 ≠ 0x80000000 := by
  decide +kernel
theorem witness_BlockSumsNeverOverflow : (⟨65520, 1, 1, 0, 0, none⟩ : Weights).blkLen ≤ 65520 := by decide

/-- One valid slot of sixteen; the fifteen padding slots hold code 0 (43_dequantize, 45_gemm_int8 R143). -/
theorem witness_PaddingCodesAddNothing :
    1 ≤ (⟨16, 1, 1, 0x3000, 0x4000, none⟩ : Weights).blkLen ∧
      ∀ i, 1 ≤ i → i < 16 → qCode (bytesAt 0x2000 [0, 0, 0x80, 0x3F, 0x7F] []) 0x2000 16 1 0 0 i = 0 := by
  refine ⟨by decide, fun i h1 h2 => ?_⟩
  have : ∀ i < 16, 1 ≤ i → qCode (bytesAt 0x2000 [0, 0, 0x80, 0x3F, 0x7F] []) 0x2000 16 1 0 0 i = 0 := by decide +kernel
  exact this i h2 h1
theorem witness_IntKernelSignsAndNonFiniteScales :
    (-125798400 : Int).natAbs < 2 ^ 31 ∧ isNaN 0x7FC00000 = true ∧ isInf 0x7F800000 = true ∧ isNaN 0x7F7FFFFF = false ∧
      isInf 0x7F7FFFFF = false := by decide +kernel

end Sys2Proof.Tests
end

section
/-! PROOFS. The statements about the scope of the engine (spec/00_scope.md): the queried sizes fit RESULT (R16), every float
operation is the exact result rounded once to nearest, ties to even (R11, R12), small integers convert exactly (R12),
and the special results (R11). The facts about rounding come first, in the order of Machine/Float.lean. -/

namespace Sys2Proof.Machine

section Sizes
/-! ### The queried sizes (00_scope R13, R16) -/

/-- The blocks of a row cover its elements with less than one block to spare (00_scope R13). -/
theorem blockCount_mul_le (k b : Nat) : blockCount k b * b ≤ k + b - 1 :=
  Nat.div_mul_le_self _ _

/-- Settles O36: one column of packed bytes is at most 2^31 long and one workspace row at most 2^32, and there are fewer than 2^31
of either. -/
theorem querySizesFitTheirRegister : Obligations.QuerySizesFitTheirRegister := by
  intro b m n k hb hm hn hk
  simp only [blkLenOk, dimOk, Bool.and_eq_true, decide_eq_true_eq, beq_iff_eq] at hb hm hn hk
  have hcover := blockCount_mul_le k.toNat b.toNat
  have hblk : b.toNat < 2 ^ 16 := b.isLt
  have hcount : blockCount k.toNat b.toNat * 16 ≤ blockCount k.toNat b.toNat * b.toNat := Nat.mul_le_mul_left _ hb.1
  constructor
  · have hcol : blockCount k.toNat b.toNat * (b.toNat / 2) ≤ 2 ^ 31 :=
      (Nat.mul_div_le_mul_div_assoc _ _ 2).trans (by omega)
    calc packedSize b.toNat n.toNat k.toNat = n.toNat * (blockCount k.toNat b.toNat * (b.toNat / 2)) := Nat.mul_assoc ..
      _ < 2 ^ 31 * 2 ^ 31 := Nat.mul_lt_mul_of_lt_of_le hn hcol (by decide)
      _ = 2 ^ 62 := by decide
  · have hrow : blockCount k.toNat b.toNat * q8Size b.toNat ≤ 2 ^ 32 := by
      rw [q8Size, Nat.mul_add]
      omega
    calc workspaceSize .int8 b.toNat m.toNat k.toNat = m.toNat * (blockCount k.toNat b.toNat * q8Size b.toNat) :=
          Nat.mul_assoc ..
      _ < 2 ^ 31 * 2 ^ 32 := Nat.mul_lt_mul_of_lt_of_le hm hrow (by decide)
      _ = 2 ^ 63 := by decide

end Sizes

section Magnitude
/-! ### The order of the magnitudes (00_scope R10) -/

/-- A magnitude lies below the first one of the next exponent field. -/
theorem magnitude_lt (x : F32) : magnitude x < 2 ^ 23 * 2 ^ (absBits x / 2 ^ 23) := by
  simp only [magnitude]
  have hf : absBits x % 2 ^ 23 < 2 ^ 23 := Nat.mod_lt _ (by decide)
  split
  · next he => rw [he]; omega
  · next he =>
    obtain ⟨e, he'⟩ := Nat.exists_eq_succ_of_ne_zero he
    rw [he', Nat.succ_sub_one]
    calc (2 ^ 23 + absBits x % 2 ^ 23) * 2 ^ e < 2 ^ 24 * 2 ^ e :=
          Nat.mul_lt_mul_of_pos_right (by omega) (by positivity)
      _ = 2 ^ 23 * 2 ^ (e + 1) := by ring

/-- A normal magnitude is at least the first one of its exponent field. -/
theorem le_magnitude {x : F32} (he : absBits x / 2 ^ 23 ≠ 0) : 2 ^ 23 * 2 ^ (absBits x / 2 ^ 23 - 1) ≤ magnitude x := by
  simp only [magnitude, if_neg he]
  exact Nat.mul_le_mul_right _ (by omega)

/-- A larger magnitude pattern has a larger magnitude. -/
theorem magnitude_lt_magnitude {x y : F32} (h : absBits x < absBits y) : magnitude x < magnitude y := by
  have hx := Nat.div_add_mod (absBits x) (2 ^ 23)
  have hy := Nat.div_add_mod (absBits y) (2 ^ 23)
  rcases Nat.lt_or_eq_of_le (Nat.div_le_div_right (c := 2 ^ 23) h.le) with he | he
  · calc magnitude x < 2 ^ 23 * 2 ^ (absBits x / 2 ^ 23) := magnitude_lt x
      _ ≤ 2 ^ 23 * 2 ^ (absBits y / 2 ^ 23 - 1) := Nat.mul_le_mul_left _ (Nat.pow_le_pow_right (by decide) (by omega))
      _ ≤ magnitude y := le_magnitude (by omega)
  · simp only [magnitude, he]
    split
    · omega
    · exact Nat.mul_lt_mul_of_pos_right (by omega) (by positivity)

/-- Two magnitude patterns of one magnitude are the same pattern. -/
theorem magnitude_withSign_inj {neg : Bool} {p q : Nat} (hp : p < 2 ^ 31) (hq : q < 2 ^ 31)
    (h : magnitude (withSign neg p) = magnitude (withSign neg q)) : p = q := by
  by_contra hne
  rcases Nat.lt_or_gt_of_ne hne with hlt | hlt
  · exact absurd h (magnitude_lt_magnitude (by rwa [absBits_withSign _ hp, absBits_withSign _ hq])).ne
  · exact absurd h (magnitude_lt_magnitude (by rwa [absBits_withSign _ hp, absBits_withSign _ hq])).ne'

/-- From `2^23 * 2^e` on, every magnitude is a multiple of `2^e`. -/
theorem pow_dvd_magnitude {x : F32} {e : Nat} (h : 2 ^ 23 * 2 ^ e ≤ magnitude x) : 2 ^ e ∣ magnitude x := by
  have he : e < absBits x / 2 ^ 23 := (Nat.pow_lt_pow_iff_right (by decide)).mp
    (Nat.lt_of_mul_lt_mul_left (h.trans_lt (magnitude_lt x)))
  simp only [magnitude, if_neg (show absBits x / 2 ^ 23 ≠ 0 by omega)]
  exact Dvd.dvd.mul_left (Nat.pow_dvd_pow 2 (by omega)) _

end Magnitude

section NearestEven
/-! ### Rounding to an integer -/

/-- An exact quotient is left as it is. -/
theorem nearestEven_mul (k : Nat) {d : Nat} (hd : 0 < d) : nearestEven (k * d) d = k := by
  simp [nearestEven, Nat.mul_div_cancel _ hd, hd]

/-- A result that is off by just a half is even. -/
theorem nearestEven_even_of_tie {n d : Nat} (hd : 0 < d) (h : 2 * ((n : Int) - d * nearestEven n d).natAbs = d) :
    nearestEven n d % 2 = 0 := by
  have hdm : (d : Int) * (n / d : Nat) + (n % d : Nat) = n := by exact_mod_cast Nat.div_add_mod n d
  have hlt := Nat.mod_lt n hd
  simp only [nearestEven] at h ⊢
  generalize n / d = q at *
  split
  · next hdown => rw [if_pos hdown] at h; omega
  · next hdown =>
    split
    · next hup =>
      rw [if_neg hdown, if_pos hup, Nat.cast_add, Nat.cast_one, mul_add] at h
      omega
    · omega

/-- No integer is nearer to the quotient, and the result is even where another is as near. -/
theorem nearestEven_nearest {n d : Nat} (hd : 0 < d) (k : Nat) :
    ((n : Int) - d * nearestEven n d).natAbs ≤ ((n : Int) - d * k).natAbs ∧
      (((n : Int) - d * nearestEven n d).natAbs = ((n : Int) - d * k).natAbs → k ≠ nearestEven n d →
        nearestEven n d % 2 = 0) := by
  have herr := nearestEven_error n hd
  have htie := nearestEven_even_of_tie (n := n) hd
  generalize nearestEven n d = m at *
  rcases eq_or_ne k m with rfl | hne
  · exact ⟨le_rfl, fun _ h => absurd rfl h⟩
  · have hgap : d ≤ ((d : Int) * k - d * m).natAbs := by
      rw [← mul_sub, Int.natAbs_mul, Int.natAbs_natCast]
      exact Nat.le_mul_of_pos_right d (by omega)
    exact ⟨by omega, fun heq _ => htie (by omega)⟩

/-- The quotient rounds up past an odd integer from the half after it on. -/
theorem lt_nearestEven_iff {n d k : Nat} (hd : 0 < d) (hk : k % 2 = 1) : k < nearestEven n d ↔ (2 * k + 1) * d ≤ 2 * n := by
  have herr := nearestEven_error n hd
  have htie := nearestEven_even_of_tie (n := n) hd
  generalize nearestEven n d = m at *
  have hcast : (2 * k + 1) * d ≤ 2 * n ↔ 2 * ((d : Int) * k) + d ≤ 2 * n := by
    rw [← Nat.cast_le (α := Int)]
    push_cast
    ring_nf
  rw [hcast]
  constructor
  · intro hlt
    have : (d : Int) * (k + 1) ≤ d * m := by gcongr; omega
    rw [mul_add, mul_one] at this
    omega
  · intro hhalf
    by_contra hle
    have hmk : (d : Int) * m ≤ d * k := by gcongr; omega
    have heven : m % 2 = 0 := htie (by omega)
    have : (d : Int) * (m + 1) ≤ d * k := by gcongr; omega
    rw [mul_add, mul_one] at this
    omega

end NearestEven

section RoundBits
/-! ### Rounding to a pattern (00_scope R11) -/

theorem roundBits_le_infBits (n d : Nat) : roundBits n d ≤ infBits :=
  Nat.min_le_left _ _

/-- A finite rounded pattern has the parity of its fraction, which is the rounded integer's. -/
theorem roundBits_mod_two {n d : Nat} (hf : roundBits n d < infBits) :
    roundBits n d % 2 = nearestEven n (d * 2 ^ (Nat.log2 (n / d) - 23)) % 2 := by
  simp only [roundBits] at hf ⊢
  omega

/-- No pattern is nearer to the exact magnitude than a finite rounded one, and the rounded one is even where a pattern of another
magnitude is as near (00_scope R11). A pattern that is no multiple of the last place's unit lies below the least normal
fraction at that unit, so that fraction is nearer. -/
theorem roundBits_nearest {n d : Nat} (hd : 0 < d) (hf : roundBits n d < infBits) (neg : Bool) (x : F32) :
    ((n : Int) - d * magnitude (withSign neg (roundBits n d))).natAbs ≤ ((n : Int) - d * magnitude x).natAbs ∧
      (((n : Int) - d * magnitude (withSign neg (roundBits n d))).natAbs = ((n : Int) - d * magnitude x).natAbs →
        magnitude x ≠ magnitude (withSign neg (roundBits n d)) → roundBits n d % 2 = 0) := by
  obtain ⟨-, hlow⟩ := roundBits_exponent (n := n) hd
  rw [magnitude_roundBits neg hd hf, roundBits_mod_two hf]
  generalize Nat.log2 (n / d) - 23 = e at *
  have hpos : 0 < d * 2 ^ e := by positivity
  have hunit : ∀ k : Nat, (d : Int) * (k * 2 ^ e : Nat) = (d * 2 ^ e : Nat) * k := fun k => by
    push_cast
    ring
  rw [hunit]
  by_cases hdvd : 2 ^ e ∣ magnitude x
  · obtain ⟨k, hk⟩ := hdvd
    have hnear := nearestEven_nearest (n := n) hpos k
    rw [hk, Nat.mul_comm (2 ^ e) k, hunit]
    exact ⟨hnear.1, fun heq hne => hnear.2 heq fun h => hne (by rw [h])⟩
  · have he : e ≠ 0 := by
      rintro rfl
      simp at hdvd
    have hbelow : d * magnitude x < d * 2 ^ e * 2 ^ 23 :=
      calc d * magnitude x < d * (2 ^ 23 * 2 ^ e) :=
            Nat.mul_lt_mul_of_pos_left (Nat.lt_of_not_le fun h => hdvd (pow_dvd_magnitude h)) hd
        _ = d * 2 ^ e * 2 ^ 23 := by ring
    have hlow := hlow he
    have hnear := (nearestEven_nearest (n := n) hpos (2 ^ 23)).1
    have hfar : ((n : Int) - (d * 2 ^ e : Nat) * (2 ^ 23 : Nat)).natAbs < ((n : Int) - d * magnitude x).natAbs := by
      rw [← Nat.cast_mul d]
      generalize d * 2 ^ e = u at *
      omega
    exact ⟨by omega, by omega⟩

/-- The rounded pattern is the infinity from the largest finite magnitude plus half a unit in its last place on (00_scope R11). -/
theorem roundBits_eq_infBits_iff {n d : Nat} (hd : 0 < d) :
    roundBits n d = infBits ↔ (2 ^ 25 - 1) * 2 ^ 252 * d ≤ n := by
  obtain ⟨hupper, hlower⟩ := roundBits_exponent (n := n) hd
  simp only [roundBits]
  generalize Nat.log2 (n / d) - 23 = e at *
  have hpos : 0 < d * 2 ^ e := by positivity
  have hbounds := fun lo h => nearestEven_bounds (lo := lo) (hi := 2 ^ 24) hpos h hupper
  have hmax := (hbounds 0 (by omega)).2
  have hinf : infBits = 255 * 2 ^ 23 := by decide
  rcases lt_trichotomy e 253 with he | rfl | he
  · have hd' : d * 2 ^ e ≤ d * 2 ^ 252 := by gcongr <;> omega
    omega
  · have hhalf := lt_nearestEven_iff (n := n) (k := 2 ^ 24 - 1) hpos (by decide)
    omega
  · have hd' : d * 2 ^ 254 ≤ d * 2 ^ e := by gcongr <;> omega
    have := hlower (by omega)
    have := (hbounds (2 ^ 23) this).1
    omega

/-- A positive magnitude of at least one count of 2^-149 does not round to a zero: the least subnormal is nearer. -/
theorem roundBits_ne_zero {n : Nat} (hn : 0 < n) : roundBits n 1 ≠ 0 := by
  intro hz
  have hnear := (roundBits_nearest Nat.one_pos (by rw [hz]; decide) false (n := n) (withSign false 1)).1
  rw [hz, show magnitude (withSign false 0) = 0 by decide, show magnitude (withSign false 1) = 1 by decide] at hnear
  omega

/-- An exact magnitude that is an integer of at most 24 bits times `2^e` is not changed by the rounding. -/
theorem magnitude_roundBits_exact (neg : Bool) {n d e : Nat} (hd : 0 < d) (hf : roundBits n d < infBits)
    (hdvd : d * 2 ^ e ∣ n) (hlt : n < 2 ^ (24 + e) * d) : d * magnitude (withSign neg (roundBits n d)) = n := by
  have hlog : Nat.log2 (n / d) < 24 + e := by
    rcases Nat.eq_zero_or_pos (n / d) with hz | hpos
    · simp [hz]
    · exact (Nat.log2_lt hpos.ne').mpr ((Nat.div_lt_iff_lt_mul hd).mpr hlt)
  rw [magnitude_roundBits neg hd hf]
  have hle : d * 2 ^ (Nat.log2 (n / d) - 23) ∣ n :=
    (Nat.mul_dvd_mul_left d (Nat.pow_dvd_pow 2 (by omega))).trans hdvd
  generalize Nat.log2 (n / d) - 23 = e' at *
  obtain ⟨k, rfl⟩ := hle
  rw [Nat.mul_comm _ k, nearestEven_mul k (by positivity)]
  ring

end RoundBits

section Classes
/-! ### The classes of patterns (00_scope R10) -/

theorem isNaN_of_isInf {x : F32} (h : isInf x = true) : isNaN x = false := by
  simp_all [isInf, isNaN]

theorem isZero_of_isInf {x : F32} (h : isInf x = true) : isZero x = false := by
  simp_all [isInf, isZero, infBits]

theorem isNaN_of_isZero {x : F32} (h : isZero x = true) : isNaN x = false := by
  simp_all [isZero, isNaN]

theorem isInf_of_isZero {x : F32} (h : isZero x = true) : isInf x = false := by
  simp_all [isZero, isInf, infBits]

theorem isZero_withSign (neg : Bool) {q : Nat} (h : q < 2 ^ 31) : isZero (withSign neg q) = true ↔ q = 0 := by
  rw [isZero, absBits_withSign neg h, beq_iff_eq]

theorem isNaN_withSign (neg : Bool) {q : Nat} (h : q ≤ infBits) : isNaN (withSign neg q) = false := by
  rw [isNaN, absBits_withSign neg (h.trans_lt (by decide)), decide_eq_false_iff_not]
  exact h.not_gt

theorem isInf_withSign (neg : Bool) {q : Nat} (h : q < infBits) : isInf (withSign neg q) = false := by
  rw [isInf, absBits_withSign neg (h.trans (by decide)), beq_eq_false_iff_ne]
  exact h.ne

theorem scaledValue_withSign (neg : Bool) {q : Nat} (h : q < 2 ^ 31) :
    scaledValue (withSign neg q) = (if neg then -1 else 1) * (magnitude (withSign neg q) : Int) := by
  rw [scaledValue, signBit_withSign neg h]
  cases neg <;> simp

end Classes

section Operations
/-! ### What each operation gives, by the classes of its operands (00_scope R11) -/

variable {a b : F32}

theorem fadd_of_isNaN (h : isNaN a = true ∨ isNaN b = true) : fadd a b = cNaN := by
  rcases h with h | h <;> simp [fadd, h]

theorem fmul_of_isNaN (h : isNaN a = true ∨ isNaN b = true) : fmul a b = cNaN := by
  rcases h with h | h <;> simp [fmul, h]

theorem fdiv_of_isNaN (h : isNaN a = true ∨ isNaN b = true) : fdiv a b = cNaN := by
  rcases h with h | h <;> simp [fdiv, h]

theorem fadd_finite (ha : isNaN a = false ∧ isInf a = false) (hb : isNaN b = false ∧ isInf b = false) :
    fadd a b = if scaledValue a + scaledValue b = 0 then withSign (signBit a && signBit b) 0
      else withSign (scaledValue a + scaledValue b < 0) (roundBits (scaledValue a + scaledValue b).natAbs 1) := by
  simp [fadd, ha, hb, roundF32]

theorem fadd_inf_opposite (ha : isInf a = true) (hb : isInf b = true) (hs : signBit a ≠ signBit b) : fadd a b = cNaN := by
  simp [fadd, ha, hb, hs]

theorem fadd_inf_left (ha : isInf a = true) (hb : isNaN b = false) (hs : isInf b = true → signBit a = signBit b) :
    fadd a b = a := by
  simp only [fadd, isNaN_of_isInf ha, hb, ha]
  cases hi : isInf b
  · simp
  · simp [hs hi]

theorem fadd_inf_right (ha : isNaN a = false ∧ isInf a = false) (hb : isInf b = true) : fadd a b = b := by
  simp [fadd, ha, hb, isNaN_of_isInf hb]

theorem fmul_comm (a b : F32) : fmul a b = fmul b a := by
  simp only [fmul, Bool.or_comm, bne_comm, Nat.mul_comm]

theorem fmul_finite (ha : isNaN a = false ∧ isInf a = false) (hb : isNaN b = false ∧ isInf b = false) :
    fmul a b = withSign (signBit a != signBit b) (roundBits (magnitude a * magnitude b) (2 ^ 149)) := by
  simp [fmul, ha, hb, roundF32]

theorem fmul_inf_zero (ha : isInf a = true) (hb : isZero b = true) : fmul a b = cNaN := by
  simp [fmul, isNaN_of_isInf ha, isNaN_of_isZero hb, ha, hb]

theorem fmul_inf (ha : isInf a = true) (hb : isNaN b = false) (hz : isZero b = false) :
    fmul a b = withSign (signBit a != signBit b) infBits := by
  simp [fmul, isNaN_of_isInf ha, isZero_of_isInf ha, ha, hb, hz]

theorem fdiv_finite (ha : isNaN a = false ∧ isInf a = false) (hb : isNaN b = false ∧ isInf b = false)
    (hz : isZero b = false) :
    fdiv a b = withSign (signBit a != signBit b) (roundBits (magnitude a * 2 ^ 149) (magnitude b)) := by
  simp [fdiv, ha, hb, hz, roundF32]

theorem fdiv_inf_inf (ha : isInf a = true) (hb : isInf b = true) : fdiv a b = cNaN := by
  simp [fdiv, isNaN_of_isInf ha, isNaN_of_isInf hb, ha, hb]

theorem fdiv_inf_left (ha : isInf a = true) (hb : isNaN b = false ∧ isInf b = false) :
    fdiv a b = withSign (signBit a != signBit b) infBits := by
  simp [fdiv, isNaN_of_isInf ha, ha, hb]

theorem fdiv_inf_right (ha : isNaN a = false ∧ isInf a = false) (hb : isInf b = true) :
    fdiv a b = withSign (signBit a != signBit b) 0 := by
  simp [fdiv, isNaN_of_isInf hb, ha, hb]

theorem fdiv_zero_zero (ha : isZero a = true) (hb : isZero b = true) : fdiv a b = cNaN := by
  simp [fdiv, isNaN_of_isZero ha, isNaN_of_isZero hb, isInf_of_isZero ha, isInf_of_isZero hb, ha, hb]

theorem fdiv_by_zero (ha : isNaN a = false ∧ isInf a = false) (hz : isZero a = false) (hb : isZero b = true) :
    fdiv a b = withSign (signBit a != signBit b) infBits := by
  simp [fdiv, isNaN_of_isZero hb, isInf_of_isZero hb, ha, hz, hb]

/-- A result that is CNAN or has a sign of its own is a zero only as the zero of that sign. -/
theorem eq_zero_of_isZero {x : F32} {neg : Bool} (h : x = cNaN ∨ ∃ q ≤ infBits, x = withSign neg q) (hz : isZero x = true) :
    x = withSign neg 0 := by
  rcases h with rfl | ⟨q, hq, rfl⟩
  · exact absurd hz (by decide)
  · rw [(isZero_withSign neg (hq.trans_lt (by decide))).mp hz]

/-- A product is CNAN or has the exclusive-or of the signs. -/
theorem fmul_sign (a b : F32) : fmul a b = cNaN ∨ ∃ q ≤ infBits, fmul a b = withSign (signBit a != signBit b) q := by
  simp only [fmul]
  split
  · exact .inl rfl
  · split
    · split
      · exact .inl rfl
      · exact .inr ⟨_, le_rfl, rfl⟩
    · exact .inr ⟨_, roundBits_le_infBits _ _, rfl⟩

/-- A quotient is CNAN or has the exclusive-or of the signs. -/
theorem fdiv_sign (a b : F32) : fdiv a b = cNaN ∨ ∃ q ≤ infBits, fdiv a b = withSign (signBit a != signBit b) q := by
  simp only [fdiv]
  split
  · exact .inl rfl
  · split
    · split
      · exact .inl rfl
      · exact .inr ⟨_, le_rfl, rfl⟩
    · split
      · exact .inr ⟨_, Nat.zero_le _, rfl⟩
      · split
        · split
          · exact .inl rfl
          · exact .inr ⟨_, le_rfl, rfl⟩
        · exact .inr ⟨_, roundBits_le_infBits _ _, rfl⟩

/-- A zero sum of finite operands is an exact one, and so has the sign both operands have, else `+0.0`. -/
theorem fadd_of_isZero (ha : isNaN a = false ∧ isInf a = false) (hb : isNaN b = false ∧ isInf b = false)
    (hz : isZero (fadd a b) = true) : fadd a b = withSign (signBit a && signBit b) 0 := by
  rw [fadd_finite ha hb] at hz ⊢
  split at hz
  · next hv => rw [if_pos hv]
  · next hv =>
    have hq := (isZero_withSign _ ((roundBits_le_infBits _ _).trans_lt (by decide))).mp hz
    exact absurd hq (roundBits_ne_zero (Int.natAbs_pos.mpr hv))

end Operations

section Settled
/-! ### The statements -/

/-- Settles O45: each clause is the operation's equation for the classes of its operands; a zero result has its sign. -/
theorem specialFloatResults : Obligations.SpecialFloatResults := by
  intro a b
  refine ⟨fun h => ⟨fadd_of_isNaN h, fmul_of_isNaN h, fdiv_of_isNaN h⟩, fadd_inf_opposite,
    fun ha hb => ⟨fmul_inf_zero ha hb, fmul_comm b a ▸ fmul_inf_zero ha hb⟩, fdiv_zero_zero, fdiv_inf_inf,
    fun hn hi hz hb => fdiv_by_zero ⟨hn, hi⟩ hz hb,
    fun ha hn hi => ⟨fadd_inf_left ha hn (by simp [hi]), fadd_inf_right ⟨hn, hi⟩ ha, fdiv_inf_left ha ⟨hn, hi⟩,
      fdiv_inf_right ⟨hn, hi⟩ ha, fun hz => ⟨fmul_inf ha hn hz, ?_⟩⟩,
    fun ha hb hs => fadd_inf_left ha (isNaN_of_isInf hb) fun _ => hs,
    fun ha hb => fmul_inf ha (isNaN_of_isInf hb) (isZero_of_isInf hb), eq_zero_of_isZero (fmul_sign a b),
    eq_zero_of_isZero (fdiv_sign a b), by decide, by decide, fun hna hia hnb hib hs hz => ?_⟩
  · rw [fmul_comm, bne_comm]
    exact fmul_inf ha hn hz
  · have hneg : (signBit a && signBit b) = false := by
      cases ha : signBit a <;> simp_all
    rw [fadd_of_isZero ⟨hna, hia⟩ ⟨hnb, hib⟩ hz, hneg]
    rfl

/-- Settles O46: a magnitude below 2^24 has 24 bits and is not rounded, and 2^24 itself is a power of two. -/
theorem smallIntegersConvertExactly : Obligations.SmallIntegersConvertExactly := by
  refine ⟨fun n hn => ?_, by decide⟩
  have hf : roundBits (n.natAbs * 2 ^ 149) 1 < infBits := roundBits_finite Nat.one_pos (by omega)
  have hexact : magnitude (withSign (n < 0) (roundBits (n.natAbs * 2 ^ 149) 1)) = n.natAbs * 2 ^ 149 := by
    rw [← Nat.one_mul (magnitude _)]
    rcases hn.lt_or_eq with hlt | heq
    · exact magnitude_roundBits_exact (e := 149) _ Nat.one_pos hf (by simp) (by omega)
    · exact magnitude_roundBits_exact (e := 150) _ Nat.one_pos hf (by rw [heq]; decide) (by rw [heq]; decide)
  rw [i2f, roundF32]
  refine ⟨?_, isNaN_withSign _ hf.le, isInf_withSign _ hf⟩
  rw [scaledValue_withSign _ (hf.trans (by decide)), hexact]
  rcases lt_or_ge n 0 with hs | hs
  · simp [hs, abs_of_neg]
  · simp [hs.not_gt, abs_of_nonneg hs]

/-- Settles O44: the value by the fields, each operation as one rounding of the exact result, and the rounding's threshold and
nearness from `roundBits_eq_infBits_iff` and `roundBits_nearest`. -/
theorem roundingIsToNearestEven : Obligations.RoundingIsToNearestEven := by
  refine ⟨fun neg e f he hf => ?_, fun a b hna hia hnb hib => ⟨fun hv => ?_, ?_, fun hv => ?_⟩, fun _ => rfl,
    fun n d hd => ⟨roundBits_eq_infBits_iff hd, roundBits_le_infBits n d, fun hr q hq => ?_⟩⟩
  · rw [scaledValue_withSign neg (by omega), magnitude_fields neg (by omega) hf]
    push_cast
    rfl
  · rw [fadd_finite ⟨hna, hia⟩ ⟨hnb, hib⟩, if_neg hv]
  · rw [fmul_finite ⟨hna, hia⟩ ⟨hnb, hib⟩, Int.natAbs_mul, natAbs_scaledValue, natAbs_scaledValue]
  · have hz : isZero b = false := by
      rw [← Bool.not_eq_true, ← magnitude_eq_zero, ← natAbs_scaledValue]
      simpa using hv
    rw [fdiv_finite ⟨hna, hia⟩ ⟨hnb, hib⟩ hz, natAbs_scaledValue, natAbs_scaledValue]
  · have hinf : infBits < 2 ^ 31 := by decide
    obtain ⟨hle, heven⟩ := roundBits_nearest hd hr false (withSign false q)
    exact ⟨hle, fun heq hne => heven heq fun h => hne (magnitude_withSign_inj (hq.trans hinf) (hr.trans hinf) h)⟩

end Settled

end Sys2Proof.Machine
end

section
/-! PROOFS. The statements about the registers and about what changes memory (spec/10_state.md): the register window and the single
registers (R22 to R25, R33, R38, R39), what a turn does to SEQ and RESULT (R27, R31), the bytes a turn stores (R36), and the
invariants every step keeps (R34, R35, log 4). -/

namespace Sys2Proof.Machine

open Sys2Proof.Safety

section Window
/-! ### The register window (10_state R22, R33) -/

/-- Only an aligned offset inside the window holds a register. -/
theorem regAt_eq_none {n : Nat} (h : n % 8 ≠ 0 ∨ 0x40 ≤ n) : regAt n = none := by
  unfold regAt
  split
  case h_9 => rfl
  all_goals omega

/-- An 8-byte access at an offset reaches the register at that offset. -/
theorem accessedReg_base_add (off : Word) (e : Engine) : accessedReg (e.base + off) 8 e = regAt off.toNat := by
  simp [accessedReg]

/-- An access of another size or alignment, or outside the window, reaches no register. -/
theorem accessedReg_eq_none {addr : Word} {size : Nat} {e : Engine}
    (h : size ≠ 8 ∨ addr.toNat % 8 ≠ 0 ∨ 0x40 ≤ (addr - e.base).toNat) : accessedReg addr size e = none := by
  unfold accessedReg
  split
  · next hsize =>
    have hbase := e.toNat_base
    have hlt := e.baseBlock.isLt
    refine regAt_eq_none (h.resolve_left (· hsize) |>.imp_left fun halign => ?_)
    rw [BitVec.toNat_sub]
    omega
  · rfl

variable {addr w : Word} {size : Nat} {s : State}

/-- A read that reaches a register returns its value and does nothing else. -/
theorem regReadTurn_of_accessedReg {r : Reg} (h : accessedReg addr size s.eng = some r) :
    regReadTurn addr size s = .next { s with hostData := readReg r s.eng } := by
  simp only [regReadTurn, h]

/-- A write that reaches a register is that register's write. -/
theorem regWriteTurn_of_accessedReg {r : Reg} (h : accessedReg addr size s.eng = some r) :
    regWriteTurn addr size w s = .next (writeReg r w s) := by
  simp only [regWriteTurn, h]

/-- An access that reaches no register is refused. -/
theorem regTurns_of_accessedReg_none (h : accessedReg addr size s.eng = none) :
    regReadTurn addr size s = .refused (.registerAccess addr size) ∧
      regWriteTurn addr size w s = .refused (.registerAccess addr size) := by
  simp only [regReadTurn, regWriteTurn, h, and_self]

/-- An aligned access in the window reads and writes the register at its offset. -/
theorem regTurns_at {r : Reg} (off : Word) (hr : regAt off.toNat = some r) (ha : addr = s.eng.base + off) :
    regReadTurn addr 8 s = .next { s with hostData := readReg r s.eng } ∧
      regWriteTurn addr 8 w s = .next (writeReg r w s) := by
  have h : accessedReg addr 8 s.eng = some r := by rw [ha, accessedReg_base_add, hr]
  exact ⟨regReadTurn_of_accessedReg h, regWriteTurn_of_accessedReg h⟩

end Window

section SingleRegisters
/-! ### What the registers read (10_state R23 to R25, R39) -/

theorem readReg_id (e : Engine) : readReg .id e = 0x4244514701000408 := rfl

theorem ctrlWord_eq (e : Engine) : ctrlWord e = if e.irqEn then 1 else 0 := by
  unfold ctrlWord
  cases e.irqEn <;> rfl

/-- STATUS holds BUSY, DONE and ERR in its bits 0, 1 and 2, and nothing above them. -/
theorem statusWord_bits (e : Engine) :
    (statusWord e).getLsbD 0 = e.busy ∧ (statusWord e).getLsbD 1 = e.done ∧ (statusWord e).getLsbD 2 = e.err ∧
      (statusWord e).toNat < 8 := by
  unfold statusWord
  cases e.busy <;> cases e.done <;> cases e.err <;> decide

/-- After a reset ID reads its value and every other register 0 (10_state R39). -/
theorem readReg_afterReset (b : BitVec 58) (d : Descriptor) (r : Reg) :
    readReg r (Engine.afterReset b d) = if r = .id then 0x4244514701000408 else 0 := by
  cases r <;> rfl

theorem irq_afterReset (b : BitVec 58) (d : Descriptor) : irq (Engine.afterReset b d) = false := rfl

/-- CTRL looks only at the two low bits of the value written. -/
theorem writeCtrl_congr {v w : Word} (s : State) (h0 : v.getLsbD 0 = w.getLsbD 0) (h1 : v.getLsbD 1 = w.getLsbD 1) :
    writeCtrl v s = writeCtrl w s := by
  simp only [writeCtrl, h0, h1]

/-- STATUS looks only at bits 1 and 2 of the value written. -/
theorem clearStatus_congr {v w : Word} (e : Engine) (h1 : v.getLsbD 1 = w.getLsbD 1) (h2 : v.getLsbD 2 = w.getLsbD 2) :
    clearStatus v e = clearStatus w e := by
  simp only [clearStatus, h1, h2]

/-- A soft reset, asked for while not BUSY (70_reset R182). -/
theorem writeReg_ctrl_softReset {w : Word} {s : State} (hb : s.eng.busy = false) (hw : w.getLsbD 1 = true) :
    writeReg .ctrl w s = resetRegisters s := by
  simp [writeReg, writeCtrl, hb, hw]

/-- An engine that is not busy runs no command. -/
theorem runningJob_of_not_busy {e : Engine} (mapped : List Range) (hb : e.busy = false) : runningJob mapped e = none := by
  simp [runningJob, hb]

/-- A hard reset taken while not BUSY touches the registers only (70_reset R181). -/
theorem hardReset_of_not_busy {s : State} (hb : s.eng.busy = false) : hardReset s = resetRegisters s := by
  simp only [hardReset, runningJob_of_not_busy s.mapped hb]

end SingleRegisters

section Counters
/-! ### What a turn does to SEQ and RESULT (10_state R27, R31) -/

/-- A register write resets exactly when it is a soft reset taken while not BUSY. -/
theorem resets_regWrite {addr w : Word} {size : Nat} {r : Reg} {s : State} (h : accessedReg addr size s.eng = some r) :
    resets s (.regWrite addr size w) = true ↔ r = .ctrl ∧ w.getLsbD 1 = true ∧ s.eng.busy = false := by
  by_cases hr : r = .ctrl <;> simp [resets, writesReg, h, hr]

/-- A register write is a soft reset, or keeps SEQ and RESULT. -/
theorem writeReg_counters (r : Reg) (w : Word) (s : State) :
    (r = .ctrl ∧ w.getLsbD 1 = true ∧ s.eng.busy = false ∧ writeReg r w s = resetRegisters s) ∨
      (¬(r = .ctrl ∧ w.getLsbD 1 = true ∧ s.eng.busy = false) ∧ (writeReg r w s).eng.seq = s.eng.seq ∧
        (writeReg r w s).eng.result = s.eng.result) := by
  by_cases hreset : r = .ctrl ∧ w.getLsbD 1 = true ∧ s.eng.busy = false
  · obtain ⟨rfl, hw, hb⟩ := hreset
    exact .inl ⟨rfl, hw, hb, writeReg_ctrl_softReset hb hw⟩
  · refine .inr ⟨hreset, ?_⟩
    rcases writeReg_cases r w s with e | ⟨hr, hw, hb, -⟩ | ⟨-, -, e⟩ | ⟨-, e⟩ | ⟨-, hb, he, e⟩
    · simp [e]
    · exact absurd ⟨hr, hw, hb⟩ hreset
    · simp [e]
    · simp [e]
    · simp [e, ringDoorbell_accepted hb he]

/-- A step of the selected engine is a reset, the turn of a busy engine, or keeps SEQ and RESULT. -/
theorem step_counters {s t : State} (hu : notSelect (nextTurn s) = true) (h : step s = .next t) :
    (resets s (nextTurn s) = true ∧ nextTurn s ≠ .engine ∧
      t.eng = Engine.afterReset s.eng.baseBlock s.eng.latch) ∨
    (resets s (nextTurn s) = false ∧ nextTurn s = .engine ∧ s.eng.busy = true ∧
      ((∃ c, t.eng = (takeFault c s).eng) ∨
        ∃ r, t.eng = (complete r s).eng ∧
          (r ≠ none → ∃ i, decode s.eng.latch = .ok i ∧ (queryValue i).isSome = true))) ∨
    (resets s (nextTurn s) = false ∧ (nextTurn s ≠ .engine ∨ s.eng.busy = false) ∧ t.eng.seq = s.eng.seq ∧
      t.eng.result = s.eng.result) := by
  rw [step_eq] at h
  generalize nextTurn s = u at hu h ⊢
  rcases takeTurn_cases h with ⟨rfl, h⟩ | ⟨addr, size, r, rfl, hr, rfl⟩ | ⟨addr, size, w, r, rfl, hr, rfl⟩ |
    ⟨a, rfl, rfl⟩ | ⟨a, b, rfl, rfl⟩ | ⟨rfl, rfl⟩ | ⟨k, e, rfl, -, -⟩
  · rcases engineTurn_engine h with ⟨hb, rfl⟩ | ⟨hb, he⟩
    · exact .inr (.inr ⟨rfl, .inr hb, rfl, rfl⟩)
    · exact .inr (.inl ⟨rfl, rfl, hb, he⟩)
  · exact .inr (.inr ⟨rfl, .inl nofun, rfl, rfl⟩)
  · rcases writeReg_counters r w { s with turns := s.turns.tail } with ⟨hctrl, hw, hb, e⟩ | ⟨hnot, hseq, hresult⟩
    · exact .inl ⟨(resets_regWrite hr).mpr ⟨hctrl, hw, hb⟩, nofun, by rw [e, resetRegisters_eng]⟩
    · exact .inr (.inr ⟨Bool.eq_false_iff.mpr (mt (resets_regWrite hr).mp hnot), .inl nofun, hseq, hresult⟩)
  · exact .inr (.inr ⟨rfl, .inl nofun, rfl, rfl⟩)
  · refine .inr (.inr ⟨rfl, .inl nofun, ?_⟩)
    rcases disturbAt_cases s.mapped a.toNat s.eng with e | e <;> simp [e]
  · exact .inl ⟨rfl, nofun, hardReset_engine _⟩
  · exact absurd hu (by simp [notSelect])

/-- A running command finds DONE and ERR at 0 (10_state R34). -/
theorem done_err_of_busy {e : Engine} (h : oneCondition e) (hb : e.busy = true) : e.done = false ∧ e.err = false := by
  rcases h with ⟨hidle, -⟩ | ⟨-, hdone, herr⟩ | ⟨hidle, -⟩
  · simp [hb] at hidle
  · exact ⟨hdone, herr⟩
  · simp [hb] at hidle

/-- The command a descriptor decodes to has the descriptor's opcode (30_encoding R75). -/
theorem opcode_of_decode {d : Descriptor} {i : Instr} (h : decode d = .ok i) : i.opcode = d.opcode := by
  have hselect : d.select = some i := by
    unfold decode at h
    split at h
    · simp at h
    · next j hj =>
      split at h
      · simp at h
      · rw [hj, Except.ok.inj h]
  unfold Descriptor.select at hselect
  apply BitVec.eq_of_toNat_eq
  split at hselect
  case h_9 => simp at hselect
  all_goals
    next hop =>
    rw [← Option.some.inj hselect, hop]
    rfl

/-- The commands that return a value are PACKSZ, WSSZ and WSALIGN (30_encoding R75, R81). -/
theorem query_opcode {i : Instr} (h : (queryValue i).isSome = true) : i.opcode ∈ [(0x01 : Byte), 0x03, 0x04] := by
  cases i with
  | packsz | wssz | wsalign => simp [Instr.opcode]
  | pack | gemmf | deq | gemmi | qrow => simp [queryValue] at h

end Counters

section MemoryEffect
/-! ### The bytes a turn stores (10_state R36, 20_memory R64, log 4) -/

/-- A command's effect on memory is a list of stores, each made after the checks and inside the write footprint. -/
theorem exec_mem {i : Instr} {s t : State} (h : exec i s = .next t) :
    ∃ ws, t.mem = s.mem.store ws ∧ ∀ w ∈ ws, checkInstr i = none ∧ inRanges (writeFootprint i) w.1 = true := by
  rcases exec_cases i s with ⟨c, -, e⟩ | ⟨r, -, -, e⟩ | ⟨hc, -, -, e⟩ | ⟨hc, -, -, -, e⟩ | ⟨hc, -, -, -, e⟩ <;>
    rw [e] at h <;> obtain rfl := Host.Outcome.next.inj h
  · exact ⟨[], rfl, by simp⟩
  · exact ⟨[], rfl, by simp⟩
  · exact ⟨_, rfl, fun w hw => ⟨hc, freeStores_addr hw⟩⟩
  · exact ⟨_, rfl, fun w hw => ⟨hc, freeStores_addr hw⟩⟩
  · exact ⟨_, rfl, fun w hw => ⟨hc, storesOf_addr hc hw⟩⟩

/-- The engine's effect on memory is a list of stores, each made by a running command that has passed its checks, inside that
command's write footprint. -/
theorem engineTurn_mem {s t : State} (h : engineTurn s = .next t) :
    ∃ ws, t.mem = s.mem.store ws ∧ ∀ w ∈ ws, ∃ i, runningJob s.mapped s.eng = some i ∧ checkInstr i = none ∧
      inRanges (writeFootprint i) w.1 = true := by
  rcases engineTurn_cases s with ⟨-, e⟩ | ⟨c, -, -, e⟩ | ⟨d, -, -, -, e⟩ | ⟨i, hb, hf, hd, e⟩ <;> rw [e] at h
  · obtain rfl := Host.Outcome.next.inj h
    exact ⟨[], rfl, by simp⟩
  · obtain rfl := Host.Outcome.next.inj h
    exact ⟨[], rfl, by simp⟩
  · obtain rfl := Host.Outcome.next.inj h
    exact ⟨[], rfl, by simp⟩
  · obtain ⟨ws, hmem, hws⟩ := exec_mem h
    exact ⟨ws, hmem, fun w hw => ⟨i, runningJob_eq_some.mpr ⟨hb, hf, hd⟩, hws w hw⟩⟩

/-- No register write touches memory (log 15). -/
theorem writeReg_mem (r : Reg) (w : Word) (s : State) : (writeReg r w s).mem = s.mem := by
  rcases writeReg_cases r w s with e | ⟨-, -, -, e⟩ | ⟨-, -, e⟩ | ⟨-, e⟩ | ⟨-, hb, he, e⟩ <;> rw [e]
  · rfl
  · rw [ringDoorbell_accepted hb he]

/-- Every turn's effect on memory is a list of stores. -/
theorem takeTurn_mem {u : Turn} {s t : State} (h : takeTurn u s = .next t) : ∃ ws, t.mem = s.mem.store ws := by
  rcases takeTurn_cases h with ⟨-, h⟩ | ⟨addr, size, r, -, -, rfl⟩ | ⟨addr, size, w, r, -, -, rfl⟩ | ⟨a, -, rfl⟩ |
    ⟨a, b, -, rfl⟩ | ⟨-, rfl⟩ | ⟨k, e, -, -, rfl⟩
  · obtain ⟨ws, hmem, -⟩ := engineTurn_mem h
    exact ⟨ws, hmem⟩
  · exact ⟨[], rfl⟩
  · exact ⟨[], writeReg_mem r w s⟩
  · exact ⟨[], rfl⟩
  · exact ⟨[(a.toNat, b)], rfl⟩
  · rcases hardReset_cases s with ⟨-, e⟩ | ⟨i, -, e⟩ <;> rw [e]
    · exact ⟨[], rfl⟩
    · exact ⟨_, rfl⟩
  · exact ⟨[], rfl⟩

end MemoryEffect

section OtherEngines
/-! ### What a turn does to the other engines (60_exceptions R171) -/

theorem disturbOthers_specRegisters (i : Instr) (s : State) :
    (disturbOthers i s).others.map specRegisters = s.others.map specRegisters := by
  simp only [disturbOthers_others, List.map_map]
  refine List.map_congr_left fun e _ => ?_
  simp only [Function.comp]
  split <;> rfl

theorem disturbAt_specRegisters (mapped : List Range) (a : Nat) (e : Engine) :
    specRegisters (disturbAt mapped a e) = specRegisters e := by
  rcases disturbAt_cases mapped a e with h | h <;> rw [h]
  rfl

/-- A command sets no more than the model's own flag in another engine. -/
theorem exec_others {i : Instr} {s t : State} (h : exec i s = .next t) :
    t.others.map specRegisters = s.others.map specRegisters := by
  rcases exec_cases i s with ⟨c, -, e⟩ | ⟨r, -, -, e⟩ | ⟨-, -, -, e⟩ | ⟨-, -, -, -, e⟩ | ⟨-, -, -, -, e⟩ <;>
    rw [e] at h <;> obtain rfl := Host.Outcome.next.inj h
  · rfl
  · rfl
  · exact disturbOthers_specRegisters i s
  · exact disturbOthers_specRegisters i s
  · rfl

theorem engineTurn_others {s t : State} (h : engineTurn s = .next t) :
    t.others.map specRegisters = s.others.map specRegisters := by
  rcases engineTurn_cases s with ⟨-, e⟩ | ⟨c, -, -, e⟩ | ⟨d, -, -, -, e⟩ | ⟨i, -, -, -, e⟩ <;> rw [e] at h
  · obtain rfl := Host.Outcome.next.inj h
    rfl
  · obtain rfl := Host.Outcome.next.inj h
    rfl
  · obtain rfl := Host.Outcome.next.inj h
    rfl
  · exact exec_others h

theorem writeReg_others (r : Reg) (w : Word) (s : State) : (writeReg r w s).others = s.others := by
  rcases writeReg_cases r w s with e | ⟨-, -, -, e⟩ | ⟨-, -, e⟩ | ⟨-, e⟩ | ⟨-, hb, he, e⟩ <;> rw [e]
  · rfl
  · rw [ringDoorbell_accepted hb he]

/-- No turn but a select changes what the spec gives another engine. -/
theorem takeTurn_others {u : Turn} {s t : State} (hu : notSelect u = true) (h : takeTurn u s = .next t) :
    t.others.map specRegisters = s.others.map specRegisters := by
  rcases takeTurn_cases h with ⟨-, h⟩ | ⟨addr, size, r, -, -, rfl⟩ | ⟨addr, size, w, r, -, -, rfl⟩ | ⟨a, -, rfl⟩ |
    ⟨a, b, -, rfl⟩ | ⟨-, rfl⟩ | ⟨k, e, rfl, -, -⟩
  · exact engineTurn_others h
  · rfl
  · rw [writeReg_others]
  · rfl
  · simp only [memWriteTurn_others, List.map_map]
    exact List.map_congr_left fun e _ => disturbAt_specRegisters s.mapped a.toNat e
  · rcases hardReset_cases s with ⟨-, e⟩ | ⟨i, -, e⟩ <;> rw [e]
    · rfl
    · exact disturbOthers_specRegisters i s
  · exact absurd hu (by simp [notSelect])

end OtherEngines

section RegisterInvariant
/-! ### The invariant of an engine's registers (10_state R34, R35) -/

theorem engineOk_afterReset (b : BitVec 58) (d : Descriptor) : engineOk (Engine.afterReset b d) :=
  ⟨.inl ⟨rfl, rfl⟩, fun _ => ⟨rfl, rfl⟩, nofun⟩

/-- The fault codes are 1 to 7 (60_exceptions R151). -/
theorem faultNumber_bounds (c : FaultCode) : 1 ≤ (faultNumber c).toNat ∧ (faultNumber c).toNat ≤ 7 := by
  cases c <;> decide

/-- Fault entry takes a busy engine to the faulted condition. -/
theorem engineOk_takeFault (c : Cause) {s : State} (h : engineOk s.eng) (hb : s.eng.busy = true) :
    engineOk (takeFault c s).eng :=
  ⟨.inr (.inr ⟨rfl, rfl, (done_err_of_busy h.1 hb).1⟩), nofun, fun _ => faultNumber_bounds c.code⟩

/-- Completion takes a busy engine to the idle condition. -/
theorem engineOk_complete (r : Option Word) {s : State} (h : engineOk s.eng) (hb : s.eng.busy = true) :
    engineOk (complete r s).eng :=
  ⟨.inl ⟨rfl, (done_err_of_busy h.1 hb).2⟩, h.2⟩

/-- An accepted doorbell takes an idle engine to the busy condition. -/
theorem engineOk_ringDoorbell (a : Word) {s : State} (h : engineOk s.eng) (hb : s.eng.busy = false) (he : s.eng.err = false) :
    engineOk (ringDoorbell a s).eng := by
  rw [ringDoorbell_accepted hb he]
  exact ⟨.inr (.inl ⟨rfl, rfl, he⟩), h.2⟩

/-- A write to STATUS takes a faulted engine to the idle condition or leaves the condition as it was. -/
theorem engineOk_clearStatus (w : Word) {e : Engine} (h : engineOk e) : engineOk (clearStatus w e) := by
  obtain ⟨hcond, hrec⟩ := h
  simp only [engineOk, oneCondition, errRecorded, clearStatus_busy, clearStatus_err, clearStatus_errCode,
    clearStatus_errInfo]
  by_cases hclear : (w.getLsbD 2 && e.err) = true
  · have hidle : e.busy = false := by
      rcases hcond with ⟨hb, -⟩ | ⟨-, -, he⟩ | ⟨hb, -⟩
      · exact hb
      · simp [he] at hclear
      · exact hb
    simp only [if_pos hclear, hidle]
    simp
  · have hdone : e.done = false → (clearStatus w e).done = false := fun hd => by simp [hd]
    simp only [if_neg hclear]
    refine ⟨?_, hrec⟩
    rcases hcond with hidle | ⟨hb, hd, he⟩ | ⟨hb, he, hd⟩
    · exact .inl hidle
    · exact .inr (.inl ⟨hb, hdone hd, he⟩)
    · exact .inr (.inr ⟨hb, he, hdone hd⟩)

theorem engineOk_writeReg (r : Reg) (w : Word) {s : State} (h : engineOk s.eng) : engineOk (writeReg r w s).eng := by
  rcases writeReg_cases r w s with e | ⟨-, -, -, e⟩ | ⟨-, -, e⟩ | ⟨-, e⟩ | ⟨-, hb, he, e⟩ <;> rw [e]
  · exact h
  · exact engineOk_afterReset _ _
  · exact h
  · exact engineOk_clearStatus w h
  · exact engineOk_ringDoorbell w h hb he

theorem engineOk_engineTurn {s t : State} (h : engineOk s.eng) (ht : engineTurn s = .next t) : engineOk t.eng := by
  rcases engineTurn_engine ht with ⟨-, rfl⟩ | ⟨hb, ⟨c, e⟩ | ⟨r, e, -⟩⟩
  · exact h
  · rw [e]
    exact engineOk_takeFault c h hb
  · rw [e]
    exact engineOk_complete r h hb

/-- The invariant does not look at the model's own flag. -/
theorem engineOk_specRegisters (e : Engine) : engineOk (specRegisters e) ↔ engineOk e := Iff.rfl

/-- Engine lists that agree but for the model's own flag meet the invariant together. -/
theorem forall_engineOk_congr {es fs : List Engine} (h : es.map specRegisters = fs.map specRegisters) :
    (∀ e ∈ es, engineOk e) ↔ ∀ e ∈ fs, engineOk e := by
  have hmap : ∀ l : List Engine, (∀ e ∈ l.map specRegisters, engineOk e) ↔ ∀ e ∈ l, engineOk e := fun l => by
    simp only [List.forall_mem_map, engineOk_specRegisters]
  rw [← hmap es, h, hmap]

/-- A turn but a select keeps the invariant of the selected engine. -/
theorem engineOk_takeTurn {u : Turn} {s t : State} (hu : notSelect u = true) (h : engineOk s.eng)
    (ht : takeTurn u s = .next t) : engineOk t.eng := by
  rcases takeTurn_cases ht with ⟨-, ht⟩ | ⟨addr, size, r, -, -, rfl⟩ | ⟨addr, size, w, r, -, -, rfl⟩ | ⟨a, -, rfl⟩ |
    ⟨a, b, -, rfl⟩ | ⟨-, rfl⟩ | ⟨k, e, rfl, -, -⟩
  · exact engineOk_engineTurn h ht
  · exact h
  · exact engineOk_writeReg r w h
  · exact h
  · rw [memWriteTurn_eng, ← engineOk_specRegisters, disturbAt_specRegisters]
    exact h
  · rw [hardReset_engine]
    exact engineOk_afterReset _ _
  · exact absurd hu (by simp [notSelect])

/-- Selecting another engine permutes the engines, so the invariant of all of them stays. -/
theorem registersOk_selectTurn {k : Nat} {s t : State} (h : registersOk s) (ht : selectTurn k s = .next t) :
    registersOk t := by
  obtain ⟨heng, hothers⟩ := h
  unfold selectTurn at ht
  split at ht
  · simp at ht
  · next e hk =>
    obtain rfl := Host.Outcome.next.inj ht
    refine ⟨hothers e (List.mem_of_getElem? hk), fun f hf => ?_⟩
    rcases List.mem_or_eq_of_mem_set hf with hf | rfl
    · exact hothers f hf
    · exact heng

theorem registersOk_takeTurn {u : Turn} {s t : State} (h : registersOk s) (ht : takeTurn u s = .next t) : registersOk t := by
  obtain ⟨heng, hothers⟩ := h
  cases u with
  | select k => exact registersOk_selectTurn ⟨heng, hothers⟩ ht
  | engine | regRead | regWrite | memRead | memWrite | hardReset =>
    exact ⟨engineOk_takeTurn rfl heng ht, (forall_engineOk_congr (takeTurn_others rfl ht)).mpr hothers⟩

end RegisterInvariant

section StateSettled
/-! ### The statements -/

/-- Settles O17: ID has no storage. -/
theorem idIsHardWired : Obligations.IdIsHardWired := by
  intro s w
  rw [readReg_id]
  exact ⟨rfl, by decide, by decide, by decide, by decide, by decide, rfl⟩

/-- Settles O18: the branches of `writeCtrl` in turn. -/
theorem ctrlRegisterRule : Obligations.CtrlRegisterRule := by
  intro s w
  refine ⟨ctrlWord_eq s.eng, fun hw => ?_, fun hw hb => ?_, fun hw hb => writeReg_ctrl_softReset hb hw,
    writeCtrl_congr s (by simp) (by simp), fun hirq => ?_, rfl⟩
  · simp only [writeReg, writeCtrl, hw, Bool.false_eq_true, if_false]
  · simp only [writeReg, writeCtrl, hw, hb, if_true]
  · simp [irq, hirq]

/-- Settles O19: the bits from `statusWord_bits`, the clears by the bits of the value written. -/
theorem statusWriteClears : Obligations.StatusWriteClears := by
  intro s w
  obtain ⟨hbusy, hdone, herr, hlt⟩ := statusWord_bits s.eng
  refine ⟨hbusy, hdone, herr, hlt, ?_, ?_⟩
  · simp only [writeReg, clearStatus]
    cases w.getLsbD 1 <;> cases w.getLsbD 2 <;> simp
  · simp only [writeReg]
    rw [clearStatus_congr (v := w &&& 6) (w := w) s.eng (by simp) (by simp)]

/-- Settles O20: each register by `regTurns_at` at its offset, the refusals by `accessedReg_eq_none`. -/
theorem registerAccessRule : Obligations.RegisterAccessRule := by
  intro s addr w size
  have hctrl : readReg .ctrl s.eng = if s.eng.irqEn then 1 else 0 := ctrlWord_eq s.eng
  refine ⟨by rw [s.eng.toNat_base]; omega, fun h => regTurns_of_accessedReg_none (accessedReg_eq_none h),
    fun h => regTurns_at 0x00 rfl (by simpa using h), fun h => hctrl ▸ regTurns_at 0x08 rfl h, regTurns_at 0x10 rfl,
    regTurns_at 0x18 rfl, regTurns_at 0x20 rfl, regTurns_at 0x28 rfl, regTurns_at 0x30 rfl, regTurns_at 0x38 rfl⟩

/-- Settles O23: the three bits are bit 0 of CTRL and bits 1 and 2 of STATUS. -/
theorem interruptIsALevel : Obligations.InterruptIsALevel := by
  intro e
  obtain ⟨-, hdone, herr, -⟩ := statusWord_bits e
  have hirq : (readReg .ctrl e).getLsbD 0 = e.irqEn := by
    rw [readReg, ctrlWord_eq]
    cases e.irqEn <;> rfl
  rw [hirq, readReg, hdone, herr, irq]

/-- Settles O24: all three resets leave an engine `Engine.afterReset`. -/
theorem registersAfterReset : Obligations.RegistersAfterReset := by
  intro s w
  refine ⟨readReg_afterReset _ _, irq_afterReset _ _, ?_, ?_, fun hb => ?_, fun hb hw => ?_⟩
  · rw [hardReset_engine]
    exact readReg_afterReset _ _
  · rw [hardReset_engine]
    exact irq_afterReset _ _
  · rw [hardReset_of_not_busy hb, resetRegisters_mem]
  · rw [writeReg_ctrl_softReset hb hw]
    exact ⟨readReg_afterReset _ _, irq_afterReset _ _, rfl⟩

/-- Settles O27: State.reset has one engine, right after reset, and lists no memory. -/
theorem resetMeetsTheInvariants : Obligations.ResetMeetsTheInvariants :=
  ⟨⟨engineOk_afterReset _ _, by simp [State.reset]⟩, Memory.wf_nil⟩

/-- Settles O21: by the three kinds of step of `step_counters`. -/
theorem seqCountsCompletedCommands : Obligations.SeqCountsCompletedCommands := by
  intro s t hok hu h
  rcases step_counters hu h with ⟨hreset, hne, he⟩ | ⟨hreset, hengine, hb, hrun⟩ | ⟨hreset, hidle, hseq, -⟩
  · exact ⟨fun _ => by rw [he, afterReset_seq], fun hengine => absurd hengine hne, fun hno => by simp [hreset] at hno⟩
  · refine ⟨fun hyes => by simp [hreset] at hyes, fun _ _ => ?_, fun _ hidle => by simp [hengine, hb] at hidle⟩
    obtain ⟨hdone, herr⟩ := done_err_of_busy hok.1 hb
    rcases hrun with ⟨c, he⟩ | ⟨r, he, -⟩
    · exact .inr (by simp [he, hdone])
    · exact .inl (by simp [he, herr])
  · exact ⟨fun hyes => by simp [hreset] at hyes, fun hengine hb => by simp [hengine, hb] at hidle, fun _ _ => hseq⟩

/-- Settles O22: of the three kinds of step of `step_counters`, a reset and a completion with a value change RESULT. -/
theorem resultChangesOnlyByQueries : Obligations.ResultChangesOnlyByQueries := by
  intro s t hok hu h hchanged
  rcases step_counters hu h with ⟨hreset, -, he⟩ | ⟨-, hengine, hb, hrun⟩ | ⟨-, -, -, hresult⟩
  · exact .inl ⟨hreset, by rw [he, afterReset_result]⟩
  · rcases hrun with ⟨c, he⟩ | ⟨r, he, hquery⟩
    · exact absurd (by rw [he, takeFault_result]) hchanged
    · have hr : r ≠ none := fun hr => hchanged (by simp [he, hr])
      obtain ⟨i, hdecode, hvalue⟩ := hquery hr
      refine .inr ⟨hengine, hb, by rw [he, complete_done], ?_, opcode_of_decode hdecode ▸ query_opcode hvalue⟩
      rw [he, complete_err]
      exact (done_err_of_busy hok.1 hb).2
  · exact absurd hresult hchanged

/-- Settles O29: a byte that changed is the address of one of the engine's stores (`engineTurn_mem`). -/
theorem engineWritesOnlyItsFootprint : Obligations.EngineWritesOnlyItsFootprint := by
  intro s t hwf h a hchanged
  obtain ⟨ws, hmem, hws⟩ := engineTurn_mem h
  obtain ⟨w, hw, rfl⟩ : ∃ w ∈ ws, w.1 = a := by
    by_contra hnone
    push Not at hnone
    exact hchanged (by rw [hmem, Memory.read_store_of_not_mem hwf hnone])
  exact hws w hw

/-- Settles O28: a step only makes stores (`takeTurn_mem`), and a store keeps the canonical form. -/
theorem stepKeepsMemoryCanonical : Obligations.StepKeepsMemoryCanonical := by
  intro s t hwf h
  obtain ⟨ws, hmem⟩ := takeTurn_mem h
  rw [hmem]
  exact Memory.store_wf hwf ws

/-- Settles O26: every turn keeps the invariant of every engine, and a step is a turn. -/
theorem stepKeepsTheRegistersOk : Obligations.StepKeepsTheRegistersOk := by
  intro s t hok h
  exact registersOk_takeTurn (s := { s with turns := s.turns.tail }) hok h

end StateSettled

end Sys2Proof.Machine
end

section
/-! PROOFS. The statements about memory (spec/20_memory.md): the byte order (R41), the layouts of the operands (R49 to R56), what a
command reads (R64), what other agents see and change (R65, R66), and the descriptor that a doorbell latches (R68). -/

namespace Sys2Proof

section ByteOrder
/-! ### The byte order (20_memory R41, 00_scope R9, 30_encoding R71) -/

/-- A byte of a word is its quotient by a power of 256. -/
theorem extractLsb'_byte {w : Nat} (v : BitVec w) (j : Nat) :
    v.extractLsb' (8 * j) 8 = BitVec.ofNat 8 (v.toNat / 256 ^ j) := by
  rw [show (256 : Nat) = 2 ^ 8 from rfl, ← pow_mul, ← Nat.shiftRight_eq_div_pow, BitVec.extractLsb']

theorem leBytes_getElem? {n j : Nat} (h : j < n) (v : Nat) :
    (leBytes n v)[j]? = some (BitVec.ofNat 8 (v / 256 ^ j)) := by
  induction n generalizing j v with
  | zero => omega
  | succ n ih =>
    cases j with
    | zero => simp [leBytes]
    | succ j =>
      rw [leBytes, List.getElem?_cons_succ, ih (by omega), Nat.div_div_eq_div_mul, pow_succ']

/-- Disassembling what was assembled from bytes gives the bytes. -/
theorem leBytes_leNat (bs : List Byte) : leBytes bs.length (leNat bs) = bs := by
  induction bs with
  | nil => rfl
  | cons b bs ih =>
    have hb : b.toNat < 256 := b.isLt
    have hlow : BitVec.ofNat 8 (b.toNat + 256 * leNat bs) = b := by
      apply BitVec.eq_of_toNat_eq
      rw [BitVec.toNat_ofNat]
      omega
    have hrest : (b.toNat + 256 * leNat bs) / 256 = leNat bs := by omega
    rw [List.length_cons, leNat, leBytes, hlow, hrest, ih]

/-- Byte `j` of a field's bytes is bits `8j+7 .. 8j` of the field, in any byte string that holds the whole field. -/
theorem getElem?_of_field {w n off j : Nat} {bs : List Byte} {v : BitVec w} (hv : field w bs off n = v)
    (hw : 2 ^ w = 256 ^ n) (hlen : off + n ≤ bs.length) (hj : j < n) :
    bs[off + j]? = some (v.extractLsb' (8 * j) 8) := by
  set xs := (bs.drop off).take n with hxs
  have hxslen : xs.length = n := by
    rw [hxs, List.length_take, List.length_drop]
    omega
  have hbytes : leBytes n (leNat xs) = xs := by
    conv_rhs => rw [← leBytes_leNat xs, hxslen]
  have hnat : v.toNat = leNat xs := by
    rw [← hv, field, BitVec.toNat_ofNat, hw, ← leNat_leBytes, hbytes]
  calc bs[off + j]? = xs[j]? := by rw [hxs, List.getElem?_take_of_lt hj, List.getElem?_drop]
    _ = some (BitVec.ofNat 8 (leNat xs / 256 ^ j)) := by rw [← hbytes, leBytes_getElem? hj, hbytes]
    _ = some (v.extractLsb' (8 * j) 8) := by rw [extractLsb'_byte, hnat]

/-- Byte `j` of a descriptor's field, at the field's offset (30_encoding R71). -/
theorem Descriptor.toBytes_getElem? {d : Descriptor} {w n off j : Nat} {v : BitVec w} (hv : field w d.toBytes off n = v)
    (hw : 2 ^ w = 256 ^ n) (hoff : off + n ≤ 72) (hj : j < n) :
    d.toBytes[off + j]? = some (v.extractLsb' (8 * j) 8) :=
  getElem?_of_field hv hw (d.toBytes_length ▸ hoff) hj

end ByteOrder

end Sys2Proof

namespace Sys2Proof.Machine

open Sys2Proof.Safety

section Layouts
/-! ### Floats and half bytes in memory (20_memory R41, 00_scope R9, R14) -/

/-- The value of a float read from memory, byte by byte (00_scope R9). -/
theorem Memory.f32_toNat (m : Memory) (a : Nat) : (m.f32 a).toNat =
    (m.read a).toNat + 2 ^ 8 * (m.read (a + 1)).toNat + 2 ^ 16 * (m.read (a + 2)).toNat +
      2 ^ 24 * (m.read (a + 3)).toNat := by
  have h0 := (m.read a).isLt
  have h1 := (m.read (a + 1)).isLt
  have h2 := (m.read (a + 2)).isLt
  have h3 := (m.read (a + 3)).isLt
  have hr : List.range 4 = [0, 1, 2, 3] := rfl
  simp only [Memory.f32, Memory.bytes, hr, List.map_cons, List.map_nil, leNat, BitVec.toNat_ofNat, Nat.add_zero]
  omega

/-- The stores of a float, byte by byte (00_scope R9). -/
theorem f32Stores_eq (a : Nat) (v : F32) : f32Stores a v =
    [(a, v.extractLsb' 0 8), (a + 1, v.extractLsb' 8 8), (a + 2, v.extractLsb' 16 8), (a + 3, v.extractLsb' 24 8)] := by
  simp only [f32Stores, ← extractLsb'_byte]
  rfl

theorem lowNibble_eq (b : Byte) : lowNibble b = (b.extractLsb' 0 4).toNat := by
  simp [lowNibble]

theorem highNibble_eq (b : Byte) : highNibble b = (b.extractLsb' 4 4).toNat := by
  have := b.isLt
  simp only [highNibble, BitVec.extractLsb'_toNat, Nat.shiftRight_eq_div_pow]
  omega

theorem subBlkLen_eq (mode : Mode) (b : Nat) : subBlkLen mode b = if mode = .int8 ∧ b % 32 = 0 then 32 else 16 := by
  cases mode <;> simp [subBlkLen]

end Layouts

section StoredTwice
/-! ### One list of stores, made on two memories -/

/-- After the same stores two memories agree at every byte the stores address, and wherever they agreed before. -/
theorem Memory.read_store_congr {m m' : Memory} (hm : m.wf) (hm' : m'.wf) {ws : List (Nat × Byte)} {a : Nat}
    (ha : a < 2 ^ 64) (h : m.read a = m'.read a ∨ ∃ w ∈ ws, w.1 = a) : (m.store ws).read a = (m'.store ws).read a := by
  induction ws generalizing m m' with
  | nil => simpa [Memory.store_nil] using h
  | cons w ws ih =>
    refine ih (Memory.write_wf hm _ _) (Memory.write_wf hm' _ _) ?_
    rw [Memory.read_write hm, Memory.read_write hm']
    by_cases hw : w.1 = a
    · subst hw
      exact .inl (by rw [if_pos ⟨rfl, ha⟩, if_pos ⟨rfl, ha⟩])
    · simpa [Ne.symm hw, hw] using h

end StoredTwice

section Legal
/-! ### Legal commands pass the checks (30_encoding R74, 20_memory R42) -/

@[simp] theorem checkBlkLen_eq_none {b : BitVec 16} : checkBlkLen b = none ↔ blkLenOk b = true := by
  simp [checkBlkLen, blkLenOk]

@[simp] theorem checkDim_eq_none {info : Word} {d : BitVec 32} : checkDim info d = none ↔ dimOk d = true := by
  simp [checkDim, dimOk]

@[simp] theorem checkStride_eq_none {ldc : BitVec 32} {width : Nat} :
    checkStride ldc width = none ↔ strideOk ldc width = true := by
  simp [checkStride_none, strideOk]

@[simp] theorem checkAlign_eq_none {p : Word} : checkAlign p = none ↔ align4Ok p = true := by
  simp [checkAlign, align4Ok]

@[simp] theorem checkBias_eq_none {p : Option Word} : checkBias p = none ↔ biasOk p = true := by
  cases p <;> simp [checkBias, biasOk]

/-- A command passes the engine's checks exactly when it is legal. -/
theorem checkInstr_eq_none {i : Instr} : checkInstr i = none ↔ i.wellFormed = true := by
  cases i <;> simp [checkInstr, firstCause_none, Instr.wellFormed, and_assoc]

/-- The block length of a command whose first check is its block length (30_encoding R74). -/
theorem blkLen_of_firstCause {b : BitVec 16} {cs : List (Option Cause)} (h : firstCause (checkBlkLen b :: cs) = none) :
    16 ≤ b.toNat ∧ b.toNat % 16 = 0 :=
  blkLenOk_of_check (firstCause_none.mp h _ List.mem_cons_self)

end Legal

section Cover
/-! ### Every byte of the write footprint is stored (20_memory R58 to R62) -/

/-- An index into `n` rows of `k` is a row and a column. -/
theorem exists_row_block {n k x : Nat} (h : x < n * k) : ∃ row < n, ∃ off < k, x = row * k + off := by
  have hk : 0 < k := Nat.pos_of_ne_zero fun hk => by simp [hk] at h
  exact ⟨x / k, (Nat.div_lt_iff_lt_mul hk).mpr h, x % k, Nat.mod_lt x hk, (Nat.div_add_mod' x k).symm⟩

/-- A byte of a matrix's rows is a byte of one of its elements. -/
theorem exists_of_inRanges_rowRanges {ptr stride rows width a : Nat}
    (h : inRanges (rowRanges ptr stride rows width) a = true) :
    ∃ row < rows, ∃ col < width, ∃ j < 4, a = outAddr ptr stride row col + j := by
  simp only [inRanges, rowRanges, List.any_map, List.any_eq_true, List.mem_range, Function.comp, Range.has,
    Bool.and_eq_true, decide_eq_true_eq] at h
  obtain ⟨row, hrow, hlow, hhigh⟩ := h
  refine ⟨row, hrow, (a - (ptr + 4 * (row * stride))) / 4, by omega, (a - (ptr + 4 * (row * stride))) % 4, by omega, ?_⟩
  simp only [outAddr]
  omega

/-- A matrix of elements stored row by row stores every byte of its rows. -/
theorem matrixStores_cover {ptr stride rows width a : Nat} (f : Nat → Nat → F32)
    (h : inRanges (rowRanges ptr stride rows width) a = true) :
    ∃ w ∈ (List.range rows).flatMap fun row => (List.range width).flatMap fun col =>
      f32Stores (outAddr ptr stride row col) (f row col), w.1 = a := by
  obtain ⟨row, hrow, col, hcol, j, hj, rfl⟩ := exists_of_inRanges_rowRanges h
  simp only [List.mem_flatMap, List.mem_range, mem_f32Stores]
  exact ⟨_, ⟨row, hrow, col, hcol, j, hj, rfl⟩, rfl⟩

/-- A packed block stores each of its `BlkLen / 2` bytes (20_memory R51). -/
theorem packBlock_covers (m : Memory) (mode : Mode) {b : Nat} (src dst : Nat) (hb : b % 16 = 0) {off : Nat}
    (hoff : off < b / 2) : ∃ w ∈ packBlock m mode b src dst, w.1 = dst + off := by
  obtain ⟨-, -, hhalves, -⟩ := subBlkLen_facts mode hb
  obtain ⟨sb, hsb, j, hj, rfl⟩ := exists_row_block (hhalves.symm ▸ hoff)
  simp only [packBlock, List.mem_flatMap, List.mem_map, List.mem_range]
  exact ⟨_, ⟨sb, hsb, j, hj, rfl⟩, by simp only [Nat.add_assoc]⟩

/-- A Q8 block stores its header and a byte a slot (20_memory R55). -/
theorem q8Stores_covers {xs : List F32} {b : Nat} (dst : Nat) (hx : xs.length ≤ b) {off : Nat} (hoff : off < q8Size b) :
    ∃ w ∈ q8Stores dst b xs, w.1 = dst + off := by
  simp only [q8Stores, List.mem_append, mem_f32Stores, List.mem_map]
  by_cases hheader : off < 4
  · exact ⟨_, .inl ⟨off, hheader, rfl⟩, rfl⟩
  · have hslot : off - 4 < (blockCodes xs b).length := by
      simp only [blockCodes, List.length_append, List.length_map, List.length_replicate, q8Size] at hoff ⊢
      omega
    exact ⟨_, .inr ⟨((blockCodes xs b)[off - 4], off - 4), List.mk_mem_zipIdx_iff_getElem?.mpr
      (List.getElem?_eq_getElem hslot), rfl⟩, by simp only; omega⟩

/-- A command that passes its checks stores every byte of its write footprint. -/
theorem storesOf_covers {i : Instr} (hc : checkInstr i = none) (m : Memory) {a : Nat}
    (ha : inRanges (writeFootprint i) a = true) : ∃ w ∈ storesOf i m, w.1 = a := by
  cases i with
  | packsz | wssz | wsalign => simp [writeFootprint, inRanges] at ha
  | pack mode b n k pa pb =>
    obtain ⟨-, h16⟩ := blkLen_of_firstCause hc
    obtain ⟨hlow, hhigh⟩ := inRanges_single.mp ha
    rw [half_blocks h16] at hhigh
    obtain ⟨blk, hblk, off, hoff, hsplit⟩ := exists_row_block
      (show a - pb.toNat < n.toNat * blockCount k.toNat b.toNat * (b.toNat / 2) by omega)
    obtain ⟨w, hw, hwa⟩ := packBlock_covers m mode (pa.toNat + blk * (b.toNat / 2)) (pb.toNat + blk * (b.toNat / 2))
      h16 hoff
    simp only [storesOf, packStores, List.mem_flatMap, List.mem_range]
    exact ⟨w, ⟨blk, hblk, hw⟩, by omega⟩
  | gemmf | gemmi => exact matrixStores_cover _ ha
  | deq b n k ldc pb ps pz pc =>
    obtain ⟨w, hw, hwa⟩ := matrixStores_cover (fun _ _ => posZero) ha
    exact ⟨w, List.mem_append_left _ hw, hwa⟩
  | qrow b k pa pc =>
    obtain ⟨hlow, hhigh⟩ := inRanges_single.mp ha
    obtain ⟨kb, hkb, off, hoff, hsplit⟩ := exists_row_block
      (show a - pc.toNat < blockCount k.toNat b.toNat * q8Size b.toNat by omega)
    obtain ⟨w, hw, hwa⟩ := q8Stores_covers (xs := rowBlock m b.toNat k.toNat pa.toNat kb)
      (pc.toNat + kb * q8Size b.toNat) (by simp [rowBlock_length]) hoff
    simp only [storesOf, qrowStores, List.mem_flatMap, List.mem_range]
    exact ⟨w, ⟨kb, hkb, hw⟩, by omega⟩

end Cover

section Agree
/-! ### Operands and stores of two memories that agree on a read footprint (20_memory R64) -/

variable {m m' : Memory}

/-- Agreement on a footprint of two parts is agreement on each. -/
theorem agree_append {rs qs : List Range} :
    (∀ a, inRanges (rs ++ qs) a = true → m.read a = m'.read a) ↔
      (∀ a, inRanges rs a = true → m.read a = m'.read a) ∧ ∀ a, inRanges qs a = true → m.read a = m'.read a := by
  simp only [inRanges_append, Bool.or_eq_true, or_imp, forall_and]

/-- A packed block is made of the `BlkLen / 2` bytes of its reference block (40_blockcodec R92). -/
theorem packBlock_congr (mode : Mode) {b src : Nat} (dst : Nat) (hb : b % 16 = 0)
    (h : ∀ off < b / 2, m.read (src + off) = m'.read (src + off)) :
    packBlock m mode b src dst = packBlock m' mode b src dst := by
  obtain ⟨-, hhalf, -, hblocks⟩ := subBlkLen_facts mode hb
  have hnib : ∀ i < b, refNibble m src i = refNibble m' src i := fun i hi => by
    simp only [refNibble, h (i / 2) (by omega)]
  refine List.flatMap_congr fun sb hsb => List.map_congr_left fun j hj => ?_
  rw [List.mem_range] at hsb hj
  have hlow := row_block_lt hsb (show j < subBlkLen mode b by omega)
  have hhigh := row_block_lt hsb (show j + subBlkLen mode b / 2 < subBlkLen mode b by omega)
  rw [hblocks] at hlow hhigh
  rw [Nat.add_assoc (sb * _), hnib _ hlow, hnib _ hhigh]

/-- PACK reads only the reference array (20_memory R58). -/
theorem packStores_congr (mode : Mode) {b n k pa : Nat} (pb : Nat) (hb : b % 16 = 0)
    (h : ∀ a, inRanges [⟨pa, n * blockCount k b * b / 2⟩] a = true → m.read a = m'.read a) :
    packStores m mode b n k pa pb = packStores m' mode b n k pa pb := by
  refine List.flatMap_congr fun blk hblk => packBlock_congr mode _ hb fun off hoff => h _ (inRanges_single.mpr ?_)
  have := row_block_lt (List.mem_range.mp hblk) hoff
  rw [half_blocks hb]
  omega

/-- An activation is read from the rows of its matrix (20_memory R56). -/
theorem activation_congr {pa lda rows width row k : Nat}
    (h : ∀ a, inRanges (rowRanges pa lda rows width) a = true → m.read a = m'.read a) (hr : row < rows) (hk : k < width) :
    activation m pa lda row k = activation m' pa lda row k :=
  Memory.f32_congr fun _ hj => h _ (inRanges_rowRanges hr hk hj)

/-- A bias is read from the bias array, where there is one (20_memory R56). -/
theorem addBias_congr {bias : Option Word} {n col : Nat}
    (h : ∀ a, inRanges (biasReads bias n) a = true → m.read a = m'.read a) (hc : col < n) (v : F32) :
    addBias m bias col v = addBias m' bias col v := by
  cases bias with
  | none => rfl
  | some p =>
    have hread : m.f32 (p.toNat + 4 * col) = m'.f32 (p.toNat + 4 * col) :=
      Memory.f32_congr fun j hj => h _ (inRanges_single.mpr (by omega))
    simp only [addBias, hread]

section Weights
variable {w : Weights} (hw : ∀ a, inRanges w.reads a = true → m.read a = m'.read a) (hb : w.blkLen % 16 = 0) {col : Nat}
  (hc : col < w.n)
include hw hb hc

/-- A weight is decoded from its nibble, scale and zero point (43_dequantize R123). -/
theorem deqElem_congr {k : Nat} (hk : k < w.k) (hpos : 0 < w.blkLen) : deqElem w m k col = deqElem w m' k col := by
  have hkb : k / w.blkLen < w.bck := div_lt_blockCount hpos hk
  simp only [deqElem, Weights.scale_congr hw hc hkb, Weights.zp_congr hw hc hkb,
    Weights.nib_congr hw hc hkb hb .float (Nat.mod_lt k hpos)]

/-- A float dot product reads a row of activations and a column of weights (44_gemm_fp32 R132). -/
theorem dot32_congr {pa lda rows row : Nat}
    (hact : ∀ a, inRanges (rowRanges pa lda rows w.k) a = true → m.read a = m'.read a) (hr : row < rows) :
    dot32 m w pa lda row col = dot32 m' w pa lda row col := by
  refine congrArg lanesSum (List.foldl_ext _ _ _ fun l kb hkb => List.foldl_ext _ _ _ fun l i hi => ?_)
  rw [List.mem_range] at hkb hi
  refine ite_congr rfl (fun hk => ?_) fun _ => rfl
  rw [activation_congr hact hr hk, Weights.scale_congr hw hc hkb, Weights.zp_congr hw hc hkb,
    Weights.nib_congr hw hc hkb hb .float hi]

/-- An integer dot product reads a row of the workspace and a column of weights (45_gemm_int8 R142). -/
theorem dotQ8_congr {pa rows row : Nat}
    (hact : ∀ a, inRanges [⟨pa, rows * w.bck * q8Size w.blkLen⟩] a = true → m.read a = m'.read a) (hr : row < rows) :
    dotQ8 m w pa row col = dotQ8 m' w pa row col := by
  refine List.foldl_ext _ _ _ fun acc kb hkb => congrArg (fadd acc) ?_
  rw [List.mem_range] at hkb
  have hbyte : ∀ off < q8Size w.blkLen, m.read (qBase pa w.blkLen w.bck row kb + off) =
      m'.read (qBase pa w.blkLen w.bck row kb + off) := fun off hoff => by
    have := row_block_lt (row_block_lt hr hkb) hoff
    exact hact _ (inRanges_single.mpr (by simp only [qBase]; omega))
  have hscale : qScale m pa w.blkLen w.bck row kb = qScale m' pa w.blkLen w.bck row kb :=
    Memory.f32_congr fun j hj => hbyte j (by simp only [q8Size]; omega)
  have hdot : blockDot m w pa row col kb = blockDot m' w pa row col kb := by
    refine List.foldl_ext _ _ _ fun acc i hi => ?_
    rw [List.mem_range] at hi
    have hcode : qCode m pa w.blkLen w.bck row kb i = qCode m' pa w.blkLen w.bck row kb i := by
      rw [qCode, qCode, Memory.s8, Memory.s8, Nat.add_assoc, hbyte (4 + i) (by simp only [q8Size]; omega)]
    rw [hcode, Weights.nib_congr hw hc hkb hb .int8 hi, Weights.zp_congr hw hc hkb]
  rw [blockTerm, blockTerm, hdot, hscale, Weights.scale_congr hw hc hkb]

end Weights

/-- QROW reads only its row of activations (20_memory R59). -/
theorem rowBlock_congr {k pa : Nat} (b kb : Nat) (h : ∀ a, inRanges [⟨pa, 4 * k⟩] a = true → m.read a = m'.read a) :
    rowBlock m b k pa kb = rowBlock m' b k pa kb := by
  refine List.map_congr_left fun i hi => Memory.f32_congr fun j hj => h _ (inRanges_single.mpr ?_)
  rw [List.mem_range] at hi
  omega

/-- The stores of a command that passes its checks depend on its read footprint only. -/
theorem storesOf_congr {i : Instr} (hc : checkInstr i = none)
    (h : ∀ a, inRanges (readFootprint i) a = true → m.read a = m'.read a) : storesOf i m = storesOf i m' := by
  cases i with
  | packsz | wssz | wsalign => rfl
  | pack mode b n k pa pb =>
    obtain ⟨-, hb⟩ := blkLen_of_firstCause hc
    exact packStores_congr mode pb.toNat hb h
  | gemmf b rows n k lda ldc pa pb ps pz bias pc =>
    obtain ⟨-, hb⟩ := blkLen_of_firstCause hc
    obtain ⟨hdata, hbias⟩ := agree_append.mp h
    obtain ⟨hact, hw⟩ := agree_append.mp hdata
    refine List.flatMap_congr fun row hrow => List.flatMap_congr fun col hcol => congrArg (f32Stores _) ?_
    rw [List.mem_range] at hrow hcol
    rw [gemmfElem, gemmfElem, dot32_congr hw hb hcol hact hrow, addBias_congr hbias hcol]
  | deq b n k ldc pb ps pz pc =>
    obtain ⟨hpos, hb⟩ := blkLen_of_firstCause hc
    refine congrArg (deqZeroFill _ _ _ _ ++ ·) ?_
    refine List.flatMap_congr fun col hcol => List.flatMap_congr fun row hrow => congrArg (f32Stores _) ?_
    rw [List.mem_range] at hrow hcol
    exact deqElem_congr h hb hcol hrow (Nat.lt_of_lt_of_le (by decide) hpos)
  | gemmi b rows n k ldc pa pb ps pz bias pc =>
    obtain ⟨-, hb⟩ := blkLen_of_firstCause hc
    obtain ⟨hdata, hbias⟩ := agree_append.mp h
    obtain ⟨hact, hw⟩ := (agree_append (rs := [_])).mp hdata
    refine List.flatMap_congr fun row hrow => List.flatMap_congr fun col hcol => congrArg (f32Stores _) ?_
    rw [List.mem_range] at hrow hcol
    rw [gemmiElem, gemmiElem, dotQ8_congr hw hb hcol hact hrow, addBias_congr hbias hcol]
  | qrow b k pa pc =>
    refine List.flatMap_congr fun kb _ => congrArg (q8Stores _ _) ?_
    exact rowBlock_congr b.toNat kb h

end Agree

section Runs
/-! ### What a command that passes its checks answers (30_encoding R80, R81) -/

/-- A query that passes its checks touches no byte, so it answers the same of any memory. -/
theorem exec_query {i : Instr} {r : Nat} (s : State) (hc : checkInstr i = none) (hq : queryValue i = some r) :
    exec i s = .next (complete (some (BitVec.ofNat 64 r)) s) := by
  simp only [exec_eq, hq, runQuery, hc]

theorem exec_stores {i : Instr} {s : State} (hc : checkInstr i = none) (hq : queryValue i = none)
    (hr : refusedOf i s = []) (hh : hazard i s = false) :
    exec i s = .next (complete none { s with mem := s.mem.store (storesOf i s.mem) }) := by
  simp only [exec_eq, hq, runStores_completes (storesOf i) hc hr hh]

/-- A query has no write footprint (20_memory R57). -/
theorem writeFootprint_query {i : Instr} {r : Nat} (hq : queryValue i = some r) : writeFootprint i = [] := by
  cases i with
  | packsz | wssz | wsalign => rfl
  | pack | gemmf | deq | gemmi | qrow => simp [queryValue] at hq

end Runs

section Doorbell
/-! ### The doorbell and the latched descriptor (20_memory R68, log 1, log 3) -/

/-- The fetch of an aligned descriptor whose bytes are all mapped raises no fault (60_exceptions R156 steps 1 and 2). -/
theorem fetchCause_eq_none {mapped : List Range} {a : Word} (halign : a.toNat % 8 = 0)
    (hmapped : ∀ j < 72, isMapped mapped (a.toNat + j) = true) : fetchCause mapped a = none := by
  have hrefused : refusedAddrs mapped [⟨a.toNat, 72⟩] = [] := refusedAddrs_eq_nil.mpr fun x hx => by
    obtain ⟨hlow, hhigh⟩ := inRanges_single.mp hx
    have := hmapped (x - a.toNat) (by omega)
    rwa [Nat.add_sub_cancel' hlow] at this
  simp [fetchCause, halign, hrefused]

/-- Where no running command may be writing, another agent sees what memory holds (20_memory R66). -/
theorem observe_of_not_beingWritten {s : State} {a : Nat} (h : beingWritten s a = false) : observe s a = s.mem.read a := by
  simp [observe, h]

/-- A fetch from bytes that no running command may be writing latches what memory holds there. -/
theorem fetchDescriptor_eq {s : State} {a : Word} (h : ∀ j < 72, beingWritten s (a.toNat + j) = false) :
    fetchDescriptor s a = Descriptor.ofBytes (s.mem.bytes a.toNat 72) :=
  congrArg Descriptor.ofBytes (List.map_congr_left fun j hj => observe_of_not_beingWritten (h j (List.mem_range.mp hj)))

/-- Decoding a byte string that is a command is decoding the descriptor it spells (30_encoding R70). -/
theorem decode_of_decodeBytes {bs : List Byte} {i : Instr} (h : decodeBytes bs = .ok i) :
    decode (Descriptor.ofBytes bs) = .ok i := by
  unfold decodeBytes at h
  split at h
  · exact h
  · simp at h

/-- While BUSY no register write touches the latched descriptor: the doorbell is dropped and a soft reset ignored. -/
theorem writeReg_latch_of_busy (r : Reg) (w : Word) {s : State} (hb : s.eng.busy = true) :
    (writeReg r w s).eng.latch = s.eng.latch := by
  rcases writeReg_cases r w s with e | ⟨-, -, hidle, -⟩ | ⟨-, -, e⟩ | ⟨-, e⟩ | ⟨-, hidle, -, -⟩
  · rw [e]
  · simp [hb] at hidle
  · rw [e]
  · rw [e, clearStatus_latch]
  · simp [hb] at hidle

/-- The engine's own turn leaves the latched descriptor. -/
theorem engineTurn_latch {s t : State} (h : engineTurn s = .next t) : t.eng.latch = s.eng.latch := by
  rcases engineTurn_engine h with ⟨-, rfl⟩ | ⟨-, ⟨c, e⟩ | ⟨r, e, -⟩⟩
  · rfl
  · rw [e, takeFault_latch]
  · rw [e, complete_latch]

theorem disturbAt_latch (mapped : List Range) (a : Nat) (e : Engine) : (disturbAt mapped a e).latch = e.latch := by
  rcases disturbAt_cases mapped a e with h | h <;> rw [h]

/-- A turn but a select leaves the latched descriptor of a busy engine. -/
theorem takeTurn_latch_of_busy {u : Turn} {s t : State} (hu : notSelect u = true) (hb : s.eng.busy = true)
    (h : takeTurn u s = .next t) : t.eng.latch = s.eng.latch := by
  rcases takeTurn_cases h with ⟨-, h⟩ | ⟨addr, size, r, -, -, rfl⟩ | ⟨addr, size, w, r, -, -, rfl⟩ | ⟨a, -, rfl⟩ |
    ⟨a, b, -, rfl⟩ | ⟨-, rfl⟩ | ⟨k, e, rfl, -, -⟩
  · exact engineTurn_latch h
  · rfl
  · exact writeReg_latch_of_busy r w hb
  · rfl
  · exact disturbAt_latch s.mapped a.toNat s.eng
  · rw [hardReset_engine, afterReset_latch]
  · exact absurd hu (by simp [notSelect])

end Doorbell

section MemorySettled
/-! ### The statements -/

/-- Settles O7: the accepted doorbell latches the bytes memory holds, and its fetch raises no fault. -/
theorem rungCommandIsRunning : Obligations.RungCommandIsRunning := by
  intro s t a hring hidle herr halign hbytes h
  have hfetch : fetchCause s.mapped a = none := fetchCause_eq_none halign fun j hj => (hbytes j hj).1
  have hlatch : fetchDescriptor { s with turns := s.turns.tail } a = Descriptor.ofBytes (s.mem.bytes a.toNat 72) :=
    fetchDescriptor_eq fun j hj => (hbytes j hj).2
  have ht : ringDoorbell a { s with turns := s.turns.tail } = t :=
    Host.Outcome.next.inj ((step_writesReg hring).symm.trans h)
  rw [ringDoorbell_accepted (s := { s with turns := s.turns.tail }) hidle herr, if_pos hfetch, hlatch] at ht
  subst ht
  refine ⟨rfl, rfl, rfl, fun i hi => ⟨rfl, hfetch, ?_⟩⟩
  rw [decode_of_decodeBytes hi]
  rfl

/-- Settles O11: a step is a turn, and no turn but a select changes the latch of a busy engine. -/
theorem latchIsKeptWhileBusy : Obligations.LatchIsKeptWhileBusy := by
  intro s t hb hu h
  exact takeTurn_latch_of_busy (s := { s with turns := s.turns.tail }) hu hb h

/-- Settles O30: the stores are the same list on both memories (`storesOf_congr`), and they reach every byte of the write footprint
(`storesOf_covers`). -/
theorem commandReadsOnlyItsFootprint : Obligations.CommandReadsOnlyItsFootprint := by
  intro i s m hlegal hwf hwf' haccess hexclusive hagree
  have hc : checkInstr i = none := checkInstr_eq_none.mpr hlegal
  cases hq : queryValue i with
  | some r =>
    refine ⟨_, _, exec_query s hc hq, exec_query { s with mem := m } hc hq, rfl, fun a ha => ?_⟩
    simp [writeFootprint_query hq, inRanges] at ha
  | none =>
    refine ⟨_, _, exec_stores hc hq haccess hexclusive, exec_stores (s := { s with mem := m }) hc hq haccess hexclusive, rfl,
      fun a ha => ?_⟩
    have hexists : a < 2 ^ 64 := (lt_of_refused_nil haccess (by simp [inRanges_append, ha])).1
    simp only [complete_mem, storesOf_congr hc hagree]
    exact Memory.read_store_congr hwf' hwf hexists (.inr (storesOf_covers hc s.mem ha))

/-- Settles O16: the two memory turns, and read after write. -/
theorem hostAccessesMemory : Obligations.HostAccessesMemory := by
  intro s a
  refine ⟨fun hu hfree => ?_, fun b hu hwf => ⟨memWriteTurn a b { s with turns := s.turns.tail }, ?_, ?_, ?_, ?_, ?_⟩⟩
  · rw [step_eq, hu, ← observe_of_not_beingWritten hfree]
    rfl
  · rw [step_eq, hu]
    rfl
  · simp [Memory.read_write hwf, a.isLt]
  · intro x hx
    simp [Memory.read_write hwf, hx]
  · exact disturbAt_specRegisters s.mapped a.toNat s.eng
  · simp only [memWriteTurn_others, List.map_map]
    exact List.map_congr_left fun e _ => disturbAt_specRegisters s.mapped a.toNat e

/-- Settles O42: each operand is its definition, with the halves of a byte by `lowNibble_eq` and `highNibble_eq` and the
sub-block length by `subBlkLen_eq`. -/
theorem operandsFollowTheLayouts : Obligations.OperandsFollowTheLayouts := by
  intro m b n k pb ps pz mode col kb i
  simp only [← lowNibble_eq, ← highNibble_eq, ← subBlkLen_eq]
  refine ⟨rfl, rfl, rfl, ?_, ?_, fun src => rfl, fun pa row => ⟨rfl, rfl, fun lda => rfl, fun ldc => rfl,
    fun v => ⟨rfl, fun p => rfl⟩⟩⟩
  · rintro rfl
    rfl
  · rintro z rfl
    rfl

/-- Settles O43: each field's bytes by `Descriptor.toBytes_getElem?`, from the descriptor read back. -/
theorem bytesAreLittleEndian : Obligations.BytesAreLittleEndian := by
  refine ⟨Memory.f32_toNat, f32Stores_eq, fun d => ?_⟩
  have hback := d.ofBytes_toBytes
  have hopcode := Descriptor.toBytes_getElem? (congrArg Descriptor.opcode hback) rfl (by decide) Nat.zero_lt_one
  have hflags := Descriptor.toBytes_getElem? (congrArg Descriptor.flags hback) rfl (by decide) Nat.zero_lt_one
  refine ⟨by simpa using hopcode, by simpa using hflags, fun j hj => ?_, fun j hj => ⟨?_, ?_, ?_, ?_, ?_⟩,
    fun j hj => ⟨?_, ?_, ?_, ?_, ?_, ?_⟩, hback⟩
  · exact Descriptor.toBytes_getElem? (congrArg Descriptor.blkLen hback) rfl (by decide) hj
  · exact Descriptor.toBytes_getElem? (congrArg Descriptor.m hback) rfl (by decide) hj
  · exact Descriptor.toBytes_getElem? (congrArg Descriptor.n hback) rfl (by decide) hj
  · exact Descriptor.toBytes_getElem? (congrArg Descriptor.k hback) rfl (by decide) hj
  · exact Descriptor.toBytes_getElem? (congrArg Descriptor.lda hback) rfl (by decide) hj
  · exact Descriptor.toBytes_getElem? (congrArg Descriptor.ldc hback) rfl (by decide) hj
  · exact Descriptor.toBytes_getElem? (congrArg Descriptor.ptrA hback) rfl (by decide) hj
  · exact Descriptor.toBytes_getElem? (congrArg Descriptor.ptrB hback) rfl (by decide) hj
  · exact Descriptor.toBytes_getElem? (congrArg Descriptor.ptrS hback) rfl (by decide) hj
  · exact Descriptor.toBytes_getElem? (congrArg Descriptor.ptrZ hback) rfl (by decide) hj
  · exact Descriptor.toBytes_getElem? (congrArg Descriptor.ptrBias hback) rfl (by decide) hj
  · exact Descriptor.toBytes_getElem? (congrArg Descriptor.ptrC hback) rfl (by decide) hj

end MemorySettled

end Sys2Proof.Machine
end

section
/-! PROOFS. The statements about the encoding (spec/30_encoding.md): the decoder undoes the encoder (R71, R73, R75), the fields a
command ignores do not matter (R77), the value checks are the legal values (R74), what the busy engine runs (R79, R80) and what
an accepted doorbell does (R78). -/

namespace Sys2Proof

open Sys2Proof.Safety

section Flags
/-! ### The flag bits and the fields they guard (30_encoding R71, R73) -/

theorem Mode.flag_getLsbD (m : Mode) : m.flag.getLsbD 2 = (m == .int8) := by
  cases m <;> rfl

/-- `HAS_ZP` is bit 0 of its flag byte, and the bit of `HAS_BIAS` is clear there. -/
theorem zpFlag_getLsbD (z : Option Word) : (zpFlag z).getLsbD 0 = z.isSome ∧ (zpFlag z).getLsbD 1 = false := by
  cases z <;> simp [zpFlag]

/-- `HAS_BIAS` is bit 1 of its flag byte, and the bit of `HAS_ZP` is clear there. -/
theorem biasFlag_getLsbD (p : Option Word) : (biasFlag p).getLsbD 0 = false ∧ (biasFlag p).getLsbD 1 = p.isSome := by
  cases p <;> simp [biasFlag]

/-- The flag byte of the two kernels holds both flags, each in its own bit. -/
theorem kernelFlags_getLsbD (z p : Option Word) :
    (zpFlag z ||| biasFlag p).getLsbD 0 = z.isSome ∧ (zpFlag z ||| biasFlag p).getLsbD 1 = p.isSome := by
  obtain ⟨hz0, hz1⟩ := zpFlag_getLsbD z
  obtain ⟨hp0, hp1⟩ := biasFlag_getLsbD p
  simp only [BitVec.getLsbD_or, hz0, hz1, hp0, hp1, Bool.or_false, Bool.false_or, and_self]

variable {d e : Descriptor}

/-- `MODE` says the mode it was written from. -/
theorem Descriptor.mode_eq {m : Mode} (hflag : d.flags.getLsbD 2 = (m == .int8)) : d.mode = m := by
  rw [Descriptor.mode, hflag]
  cases m <;> rfl

/-- The zero-point pointer is the one its flag and its field were written from. -/
theorem Descriptor.zeroPoints_eq {z : Option Word} (hflag : d.flags.getLsbD 0 = z.isSome) (hptr : d.ptrZ = z.getD 0) :
    d.zeroPoints = z := by
  rw [Descriptor.zeroPoints, hflag, hptr]
  cases z <;> rfl

/-- The bias pointer is the one its flag and its field were written from. -/
theorem Descriptor.bias_eq {p : Option Word} (hflag : d.flags.getLsbD 1 = p.isSome) (hptr : d.ptrBias = p.getD 0) :
    d.bias = p := by
  rw [Descriptor.bias, hflag, hptr]
  cases p <;> rfl

theorem Descriptor.mode_congr (hflag : d.flags.getLsbD 2 = e.flags.getLsbD 2) : d.mode = e.mode := by
  simp only [Descriptor.mode, hflag]

/-- The zero-point pointer's field counts only under its flag. -/
theorem Descriptor.zeroPoints_congr (hflag : d.flags.getLsbD 0 = e.flags.getLsbD 0)
    (hptr : d.flags.getLsbD 0 = true → d.ptrZ = e.ptrZ) : d.zeroPoints = e.zeroPoints := by
  rw [Descriptor.zeroPoints, Descriptor.zeroPoints, ← hflag]
  exact ite_congr rfl (fun hset => congrArg some (hptr hset)) fun _ => rfl

/-- The bias pointer's field counts only under its flag. -/
theorem Descriptor.bias_congr (hflag : d.flags.getLsbD 1 = e.flags.getLsbD 1)
    (hptr : d.flags.getLsbD 1 = true → d.ptrBias = e.ptrBias) : d.bias = e.bias := by
  rw [Descriptor.bias, Descriptor.bias, ← hflag]
  exact ite_congr rfl (fun hset => congrArg some (hptr hset)) fun _ => rfl

end Flags

section Decoder
/-! ### What the decoder answers (30_encoding R75 to R77) -/

/-- A descriptor is a command exactly when its opcode selects it and no reserved flag is set (30_encoding R76). -/
theorem decode_eq_ok {d : Descriptor} {i : Instr} : decode d = .ok i ↔ d.select = some i ∧ d.flags.toNat < 8 := by
  unfold decode
  cases d.select with
  | none => simp
  | some j =>
    by_cases hflags : 8 ≤ d.flags.toNat
    · simp [hflags]
    · simp [hflags, Nat.lt_of_not_le hflags]

/-- Decoding the 72 bytes of a descriptor is decoding the descriptor. -/
theorem decodeBytes_toBytes (d : Descriptor) : decodeBytes d.toBytes = decode d := by
  rw [decodeBytes, if_pos d.toBytes_length, d.ofBytes_toBytes]

/-- The descriptor of a command selects that command (30_encoding R73, R75): every operand is a field of its own but the mode and
the optional pointers, which are read back from their flags. -/
theorem Instr.select_descriptor (i : Instr) : i.descriptor.select = some i := by
  cases i with
  | packsz b n k => rfl
  | pack mode b n k pa pb =>
    exact congrArg (fun mo => some (Instr.pack mo b n k pa pb)) (Descriptor.mode_eq (Mode.flag_getLsbD mode))
  | wssz mode b m k =>
    exact congrArg (fun mo => some (Instr.wssz mo b m k)) (Descriptor.mode_eq (Mode.flag_getLsbD mode))
  | wsalign mode => exact congrArg (fun mo => some (Instr.wsalign mo)) (Descriptor.mode_eq (Mode.flag_getLsbD mode))
  | gemmf b m n k lda ldc pa pb ps pz bias pc =>
    exact congrArg₂ (fun z p => some (Instr.gemmf b m n k lda ldc pa pb ps z p pc))
      (Descriptor.zeroPoints_eq (kernelFlags_getLsbD pz bias).1 rfl)
      (Descriptor.bias_eq (kernelFlags_getLsbD pz bias).2 rfl)
  | deq b n k ldc pb ps pz pc =>
    exact congrArg (fun z => some (Instr.deq b n k ldc pb ps z pc)) (Descriptor.zeroPoints_eq (zpFlag_getLsbD pz).1 rfl)
  | gemmi b m n k ldc pa pb ps pz bias pc =>
    exact congrArg₂ (fun z p => some (Instr.gemmi b m n k ldc pa pb ps z p pc))
      (Descriptor.zeroPoints_eq (kernelFlags_getLsbD pz bias).1 rfl)
      (Descriptor.bias_eq (kernelFlags_getLsbD pz bias).2 rfl)
  | qrow b k pa pc => rfl

/-- The descriptor of a command has no reserved flag set (30_encoding R76). -/
theorem Instr.descriptor_flags_lt (i : Instr) : i.descriptor.flags.toNat < 8 := by
  cases i with
  | packsz | qrow => exact Nat.zero_lt_succ 7
  | pack mode | wssz mode | wsalign mode => exact Laws.EncodeShape.mode mode
  | gemmf _ _ _ _ _ _ _ _ _ pz bias | gemmi _ _ _ _ _ _ _ _ pz bias => exact (Laws.EncodeShape.flags pz bias).1
  | deq _ _ _ _ _ _ pz => exact (Laws.EncodeShape.flags pz none).2

/-- Decoding undoes encoding, at every operand (30_encoding R71). -/
theorem decodeBytes_encode (i : Instr) : decodeBytes (encode i) = .ok i := by
  rw [encode, decodeBytes_toBytes]
  exact decode_eq_ok.mpr ⟨i.select_descriptor, i.descriptor_flags_lt⟩

/-- Descriptors that agree in the fields their command uses select the same command (30_encoding R73, R77). -/
theorem Descriptor.select_congr {d e : Descriptor} (h : sameUsedFields d e) : d.select = e.select := by
  obtain ⟨hopcode, hblk, hmode, hweights, hbias, hm, hn, hlda, hpa, hpb, hpc⟩ := h
  unfold Descriptor.select
  rw [← hopcode]
  -- Case `h_n` is opcode `n` for `n` up to 8, and `h_9` is every other opcode.
  split
  case h_1 hop =>
    obtain ⟨eblk, ek⟩ := hblk (by omega)
    rw [eblk, hn (by omega), ek]
  case h_2 hop =>
    obtain ⟨eblk, ek⟩ := hblk (by omega)
    rw [Descriptor.mode_congr (hmode (by omega)), eblk, hn (by omega), ek, hpa (by omega), hpb (by omega)]
  case h_3 hop =>
    obtain ⟨eblk, ek⟩ := hblk (by omega)
    rw [Descriptor.mode_congr (hmode (by omega)), eblk, hm (by omega), ek]
  case h_4 hop => rw [Descriptor.mode_congr (hmode (by omega))]
  case h_5 hop =>
    obtain ⟨eblk, ek⟩ := hblk (by omega)
    obtain ⟨ezp, ez, eldc, eb, es, ec⟩ := hweights (by omega)
    obtain ⟨ebf, ebias⟩ := hbias (by omega)
    rw [eblk, hm (by omega), hn (by omega), ek, hlda (by omega), eldc, hpa (by omega), eb, es,
      Descriptor.zeroPoints_congr ezp ez, Descriptor.bias_congr ebf ebias, ec]
  case h_6 hop =>
    obtain ⟨eblk, ek⟩ := hblk (by omega)
    obtain ⟨ezp, ez, eldc, eb, es, ec⟩ := hweights (by omega)
    rw [eblk, hn (by omega), ek, eldc, eb, es, Descriptor.zeroPoints_congr ezp ez, ec]
  case h_7 hop =>
    obtain ⟨eblk, ek⟩ := hblk (by omega)
    obtain ⟨ezp, ez, eldc, eb, es, ec⟩ := hweights (by omega)
    obtain ⟨ebf, ebias⟩ := hbias (by omega)
    rw [eblk, hm (by omega), hn (by omega), ek, eldc, hpa (by omega), eb, es,
      Descriptor.zeroPoints_congr ezp ez, Descriptor.bias_congr ebf ebias, ec]
  case h_8 hop =>
    obtain ⟨eblk, ek⟩ := hblk (by omega)
    rw [eblk, ek, hpa (by omega), hpc (by omega)]
  case h_9 => rfl

/-- A table word that spells out a command's encoding is read as that command. -/
theorem decodeTableWord_of_encode {nbits w : Nat} {i : Instr} (h : leBytes 72 (w % 2 ^ nbits) = encode i) :
    decodeTableWord nbits w = some i := by
  rw [decodeTableWord, h, decodeBytes_encode]
  rfl

end Decoder

end Sys2Proof

namespace Sys2Proof.Machine

open Sys2Proof.Safety

section RunningTurn
/-! ### The turn of a running engine (30_encoding R79) -/

/-- The command an engine is running is its job. -/
theorem runningJob_of_running {i : Instr} {s : State} (h : Running i s) : runningJob s.mapped s.eng = some i := by
  obtain ⟨hbusy, hfetch, hdecode⟩ := h
  exact (if_pos ⟨hbusy, hfetch⟩).trans hdecode

/-- The turn of an engine that is running a command is that command. -/
theorem engineTurn_of_running {i : Instr} {s : State} (h : Running i s) : engineTurn s = exec i s := by
  obtain ⟨hbusy, hfetch, hdecode⟩ := runningJob_eq_some.mp (runningJob_of_running h)
  simp only [engineTurn, hbusy, hfetch, hdecode, if_true]

end RunningTurn

section EncodingSettled
/-! ### The statements -/

/-- Settles O1: the descriptor's bytes read back, and its opcode and flags select the command. -/
theorem encodedCommandDecodesToItself : Obligations.EncodedCommandDecodesToItself := decodeBytes_encode

/-- Settles O2: the decoder looks only at the command selected and at the reserved flags. -/
theorem ignoredFieldsDoNotChangeTheCommand : Obligations.IgnoredFieldsDoNotChangeTheCommand := by
  intro d e i hsame hflags hd
  obtain ⟨hselect, -⟩ := decode_eq_ok.mp hd
  exact decode_eq_ok.mpr ⟨Descriptor.select_congr hsame ▸ hselect, hflags⟩

/-- Settles O4: each check is one legal value or alignment. -/
theorem legalCommandsPassTheChecks : Obligations.LegalCommandsPassTheChecks := fun _ => checkInstr_eq_none

/-- Settles O3: each word spells out the encoding of its command, and decoding undoes encoding. -/
theorem opcodeWordsDecode : Obligations.OpcodeWordsDecode :=
  ⟨decodeTableWord_of_encode (by decide), decodeTableWord_of_encode (by decide), decodeTableWord_of_encode (by decide),
    decodeTableWord_of_encode (by decide), decodeTableWord_of_encode (by decide), decodeTableWord_of_encode (by decide)⟩

/-- Settles O5: with no turn pending the busy engine moves, and its turn is the command. -/
theorem stepRunsTheDecodedCommand : Obligations.StepRunsTheDecodedCommand := by
  intro i s hrun
  have hbusy : s.eng.busy = true := hrun.1
  refine ⟨fun hnone => ?_, fun ts hturns => ?_⟩
  · rw [step_nil hnone hbusy, engineTurn_of_running hrun]
  · rw [step_cons hturns]
    exact engineTurn_of_running (s := { s with turns := ts }) hrun

/-- Settles O6: the step is the doorbell, which is accepted. -/
theorem acceptedDoorbellStartsTheEngine : Obligations.AcceptedDoorbellStartsTheEngine := by
  intro s t a hring hidle herr h
  have ht : ringDoorbell a { s with turns := s.turns.tail } = t :=
    Host.Outcome.next.inj ((step_writesReg hring).symm.trans h)
  rw [ringDoorbell_accepted (s := { s with turns := s.turns.tail }) hidle herr] at ht
  subst ht
  exact ⟨rfl, rfl, rfl⟩

end EncodingSettled

end Sys2Proof.Machine
end

section
/-! PROOFS. The statements about BlockCodec (spec/40_blockcodec.md): the packed size that PACKSZ returns (R90), and the 4-bit values
that PACK stores (R92) and the extraction of 20_memory R51 finds again (R93). -/

namespace Sys2Proof.Machine

open Sys2Proof.Safety

section CommandFrame
/-! ### What a command leaves of memory (20_memory R64) -/

/-- A byte outside a command's write footprint is unchanged, however the command ends. -/
theorem exec_read_of_not_inRanges {i : Instr} {s t : State} (hwf : s.mem.wf) (h : exec i s = .next t) {a : Nat}
    (ha : inRanges (writeFootprint i) a = false) : t.mem.read a = s.mem.read a := by
  obtain ⟨ws, hmem, hws⟩ := exec_mem h
  rw [hmem]
  refine Memory.read_store_of_not_mem hwf fun w hw hwa => ?_
  obtain ⟨-, hin⟩ := hws w hw
  simp [hwa, ha] at hin

end CommandFrame

section NibblePairs
/-! ### Two 4-bit values in a byte (20_memory R50, R51) -/

theorem refNibble_lt (m : Memory) (src i : Nat) : refNibble m src i < 16 := by
  have := (m.read (src + i / 2)).isLt
  simp only [refNibble, lowNibble, highNibble]
  split <;> omega

theorem lowNibble_ofNat_pair {lo hi : Nat} (hlo : lo < 16) : lowNibble (BitVec.ofNat 8 (lo + 16 * hi)) = lo := by
  simp only [lowNibble, BitVec.toNat_ofNat]
  omega

theorem highNibble_ofNat_pair {lo hi : Nat} (hlo : lo < 16) (hhi : hi < 16) :
    highNibble (BitVec.ofNat 8 (lo + 16 * hi)) = hi := by
  simp only [highNibble, BitVec.toNat_ofNat]
  omega

end NibblePairs

section PackedArray
/-! ### The packed array that PACK leaves (40_blockcodec R92, R93) -/

/-- An index into rows of `k` has one row and one column. -/
theorem row_block_inj {x y x' y' k : Nat} (hy : y < k) (hy' : y' < k) (h : x * k + y = x' * k + y') : x = x' ∧ y = y' := by
  have hrow : x = x' := by
    have := congrArg (· / k) h
    simpa [Nat.add_comm (_ * k), Nat.add_mul_div_right _ _ (Nat.zero_lt_of_lt hy), Nat.div_eq_of_lt hy,
      Nat.div_eq_of_lt hy'] using this
  subst hrow
  exact ⟨rfl, Nat.add_left_cancel h⟩

variable {m : Memory} {mode : Mode} {b n k pa pb blk : Nat}

/-- The byte that PACK leaves at place `j` of sub-block `sb` of a block: no other block, sub-block or place stores there. -/
theorem read_store_packStores (hm : m.wf) (hb : b % 16 = 0)
    (hexists : ∀ a, inRanges [⟨pb, n * blockCount k b * b / 2⟩] a = true → a < 2 ^ 64)
    (hblk : blk < n * blockCount k b) {sb j : Nat} (hsb : sb < b / subBlkLen mode b) (hj : j < subBlkLen mode b / 2) :
    (m.store (packStores m mode b n k pa pb)).read (pb + blk * (b / 2) + sb * (subBlkLen mode b / 2) + j) =
      BitVec.ofNat 8 (refNibble m (pa + blk * (b / 2)) (sb * subBlkLen mode b + j) +
        16 * refNibble m (pa + blk * (b / 2)) (sb * subBlkLen mode b + j + subBlkLen mode b / 2)) := by
  obtain ⟨-, -, hhalves, -⟩ := subBlkLen_facts mode hb
  have hoff := row_block_lt hsb hj
  rw [hhalves] at hoff
  refine Memory.read_store_of_mem hm (hexists _ (inRanges_single.mpr ?_)) ?_ fun w hw hwa => ?_
  · have := row_block_lt hblk hoff
    rw [half_blocks hb]
    omega
  · simp only [packStores, packBlock, List.mem_flatMap, List.mem_map, List.mem_range]
    exact ⟨blk, hblk, sb, hsb, j, hj, rfl⟩
  · simp only [packStores, packBlock, List.mem_flatMap, List.mem_map, List.mem_range] at hw
    obtain ⟨blk', -, sb', hsb', j', hj', rfl⟩ := hw
    have hoff' := row_block_lt hsb' hj'
    rw [hhalves] at hoff'
    obtain ⟨rfl, hplace⟩ := row_block_inj (x := blk') (x' := blk) hoff' hoff (by simp only at hwa; omega)
    obtain ⟨rfl, rfl⟩ := row_block_inj hj' hj hplace
    rfl

/-- Extraction undoes packing (R93): slot `i` is place `i % S` of sub-block `i / S`, whose low half stands in the low nibbles and
whose high half in the high nibbles. -/
theorem packedNibble_store_packStores (hm : m.wf) (hb : b % 16 = 0)
    (hexists : ∀ a, inRanges [⟨pb, n * blockCount k b * b / 2⟩] a = true → a < 2 ^ 64)
    (hblk : blk < n * blockCount k b) {i : Nat} (hi : i < b) :
    packedNibble (m.store (packStores m mode b n k pa pb)) mode b (pb + blk * (b / 2)) i =
      refNibble m (pa + blk * (b / 2)) i := by
  obtain ⟨hpos, htwo, -, hblocks⟩ := subBlkLen_facts mode hb
  have hhalf : 0 < subBlkLen mode b / 2 := by omega
  have hsb : i / subBlkLen mode b < b / subBlkLen mode b := by
    rw [Nat.div_lt_iff_lt_mul hpos, hblocks]
    exact hi
  have hplace : i % subBlkLen mode b < subBlkLen mode b := Nat.mod_lt i hpos
  have hsplit : i / subBlkLen mode b * subBlkLen mode b + i % subBlkLen mode b = i := Nat.div_add_mod' i _
  simp only [packedNibble, read_store_packStores hm hb hexists hblk hsb (Nat.mod_lt _ hhalf)]
  split
  next hlow => rw [lowNibble_ofNat_pair (refNibble_lt ..), Nat.mod_eq_of_lt hlow, hsplit]
  next hhigh =>
    have hmod : i % subBlkLen mode b % (subBlkLen mode b / 2) + subBlkLen mode b / 2 = i % subBlkLen mode b := by
      rw [Nat.mod_eq_sub_mod (by omega), Nat.mod_eq_of_lt (by omega)]
      omega
    rw [highNibble_ofNat_pair (refNibble_lt ..) (refNibble_lt ..), Nat.add_assoc, hmod, hsplit]

end PackedArray

section BlockCodecSettled
/-! ### The statements -/

/-- Settles O37: PACK completes with its stores (`exec_stores`), extraction undoes them, and no store leaves the write footprint. -/
theorem packThenExtractRecoversEveryNibble : Obligations.PackThenExtractRecoversEveryNibble := by
  intro mode b n k pa pb s hlegal hwf haccess hexclusive
  have hc : checkInstr (.pack mode b n k pa pb) = none := checkInstr_eq_none.mpr hlegal
  obtain ⟨-, hb⟩ := blkLen_of_firstCause hc
  have hrun := exec_stores hc rfl haccess hexclusive
  refine ⟨_, hrun, rfl, fun blk hblk i hi => ?_, fun a ha => exec_read_of_not_inRanges hwf hrun ha⟩
  refine packedNibble_store_packStores hwf hb (fun a ha => ?_) hblk hi
  exact (lt_of_refused_nil haccess (inRanges_append.trans (by simp only [writeFootprint, ha, Bool.or_true]))).1

/-- Settles O33: PACKSZ is a query that passes its checks, and its value is the packed size. -/
theorem packszReturnsThePackedSize : Obligations.PackszReturnsThePackedSize := by
  intro b n k s hlegal
  exact exec_query s (checkInstr_eq_none.mpr hlegal) rfl

end BlockCodecSettled

end Sys2Proof.Machine
end

section
/-! PROOFS. The statements about WorkspaceSizer (spec/41_workspace.md): the workspace size that WSSZ returns (R100) and the
workspace alignment that WSALIGN returns (R101). -/

namespace Sys2Proof.Machine

section WorkspaceSizerSettled
/-! ### The statements -/

/-- Settles O34: WSSZ is a query that passes its checks; its value is 0 in float mode, and in int8 mode `M` rows of Q8 blocks. -/
theorem wsszReturnsTheWorkspaceSize : Obligations.WsszReturnsTheWorkspaceSize := by
  intro mode b m k s hlegal
  have hrun := exec_query s (checkInstr_eq_none.mpr hlegal) rfl
  cases mode with
  | float => exact hrun
  | int8 => exact hrun

/-- Settles O35: WSALIGN is a query without checks; its value depends on the mode alone. -/
theorem wsalignReturnsTheAlignment : Obligations.WsalignReturnsTheAlignment := by
  intro mode s
  have hrun := exec_query (i := .wsalign mode) s rfl rfl
  cases mode with
  | float => exact hrun
  | int8 => exact hrun

end WorkspaceSizerSettled

end Sys2Proof.Machine
end

section
/-! PROOFS. The statements about ActivationQuantizer (spec/42_quantize.md): what QROW writes (R111, R112) and that it depends on its
input bytes alone (R117), the codes (R113), and the blocks of zeros (R114) and of non-finite elements (R116). -/

namespace Sys2Proof.Machine

open Sys2Proof.Safety

section Codes
/-! ### The integer given for a pattern (42_quantize R113, 00_scope R12) -/

variable {y : F32}

theorem cvtI8_of_isNaN (h : isNaN y = true) : cvtI8 y = 0 := by
  simp [cvtI8, h]

theorem cvtI8_finite (h : isNaN y = false ∧ isInf y = false) : cvtI8 y = min 127 (max (-127) (rta y)) := by
  simp [cvtI8, h]

theorem cvtI8_of_isZero (h : isZero y = true) : cvtI8 y = 0 := by
  rw [cvtI8_finite ⟨isNaN_of_isZero h, isInf_of_isZero h⟩]
  simp [rta, magnitude_eq_zero.mpr h]

theorem cvtI8_bounds (y : F32) : -127 ≤ cvtI8 y ∧ cvtI8 y ≤ 127 := by
  unfold cvtI8
  split
  · decide
  · split
    · split <;> decide
    · omega

/-- The byte 0x80 is the one of -128 alone. -/
theorem ofInt_ne_0x80 {c : Int} (hlow : -127 ≤ c) (hhigh : c ≤ 127) : BitVec.ofInt 8 c ≠ 0x80 := by
  intro h
  have hc : (BitVec.ofInt 8 c).toInt = -128 := by rw [h]; decide
  rw [BitVec.toInt_ofInt_eq_self (by decide) (by omega) (by omega)] at hc
  omega

/-- `rta` is off by at most a half, and a tie goes away from zero: both signs have the one rounded magnitude. -/
theorem rta_nearest (y : F32) :
    2 * (scaledValue y - rta y * 2 ^ 149).natAbs ≤ 2 ^ 149 ∧
      (2 * (scaledValue y - rta y * 2 ^ 149).natAbs = 2 ^ 149 → (scaledValue y).natAbs ≤ (rta y * 2 ^ 149).natAbs) := by
  simp only [scaledValue, rta]
  generalize magnitude y = n
  cases signBit y
  · simp only [Bool.false_eq_true, if_false]
    omega
  · simp only [if_true]
    omega

end Codes

section BlockMaximum
/-! ### The largest magnitude pattern of a block (42_quantize R112 step 1) -/

variable {xs : List F32}

theorem absBits_lt (x : F32) : absBits x < 2 ^ 31 :=
  Nat.mod_lt _ (by decide)

/-- A pattern is its sign and its magnitude pattern. -/
theorem withSign_signBit_absBits (x : F32) : withSign (signBit x) (absBits x) = x := by
  have hx := x.isLt
  apply BitVec.eq_of_toNat_eq
  simp only [withSign, signBit, absBits, BitVec.msb_eq_decide, BitVec.toNat_ofNat, decide_eq_true_eq]
  split <;> omega

theorem foldl_max_absBits_le {m n : Nat} :
    xs.foldl (fun m x => max m (absBits x)) m ≤ n ↔ m ≤ n ∧ ∀ x ∈ xs, absBits x ≤ n := by
  induction xs generalizing m with
  | nil => simp
  | cons x xs ih => simp [ih, and_assoc]

theorem foldl_max_absBits_lt (xs : List F32) : xs.foldl (fun m x => max m (absBits x)) 0 < 2 ^ 31 :=
  Nat.lt_of_le_pred (by decide)
    (foldl_max_absBits_le.mpr ⟨Nat.zero_le _, fun x _ => Nat.le_pred_of_lt (absBits_lt x)⟩)

theorem signBit_blockMax (xs : List F32) : signBit (blockMax xs) = false :=
  signBit_withSign false (foldl_max_absBits_lt xs)

/-- A bound on the maximum's magnitude pattern is a bound on every element's. -/
theorem absBits_blockMax_le {n : Nat} : absBits (blockMax xs) ≤ n ↔ ∀ x ∈ xs, absBits x ≤ n := by
  rw [blockMax, absBits_withSign false (foldl_max_absBits_lt xs), foldl_max_absBits_le]
  simp

theorem absBits_le_blockMax {x : F32} (hx : x ∈ xs) : absBits x ≤ absBits (blockMax xs) :=
  absBits_blockMax_le.mp le_rfl x hx

/-- The maximum is attained: else one less would bound every element. -/
theorem exists_absBits_eq_blockMax (h : xs ≠ []) : ∃ x ∈ xs, absBits x = absBits (blockMax xs) := by
  by_contra hnone
  push Not at hnone
  have hless : ∀ x ∈ xs, absBits x < absBits (blockMax xs) := fun x hx =>
    (absBits_le_blockMax hx).lt_of_ne (hnone x hx)
  obtain ⟨y, hy⟩ := List.exists_mem_of_ne_nil xs h
  have hpos := hless y hy
  have hpred := absBits_blockMax_le.mpr fun x hx => Nat.le_sub_one_of_lt (hless x hx)
  omega

/-- The maximum, having sign 0, is known by its magnitude pattern. -/
theorem blockMax_eq {q : Nat} (h : absBits (blockMax xs) = q) : blockMax xs = withSign false q := by
  rw [← h, ← signBit_blockMax xs, withSign_signBit_absBits]

theorem blockMax_of_zeros (h : ∀ x ∈ xs, isZero x = true) : blockMax xs = posZero :=
  blockMax_eq (Nat.le_zero.mp (absBits_blockMax_le.mpr fun x hx => (beq_iff_eq.mp (h x hx)).le))

theorem isNaN_blockMax (h : ∃ x ∈ xs, isNaN x = true) : isNaN (blockMax xs) = true := by
  obtain ⟨x, hx, hnan⟩ := h
  exact decide_eq_true ((of_decide_eq_true hnan).trans_le (absBits_le_blockMax hx))

theorem blockMax_of_inf (hn : ∀ x ∈ xs, isNaN x = false) (h : ∃ x ∈ xs, isInf x = true) :
    blockMax xs = withSign false infBits := by
  obtain ⟨x, hx, hinf⟩ := h
  refine blockMax_eq (Nat.le_antisymm (absBits_blockMax_le.mpr fun z hz => ?_) ?_)
  · exact Nat.le_of_not_lt (of_decide_eq_false (hn z hz))
  · exact (beq_iff_eq.mp hinf).ge.trans (absBits_le_blockMax hx)

end BlockMaximum

section SpecialProducts
/-! ### Products with a zero or an infinity (42_quantize R114, R116) -/

variable {a b : F32}

theorem roundBits_zero (d : Nat) : roundBits 0 d = 0 := by
  simp [roundBits, nearestEven]

theorem isZero_fmul (ha : isNaN a = false ∧ isInf a = false) (hb : isZero b = true) : isZero (fmul a b) = true := by
  rw [fmul_finite ha ⟨isNaN_of_isZero hb, isInf_of_isZero hb⟩, magnitude_eq_zero.mpr hb, Nat.mul_zero, roundBits_zero,
    isZero_withSign _ (by decide)]

/-- A zero times an infinity's product is CNAN: the product is CNAN or an infinity again. -/
theorem fmul_zero_fmul_inf (ha : isZero a = true) (hb : isInf b = true) (c : F32) : fmul a (fmul b c) = cNaN := by
  cases hn : isNaN c with
  | true => rw [fmul_of_isNaN (a := b) (.inr hn), fmul_of_isNaN (.inr (by decide))]
  | false =>
    cases hz : isZero c with
    | true => rw [fmul_inf_zero hb hz, fmul_of_isNaN (.inr (by decide))]
    | false =>
      have hinf : isInf (withSign (signBit b != signBit c) infBits) = true := by
        rw [isInf, absBits_withSign _ (by decide), beq_self_eq_true]
      rw [fmul_inf hb hn hz, fmul_comm, fmul_inf_zero hinf ha]

end SpecialProducts

section QuantizedBlock
/-! ### The bytes of one Q8 block (42_quantize R111, R112, 20_memory R55) -/

variable {xs : List F32} {b : Nat}

theorem blockCodes_eq_zero (h : ∀ x ∈ xs, cvtI8 (fmul x (scaleRecip (blockScale xs))) = 0) : ∀ c ∈ blockCodes xs b, c = 0 := by
  intro c hc
  rcases List.mem_append.mp hc with hc | hc
  · obtain ⟨x, hx, rfl⟩ := List.mem_map.mp hc
    exact h x hx
  · exact List.eq_of_mem_replicate hc

theorem blockCodes_length (hx : xs.length ≤ b) : (blockCodes xs b).length = b := by
  simp only [blockCodes, List.length_append, List.length_map, List.length_replicate]
  omega

/-- The code of a slot: that of the slot's element, and 0 where there is none. -/
theorem blockCodes_getD (xs : List F32) (b i : Nat) :
    (blockCodes xs b).getD i 0 = (xs[i]?.map fun x => cvtI8 (fmul x (scaleRecip (blockScale xs)))).getD 0 := by
  rw [blockCodes, List.getD_eq_getElem?_getD]
  rcases Nat.lt_or_ge i xs.length with hi | hi
  · rw [List.getElem?_append_left (by simpa using hi), List.getElem?_map]
  · rw [List.getElem?_append_right (by simpa using hi), List.getElem?_eq_none hi, List.getElem?_replicate]
    split <;> rfl

/-- The byte at an offset of the Q8 block of `xs`: the scale header, least significant byte first, then one code a slot. -/
def q8Byte (xs : List F32) (b off : Nat) : Byte :=
  if off < 4 then (blockScale xs).extractLsb' (8 * off) 8 else BitVec.ofInt 8 ((blockCodes xs b).getD (off - 4) 0)

theorem q8Byte_header (xs : List F32) (b : Nat) {j : Nat} (hj : j < 4) :
    q8Byte xs b j = (blockScale xs).extractLsb' (8 * j) 8 :=
  if_pos hj

theorem q8Byte_code (xs : List F32) (b i : Nat) : q8Byte xs b (4 + i) = BitVec.ofInt 8 ((blockCodes xs b).getD i 0) := by
  rw [q8Byte, if_neg (by omega), Nat.add_sub_cancel_left]

/-- Every store of a Q8 block is of the block's byte at its offset. -/
theorem eq_q8Byte_of_mem_q8Stores {dst : Nat} (hx : xs.length ≤ b) {w : Nat × Byte} (hw : w ∈ q8Stores dst b xs) :
    ∃ off < q8Size b, w = (dst + off, q8Byte xs b off) := by
  rcases List.mem_append.mp hw with hw | hw
  · obtain ⟨j, hj, rfl⟩ := mem_f32Stores.mp hw
    exact ⟨j, by simp only [q8Size]; omega, by rw [q8Byte_header xs b hj, extractLsb'_byte]⟩
  · obtain ⟨⟨c, i⟩, hc, rfl⟩ := List.mem_map.mp hw
    have hget := List.mk_mem_zipIdx_iff_getElem?.mp hc
    obtain ⟨hi, -⟩ := List.getElem?_eq_some_iff.mp hget
    rw [blockCodes_length hx] at hi
    refine ⟨4 + i, by simp only [q8Size]; omega, ?_⟩
    rw [q8Byte_code, List.getD_eq_getElem?_getD, hget, Nat.add_assoc]
    rfl

/-- The stores of a Q8 block are of its bytes, each at its offset. -/
theorem mem_q8Stores {dst : Nat} (hx : xs.length ≤ b) {w : Nat × Byte} :
    w ∈ q8Stores dst b xs ↔ ∃ off < q8Size b, w = (dst + off, q8Byte xs b off) := by
  refine ⟨eq_q8Byte_of_mem_q8Stores hx, ?_⟩
  rintro ⟨off, hoff, rfl⟩
  obtain ⟨w, hw, hwa⟩ := q8Stores_covers dst hx hoff
  obtain ⟨off', -, rfl⟩ := eq_q8Byte_of_mem_q8Stores hx hw
  obtain rfl : off' = off := by simpa using hwa
  exact hw

end QuantizedBlock

section QuantizedRow
/-! ### The elements of a row and the blocks that QROW leaves (42_quantize R111, R117) -/

variable {m m' : Memory} {b k pa pa' pc kb : Nat}

/-- A block that is there has a valid element (00_scope R13). -/
theorem mul_lt_of_lt_blockCount (hb : 0 < b) (h : kb < blockCount k b) : kb * b < k := by
  have hcover := blockCount_mul_le k b
  have hnext := Nat.mul_le_mul_right b (Nat.succ_le_of_lt h)
  rw [Nat.succ_mul] at hnext
  omega

theorem rowBlock_getElem? {i : Nat} (hi : i < b) :
    (rowBlock m b k pa kb)[i]? = if kb * b + i < k then some (m.f32 (pa + 4 * (kb * b + i))) else none := by
  rw [rowBlock, List.getElem?_map]
  split
  next hvalid => rw [List.getElem?_range (by omega), Option.map_some]
  next hpad => rw [List.getElem?_eq_none (by rw [List.length_range]; omega), Option.map_none]

theorem mem_rowBlock {x : F32} :
    x ∈ rowBlock m b k pa kb ↔ ∃ i < b, kb * b + i < k ∧ m.f32 (pa + 4 * (kb * b + i)) = x := by
  simp only [rowBlock, List.mem_map, List.mem_range, Nat.lt_min, and_assoc, Nat.lt_sub_iff_add_lt']

/-- A float read at two places that hold the same four bytes. -/
theorem Memory.f32_eq_f32 {a a' : Nat} (h : ∀ j < 4, m.read (a + j) = m'.read (a' + j)) : m.f32 a = m'.f32 a' := by
  rw [Memory.f32, Memory.f32, Memory.bytes, Memory.bytes, List.map_congr_left fun j hj => h j (List.mem_range.mp hj)]

/-- A block's elements depend on the bytes of the row alone, wherever it lies. -/
theorem rowBlock_eq_rowBlock (h : ∀ j < 4 * k, m.read (pa + j) = m'.read (pa' + j)) :
    rowBlock m b k pa kb = rowBlock m' b k pa' kb := by
  refine List.map_congr_left fun i hi => Memory.f32_eq_f32 fun j hj => ?_
  rw [List.mem_range] at hi
  rw [Nat.add_assoc, Nat.add_assoc]
  exact h _ (by omega)

/-- The byte that QROW leaves at an offset of a block: no other block and no other offset stores there. -/
theorem read_store_qrowStores (hm : m.wf)
    (hexists : ∀ a, inRanges [⟨pc, blockCount k b * q8Size b⟩] a = true → a < 2 ^ 64) (hkb : kb < blockCount k b) {off : Nat}
    (hoff : off < q8Size b) :
    (m.store (qrowStores m b k pa pc)).read (pc + kb * q8Size b + off) = q8Byte (rowBlock m b k pa kb) b off := by
  have hlen : ∀ kb, (rowBlock m b k pa kb).length ≤ b := fun kb => by
    rw [rowBlock_length]
    exact Nat.min_le_left _ _
  have hplace := row_block_lt hkb hoff
  refine Memory.read_store_of_mem hm (hexists _ (inRanges_single.mpr (by omega))) ?_ fun w hw hwa => ?_
  · exact List.mem_flatMap.mpr ⟨kb, List.mem_range.mpr hkb, (mem_q8Stores (hlen kb)).mpr ⟨off, hoff, rfl⟩⟩
  · obtain ⟨kb', -, hw⟩ := List.mem_flatMap.mp hw
    obtain ⟨off', hoff', rfl⟩ := (mem_q8Stores (hlen kb')).mp hw
    obtain ⟨rfl, rfl⟩ := row_block_inj (x := kb') (x' := kb) hoff' hoff (by simp only at hwa; omega)
    rfl

end QuantizedRow

section QrowRun
/-! ### What QROW answers (42_quantize R111, 20_memory R59) -/

/-- A byte of the write footprint exists, where the platform refuses no byte of the command (20_memory R46). -/
theorem lt_of_accessible {i : Instr} {s : State} (h : Accessible i s) {a : Nat}
    (ha : inRanges (writeFootprint i) a = true) : a < 2 ^ 64 :=
  (lt_of_refused_nil h (inRanges_append.trans (by rw [ha, Bool.or_true]))).1

variable {b : BitVec 16} {k : BitVec 32} {pa pc : Word} {s : State}

/-- A QROW that passes its checks completes, and every byte of every block is the one of the block's elements. -/
theorem exec_qrow (hlegal : (Instr.qrow b k pa pc).wellFormed = true) (hwf : s.mem.wf)
    (haccess : Accessible (.qrow b k pa pc) s) (hexclusive : Exclusive (.qrow b k pa pc) s) :
    ∃ t, exec (.qrow b k pa pc) s = .next t ∧ t = complete none { s with mem := t.mem } ∧
      ∀ kb < blockCount k.toNat b.toNat, ∀ off < q8Size b.toNat,
        t.mem.read (pc.toNat + kb * q8Size b.toNat + off) =
          q8Byte (rowBlock s.mem b.toNat k.toNat pa.toNat kb) b.toNat off := by
  refine ⟨_, exec_stores (checkInstr_eq_none.mpr hlegal) rfl haccess hexclusive, rfl, fun kb hkb off hoff => ?_⟩
  exact read_store_qrowStores hwf (fun a ha => lt_of_accessible haccess ha) hkb hoff

theorem blkLen_pos_of_qrow (hlegal : (Instr.qrow b k pa pc).wellFormed = true) : 0 < b.toNat := by
  obtain ⟨hmin, -⟩ := blkLen_of_firstCause (checkInstr_eq_none.mpr hlegal)
  omega

end QrowRun

section QuantizerSettled
/-! ### The statements -/

/-- Settles O47: the clauses are `cvtI8` by the class of the pattern, and `rta` is nearest by `rta_nearest`. -/
theorem codesAreSaturated : Obligations.CodesAreSaturated := by
  intro y
  obtain ⟨hlow, hhigh⟩ := cvtI8_bounds y
  exact ⟨hlow, hhigh, ofInt_ne_0x80 hlow hhigh, by decide, cvtI8_of_isNaN, by decide, by decide,
    fun hn hi => ⟨cvtI8_finite ⟨hn, hi⟩, rta_nearest y⟩⟩

/-- Settles O48: the maximum is `+0.0`, so the scale and the reciprocal are, and a zero times `+0.0` is a zero. -/
theorem zeroBlockQuantizesToZero : Obligations.ZeroBlockQuantizesToZero := by
  intro xs blkLen hzero
  have hmax : blockMax xs = 0 := blockMax_of_zeros hzero
  have hscale : blockScale xs = 0 := by
    rw [blockScale, hmax]
    decide
  have hrecip : scaleRecip (blockScale xs) = 0 := by
    rw [hscale]
    decide
  have hprod : ∀ x ∈ xs, isZero (fmul x (scaleRecip (blockScale xs))) = true := fun x hx => by
    rw [hrecip]
    exact isZero_fmul ⟨isNaN_of_isZero (hzero x hx), isInf_of_isZero (hzero x hx)⟩ (by decide)
  exact ⟨hmax, hscale, hrecip, hprod, blockCodes_eq_zero fun x hx => cvtI8_of_isZero (hprod x hx)⟩

/-- A block with a NaN (42_quantize R116 (a)): the NaN goes from the maximum into everything. -/
theorem nanBlock_quantized {xs : List F32} (hnan : ∃ x ∈ xs, isNaN x = true) :
    isNaN (blockMax xs) = true ∧ blockScale xs = cNaN ∧ scaleRecip (blockScale xs) = cNaN := by
  have hmax := isNaN_blockMax hnan
  have hscale : blockScale xs = cNaN := fdiv_of_isNaN (.inl hmax)
  refine ⟨hmax, hscale, ?_⟩
  rw [hscale]
  decide

/-- A block with an infinity and no NaN (42_quantize R116 (b)). -/
theorem infBlock_quantized {xs : List F32} (hn : ∀ x ∈ xs, isNaN x = false) (hinf : ∃ x ∈ xs, isInf x = true) :
    blockMax xs = 0x7F800000 ∧ blockScale xs = 0x7F800000 ∧ scaleRecip (blockScale xs) = 0 := by
  have hmax : blockMax xs = 0x7F800000 := blockMax_of_inf hn hinf
  have hscale : blockScale xs = 0x7F800000 := by
    rw [blockScale, hmax]
    decide
  refine ⟨hmax, hscale, ?_⟩
  rw [hscale]
  decide

/-- Settles O49: a NaN makes every product CNAN; an infinity makes the reciprocal `+0.0`, whose product is a zero or CNAN. -/
theorem nonFiniteBlockQuantizesToZeroCodes : Obligations.NonFiniteBlockQuantizesToZeroCodes := by
  intro xs blkLen
  refine ⟨fun hnan => ?_, fun hn hinf => ?_⟩
  · obtain ⟨hmax, hscale, hrecip⟩ := nanBlock_quantized hnan
    have hprod : ∀ x ∈ xs, fmul x (scaleRecip (blockScale xs)) = cNaN := fun x _ =>
      fmul_of_isNaN (.inr (by rw [hrecip]; decide))
    refine ⟨hmax, hscale, hrecip, hprod, blockCodes_eq_zero fun x hx => ?_, fun sc => ?_⟩
    · exact cvtI8_of_isNaN (by rw [hprod x hx]; decide)
    · rw [fmul_of_isNaN (a := blockScale xs) (.inl (by rw [hscale]; decide))]
      exact fmul_of_isNaN (.inr (by decide))
  · obtain ⟨hmax, hscale, hrecip⟩ := infBlock_quantized hn hinf
    have hfinite : ∀ x ∈ xs, isInf x = false → isZero (fmul x (scaleRecip (blockScale xs))) = true := fun x hx hi =>
      isZero_fmul ⟨hn x hx, hi⟩ (by rw [hrecip]; decide)
    have hinfinite : ∀ x ∈ xs, isInf x = true → fmul x (scaleRecip (blockScale xs)) = cNaN := fun x _ hi =>
      fmul_inf_zero hi (by rw [hrecip]; decide)
    refine ⟨hmax, hscale, hrecip, hfinite, hinfinite, blockCodes_eq_zero fun x hx => ?_, fun sc => ?_⟩
    · cases hi : isInf x with
      | true => exact cvtI8_of_isNaN (by rw [hinfinite x hx hi]; decide)
      | false => exact cvtI8_of_isZero (hfinite x hx hi)
    · exact fmul_zero_fmul_inf (by decide) (by rw [hscale]; decide) sc

/-- Settles O41: the bytes are those of `exec_qrow`, read off header byte by header byte and code by code; the maximum is the
largest magnitude of the block, which has a valid element. -/
theorem qrowWritesEveryBlock : Obligations.QrowWritesEveryBlock := by
  intro b k pa pc s hlegal hwf haccess hexclusive
  obtain ⟨t, hrun, hcomplete, hbyte⟩ := exec_qrow hlegal hwf haccess hexclusive
  refine ⟨t, hrun, hcomplete, fun kb hkb => ?_, fun kb hkb => ?_, fun a ha => exec_read_of_not_inRanges hwf hrun ha⟩
  · have hheader : ∀ j < 4, t.mem.read (pc.toNat + kb * (4 + b.toNat) + j) =
        (blockScale (rowBlock s.mem b.toNat k.toNat pa.toNat kb)).extractLsb' (8 * j) 8 := fun j hj =>
      (hbyte kb hkb j (by simp only [q8Size]; omega)).trans (q8Byte_header _ _ hj)
    refine ⟨Memory.f32_eq fun j hj => (hheader j hj).trans (extractLsb'_byte _ j), hheader, fun i hi => ?_⟩
    rw [Nat.add_assoc _ 4 i]
    refine (hbyte kb hkb (4 + i) (by simp only [q8Size]; omega)).trans ?_
    rw [q8Byte_code, blockCodes_getD, rowBlock_getElem? hi]
    split <;> rfl
  · have hfirst := mul_lt_of_lt_blockCount (blkLen_pos_of_qrow hlegal) hkb
    have hne : rowBlock s.mem b.toNat k.toNat pa.toNat kb ≠ [] :=
      List.ne_nil_of_mem (mem_rowBlock.mpr ⟨0, blkLen_pos_of_qrow hlegal, hfirst, rfl⟩)
    obtain ⟨x, hx, hattained⟩ := exists_absBits_eq_blockMax hne
    obtain ⟨i, hi, hvalid, rfl⟩ := mem_rowBlock.mp hx
    exact ⟨_, signBit_blockMax _, fun i hi hvalid => absBits_le_blockMax (mem_rowBlock.mpr ⟨i, hi, hvalid, rfl⟩),
      ⟨i, hi, hvalid, hattained⟩, rfl, rfl⟩

/-- Settles O50: each output byte is a byte of a block's elements (`exec_qrow`), which are the same in both runs. -/
theorem quantizationIsDeterministic : Obligations.QuantizationIsDeterministic := by
  intro b k pa pc pa' pc' s s' hlegal hlegal' hwf hwf' haccess haccess' hexclusive hexclusive' hinput
  obtain ⟨t, hrun, -, hbyte⟩ := exec_qrow hlegal hwf haccess hexclusive
  obtain ⟨t', hrun', -, hbyte'⟩ := exec_qrow hlegal' hwf' haccess' hexclusive'
  refine ⟨t, t', hrun, hrun', fun j hj => ?_⟩
  obtain ⟨kb, hkb, off, hoff, rfl⟩ := exists_row_block hj
  rw [← Nat.add_assoc, ← Nat.add_assoc]
  calc t.mem.read (pc.toNat + kb * (4 + b.toNat) + off)
      = q8Byte (rowBlock s.mem b.toNat k.toNat pa.toNat kb) b.toNat off := hbyte kb hkb off hoff
    _ = q8Byte (rowBlock s'.mem b.toNat k.toNat pa'.toNat kb) b.toNat off := by rw [rowBlock_eq_rowBlock hinput]
    _ = t'.mem.read (pc'.toNat + kb * (4 + b.toNat) + off) := (hbyte' kb hkb off hoff).symm

end QuantizerSettled

end Sys2Proof.Machine
end

section
/-! PROOFS. The statements about DequantizeEngine (spec/43_dequantize.md): the decode step (R120) with its bit-construction form (R121)
and worked example (R122), the matrix that DEQ writes (R123), and that GEMMF multiplies the same matrix (R124). -/

namespace Sys2Proof.Machine

open Sys2Proof.Safety

section DecodeStep
/-! ### The decode step (43_dequantize R120) -/

variable {sc : F32}

theorem dequant_of_isNaN (h : isNaN sc = true) (w zp : Nat) : dequant sc w zp = cNaN :=
  fmul_of_isNaN (.inl h)

/-- A nibble equal to its zero point leaves the scale times `+0.0`. -/
theorem dequant_self (sc : F32) (w : Nat) : dequant sc w w = fmul sc posZero := by
  rw [dequant, Int.sub_self]
  rfl

/-- A finite value times `+0.0` is a zero of the value's sign. -/
theorem fmul_posZero (h : isNaN sc = false ∧ isInf sc = false) : fmul sc posZero = withSign (signBit sc) 0 := by
  have hmag : magnitude posZero = 0 := by decide
  have hsign : (signBit sc != signBit posZero) = signBit sc := by
    rw [show signBit posZero = false by decide, Bool.bne_false]
  rw [fmul_finite h (by decide), hmag, Nat.mul_zero, roundBits_zero, hsign]

theorem Weights.zp_of_none {w : Weights} (h : w.ptrZ = none) (m : Memory) (col kb : Nat) : w.zp m col kb = 8 := by
  rw [Weights.zp, h]

end DecodeStep

section BitConstruction
/-! ### The bit-construction form (43_dequantize R121) -/

/-- The pattern whose four top fraction bits are a nibble, under the exponent of 16 (43_dequantize R121). -/
def nibblePattern (w : Nat) : F32 := BitVec.ofNat 32 (0x41800000 + w * 2 ^ 19)

variable {w zp : Nat}

/-- The exponent field is 131 and the nibble is the fraction's four top bits. -/
theorem nibblePattern_eq (w : Nat) : nibblePattern w = withSign false (131 * 2 ^ 23 + w * 2 ^ 19) := rfl

theorem signBit_nibblePattern (hw : w < 16) : signBit (nibblePattern w) = false := by
  rw [nibblePattern_eq, signBit_withSign _ (by omega)]

theorem nibblePattern_finite (hw : w < 16) : isNaN (nibblePattern w) = false ∧ isInf (nibblePattern w) = false := by
  have hinf : infBits = 255 * 2 ^ 23 := by decide
  exact ⟨isNaN_withSign false (by omega), isInf_withSign false (by omega)⟩

theorem scaledValue_nibblePattern (hw : w < 16) : scaledValue (nibblePattern w) = (16 + (w : Int)) * 2 ^ 149 := by
  rw [nibblePattern_eq, scaledValue_withSign false (by omega), magnitude_fields false (by decide) (by omega)]
  push_cast
  ring

/-- A pattern of sign 0 that holds an integer, plus a converted integer that was not rounded, is the sum converted: the sum `fadd`
rounds is the integer `i2f` rounds, and an exact 0 is `+0.0` in both. -/
theorem fadd_i2f {a : F32} {p q : Int} (ha : isNaN a = false ∧ isInf a = false) (hs : signBit a = false)
    (hp : scaledValue a = p * 2 ^ 149) (hq : q.natAbs ≤ 2 ^ 24) : fadd a (i2f q) = i2f (p + q) := by
  obtain ⟨hvalue, hnan, hinf⟩ := smallIntegersConvertExactly.1 q hq
  have hsum : scaledValue a + scaledValue (i2f q) = (p + q) * 2 ^ 149 := by
    rw [hp, hvalue]
    ring
  rw [fadd_finite ha ⟨hnan, hinf⟩, hsum]
  split
  next hzero =>
    rw [show p + q = 0 by omega, hs, Bool.false_and]
    decide
  next =>
    have hneg : ((p + q) * 2 ^ 149 < 0) = (p + q < 0) := propext (by omega)
    have habs : ((p + q) * 2 ^ 149).natAbs = (p + q).natAbs * 2 ^ 149 := by
      rw [Int.natAbs_mul]
      rfl
    simp only [i2f, roundF32, hneg, habs]

/-- `16 + w` less `16 + zp` is exactly the converted difference. -/
theorem fadd_nibblePattern (hw : w < 16) (hzp : zp < 16) :
    fadd (nibblePattern w) (i2f (-(16 + (zp : Int)))) = i2f ((w : Int) - (zp : Int)) := by
  rw [fadd_i2f (nibblePattern_finite hw) (signBit_nibblePattern hw) (scaledValue_nibblePattern hw) (by omega)]
  congr 1
  omega

end BitConstruction

section DeqMatrix
/-! ### The matrix that DEQ leaves (43_dequantize R123) -/

/-- An element that no store addresses keeps its value. -/
theorem Memory.f32_store_of_not_mem {m : Memory} (hm : m.wf) {ws : List (Nat × Byte)} {a : Nat}
    (h : ∀ j < 4, ∀ w ∈ ws, w.1 ≠ a + j) : (m.store ws).f32 a = m.f32 a :=
  Memory.f32_congr fun j hj => Memory.read_store_of_not_mem hm (h j hj)

/-- The stores of the valid values, which DEQ makes after the zero fill. -/
def deqValues (m : Memory) (w : Weights) (ldc ptrC : Nat) : List (Nat × Byte) :=
  (List.range w.n).flatMap fun col => (List.range w.k).flatMap fun row =>
    f32Stores (outAddr ptrC ldc row col) (deqElem w m row col)

theorem deqStores_eq (m : Memory) (w : Weights) (ldc ptrC : Nat) :
    deqStores m w ldc ptrC = deqZeroFill w.n w.k ldc ptrC ++ deqValues m w ldc ptrC := rfl

variable {m m' : Memory} {w : Weights} {ldc ptrC row col : Nat}

theorem mem_deqValues {x : Nat × Byte} : x ∈ deqValues m w ldc ptrC ↔ ∃ col < w.n, ∃ row < w.k, ∃ j < 4,
    x = (outAddr ptrC ldc row col + j, BitVec.ofNat 8 ((deqElem w m row col).toNat / 256 ^ j)) := by
  simp only [deqValues, List.mem_flatMap, List.mem_range, mem_f32Stores]

/-- A store of a valid value that meets a byte of an element of the padded region is that element's own. -/
theorem eq_of_mem_deqValues (hs : roundUp16 w.n ≤ ldc) (hcol : col < roundUp16 w.n) {j : Nat} (hj : j < 4) {x : Nat × Byte}
    (hx : x ∈ deqValues m w ldc ptrC) (hxa : x.1 = outAddr ptrC ldc row col + j) :
    (row < w.k ∧ col < w.n) ∧ x.2 = BitVec.ofNat 8 ((deqElem w m row col).toNat / 256 ^ j) := by
  obtain ⟨col', hcol', row', hrow', j', hj', rfl⟩ := mem_deqValues.mp hx
  obtain ⟨rfl, rfl, rfl⟩ := outAddr_inj hs (hcol'.trans_le (le_roundUp16 _)) hcol hj' hj hxa
  exact ⟨⟨hrow', hcol'⟩, rfl⟩

theorem f32_store_deqValues_valid (hm' : m'.wf) (hs : roundUp16 w.n ≤ ldc)
    (hexists : ∀ a, inRanges (rowRanges ptrC ldc (roundUp16 w.k) (roundUp16 w.n)) a = true → a < 2 ^ 64)
    (hrow : row < w.k) (hcol : col < w.n) :
    (m'.store (deqValues m w ldc ptrC)).f32 (outAddr ptrC ldc row col) = deqElem w m row col := by
  have hcolp : col < roundUp16 w.n := hcol.trans_le (le_roundUp16 _)
  refine Memory.f32_store hm' ?_ (fun j hj => mem_deqValues.mpr ⟨col, hcol, row, hrow, j, hj, rfl⟩)
    fun j hj x hx hxa => (eq_of_mem_deqValues hs hcolp hj hx hxa).2
  have := hexists _ (inRanges_rowRanges (hrow.trans_le (le_roundUp16 _)) hcolp (j := 3) (by decide))
  simp only [outAddr]
  omega

/-- An element of the padded region after DEQ's stores: the valid value, where there is one, was stored last, and the zero fill
is left elsewhere. -/
theorem f32_store_deqStores (hm : m.wf) (hs : roundUp16 w.n ≤ ldc)
    (hexists : ∀ a, inRanges (rowRanges ptrC ldc (roundUp16 w.k) (roundUp16 w.n)) a = true → a < 2 ^ 64)
    (hrow : row < roundUp16 w.k) (hcol : col < roundUp16 w.n) :
    (m.store (deqStores m w ldc ptrC)).f32 (outAddr ptrC ldc row col) =
      if row < w.k ∧ col < w.n then deqElem w m row col else posZero := by
  have hfilled : (m.store (deqZeroFill w.n w.k ldc ptrC)).wf := Memory.store_wf hm _
  rw [deqStores_eq, Memory.store_append]
  split
  next hvalid => exact f32_store_deqValues_valid hfilled hs hexists hvalid.1 hvalid.2
  next hpad =>
    rw [Memory.f32_store_of_not_mem hfilled fun j hj x hx hxa => hpad (eq_of_mem_deqValues hs hcol hj hx hxa).1]
    exact Memory.f32_store_matrix hm (fun _ _ => posZero) hs hexists hrow hcol

variable {b : BitVec 16} {n k ld : BitVec 32} {pb ps pc : Word} {pz : Option Word}

/-- A legal DEQ has a block length and a row stride that covers the padded row (30_encoding R74). -/
theorem deq_legal (h : (Instr.deq b n k ld pb ps pz pc).wellFormed = true) : 0 < b.toNat ∧ roundUp16 n.toNat ≤ ld.toNat := by
  have hc : checkInstr (.deq b n k ld pb ps pz pc) = none := checkInstr_eq_none.mpr h
  obtain ⟨hmin, -⟩ := blkLen_of_firstCause hc
  exact ⟨by omega, checkStride_none.mp (firstCause_none.mp hc _ (by simp))⟩

end DeqMatrix

section DenseProduct
/-! ### The float kernel's dot product over decoded weights (43_dequantize R124, 44_gemm_fp32 R132, R133) -/

/-- The blocks cover all of K (00_scope R13). -/
theorem le_blockCount_mul {b : Nat} (hb : 0 < b) (k : Nat) : k ≤ blockCount k b * b := by
  have hceil : k + b - 1 < b * (blockCount k b + 1) := Nat.lt_mul_div_succ _ hb
  rw [Nat.mul_succ, Nat.mul_comm] at hceil
  omega

/-- Going through blocks of `b` and the slots of each is going through all slots in order. -/
theorem foldl_range_blocks {α : Type} (f : α → Nat → α) (b n : Nat) (x : α) :
    (List.range n).foldl (fun x kb => (List.range b).foldl (fun x i => f x (kb * b + i)) x) x =
      (List.range (n * b)).foldl f x := by
  induction n with
  | zero => simp
  | succ n ih =>
    rw [List.range_succ, List.foldl_append, ih, Nat.succ_mul, List.range_add (n := n * b), List.foldl_append,
      List.foldl_map, List.foldl_cons, List.foldl_nil]

/-- Slots at or beyond `k` are skipped, so only the first `k` are gone through. -/
theorem foldl_range_skip {α : Type} (f : α → Nat → α) {k n : Nat} (h : k ≤ n) (x : α) :
    (List.range n).foldl (fun x i => if i < k then f x i else x) x = (List.range k).foldl f x := by
  obtain ⟨r, rfl⟩ := Nat.exists_eq_add_of_le h
  rw [List.range_add, List.foldl_append, List.foldl_map]
  have hvalid : (List.range k).foldl (fun x i => if i < k then f x i else x) x = (List.range k).foldl f x :=
    List.foldl_ext _ _ _ fun x i hi => if_pos (List.mem_range.mp hi)
  simp [hvalid]

/-- Slot `i` of block `kb` holds the weight of row `kb * BlkLen + i`. -/
theorem deqElem_slot {w : Weights} {i : Nat} (hi : i < w.blkLen) (m : Memory) (kb col : Nat) :
    deqElem w m (kb * w.blkLen + i) col = dequant (w.scale m col kb) (w.nib m .float col kb i) (w.zp m col kb) := by
  have hpos : 0 < w.blkLen := Nat.zero_lt_of_lt hi
  have hdiv : (kb * w.blkLen + i) / w.blkLen = kb := by
    rw [Nat.add_comm, Nat.add_mul_div_right _ _ hpos, Nat.div_eq_of_lt hi, Nat.zero_add]
  have hmod : (kb * w.blkLen + i) % w.blkLen = i := by
    rw [Nat.add_comm, Nat.add_mul_mod_self_right, Nat.mod_eq_of_lt hi]
  simp only [deqElem, hdiv, hmod]

theorem denseDot_congr {k : Nat} {a b b' : Nat → F32} (h : ∀ i < k, b i = b' i) : denseDot k a b = denseDot k a b' :=
  congrArg lanesSum (List.foldl_ext _ _ _ fun l i hi => by rw [h i (List.mem_range.mp hi)])

/-- The product of row `k`'s activation and decoded weight added to its lane. -/
def addProduct (m : Memory) (w : Weights) (pa lda row col : Nat) (l : Lanes) (k : Nat) : Lanes :=
  lanesAdd l k (fmul (activation m pa lda row k) (deqElem w m k col))

/-- A block's slots add the products of its rows, those beyond `K` skipped. -/
theorem dot32Block_eq (m : Memory) (w : Weights) (pa lda row col kb : Nat) (l : Lanes) :
    dot32Block m w pa lda row col kb l = (List.range w.blkLen).foldl (fun l i =>
      if kb * w.blkLen + i < w.k then addProduct m w pa lda row col l (kb * w.blkLen + i) else l) l :=
  List.foldl_ext _ _ _ fun l i hi => by simp only [addProduct, deqElem_slot (List.mem_range.mp hi)]

/-- `Dot32` is the dense four-lane product with the decoded weights: its blocks are one run over the rows, those beyond `K` skipped. -/
theorem dot32_eq_denseDot {w : Weights} (hpos : 0 < w.blkLen) (m : Memory) (pa lda row col : Nat) :
    dot32 m w pa lda row col = denseDot w.k (activation m pa lda row) fun i => deqElem w m i col := by
  have hcover : w.k ≤ w.bck * w.blkLen := le_blockCount_mul hpos w.k
  simp only [dot32, dot32Block_eq]
  rw [foldl_range_blocks (fun l k => if k < w.k then addProduct m w pa lda row col l k else l), foldl_range_skip _ hcover]
  rfl

end DenseProduct

section DequantizerSettled
/-! ### The statements -/

/-- Settles O53: the converted difference is 3.0, and 0.25 times it is exact. -/
theorem workedDequantizationExample : Obligations.WorkedDequantizationExample := by
  have hdiff : i2f (((5 : Nat) : Int) - ((2 : Nat) : Int)) = 0x40400000 := by decide
  rw [Obligations.WorkedDequantizationExample, dequant, hdiff]
  decide

/-- Settles O51: the clauses are the product's by the class of the scale; a converted 0 is `+0.0`. -/
theorem decodeStepRule : Obligations.DecodeStepRule := by
  refine ⟨fun sc w zp _ _ => ⟨rfl, fun hnan => dequant_of_isNaN hnan w zp, ?_, ?_⟩,
    fun w m col kb hz => w.zp_of_none hz m col kb⟩
  · rintro hinf rfl
    rw [dequant_self]
    exact fmul_inf_zero hinf (by decide)
  · rintro hnan hinf rfl
    rw [dequant_self, fmul_posZero ⟨hnan, hinf⟩]

/-- Settles O52: both terms and their difference are integers, held exactly (`fadd_nibblePattern`). -/
theorem bitConstructionGivesTheSameValue : Obligations.BitConstructionGivesTheSameValue := by
  intro w zp sc hw hzp
  exact ⟨scaledValue_nibblePattern hw, fadd_nibblePattern hw hzp, congrArg (fmul sc) (fadd_nibblePattern hw hzp)⟩

/-- Settles O38: DEQ completes with its stores, which leave the decoded matrix in its zero padding (`f32_store_deqStores`). -/
theorem deqMaterializesTheMatrix : Obligations.DeqMaterializesTheMatrix := by
  intro b n k ldc pb ps pz pc s hlegal hwf haccess hexclusive
  obtain ⟨-, hstride⟩ := deq_legal hlegal
  have hrun := exec_stores (checkInstr_eq_none.mpr hlegal) rfl haccess hexclusive
  refine ⟨_, hrun, rfl, fun row hrow col hcol => ?_, fun a ha => exec_read_of_not_inRanges hwf hrun ha⟩
  exact f32_store_deqStores (w := weightsOf b n k pb ps pz) hwf hstride (fun a ha => lt_of_accessible haccess ha) hrow hcol

/-- Settles O55: an element of DEQ's matrix is the decoded weight, and GEMMF's dot product is the dense one with those. -/
theorem floatKernelMultipliesWhatDeqWrites : Obligations.FloatKernelMultipliesWhatDeqWrites := by
  intro b n k ldc pb ps pz pc s hlegal hwf haccess hexclusive
  obtain ⟨hpos, -⟩ := deq_legal hlegal
  obtain ⟨t, hrun, -, hmatrix, -⟩ := deqMaterializesTheMatrix b n k ldc pb ps pz pc s hlegal hwf haccess hexclusive
  have helem : ∀ i < k.toNat, ∀ col < n.toNat,
      t.mem.f32 (outAddr pc.toNat ldc.toNat i col) = deqElem (weightsOf b n k pb ps pz) s.mem i col := fun i hi col hcol => by
    rw [hmatrix i (hi.trans_le (le_roundUp16 _)) col (hcol.trans_le (le_roundUp16 _)), if_pos ⟨hi, hcol⟩]
  refine ⟨t, hrun, helem, fun pa lda row col hcol => ?_⟩
  rw [dot32_eq_denseDot (w := weightsOf b n k pb ps pz) hpos]
  exact denseDot_congr fun i hi => (helem i hi col hcol).symm

end DequantizerSettled

end Sys2Proof.Machine
end

section
/-! PROOFS. The statements about the float kernel (spec/44_gemm_fp32.md): what GEMMF writes (R131, R132), that no result without bias is
-0.0 (R135), how near a result is to the exact product (R136), and that no element of either kernel depends on its tile
(R134; spec/45_gemm_int8.md R146). -/

namespace Sys2Proof.Machine

open Sys2Proof.Safety

section LaneByIndex
/-! ### The lanes by their number (44_gemm_fp32 R132) -/

/-- Lane `j` of the four. -/
def Lanes.lane (l : Lanes) : Nat → F32
  | 0 => l.l0
  | 1 => l.l1
  | 2 => l.l2
  | _ => l.l3

/-- A product goes to the lane `k mod 4` and leaves the others. -/
theorem lane_lanesAdd (l : Lanes) (k : Nat) (p : F32) {j : Nat} (hj : j < 4) :
    (lanesAdd l k p).lane j = if k % 4 = j then fadd (l.lane j) p else l.lane j := by
  have hk : k % 4 < 4 := Nat.mod_lt k (by decide)
  unfold lanesAdd
  generalize k % 4 = i at *
  interval_cases i <;> interval_cases j <;> rfl

theorem lane_lanesZero (j : Nat) : lanesZero.lane j = posZero := by
  unfold Lanes.lane
  split <;> rfl

theorem lanesSum_eq (l : Lanes) : lanesSum l = fadd (fadd (l.lane 0) (l.lane 1)) (fadd (l.lane 2) (l.lane 3)) := rfl

end LaneByIndex

section NegativeZero
/-! ### No lane is ever -0.0 (44_gemm_fp32 R135) -/

/-- `-0.0` (00_scope R10). -/
def negZero : F32 := 0x80000000

variable {a b : F32}

/-- A finite sum has finite terms. -/
theorem finite_of_fadd (hn : isNaN (fadd a b) = false) (hi : isInf (fadd a b) = false) :
    (isNaN a = false ∧ isInf a = false) ∧ isNaN b = false ∧ isInf b = false := by
  by_cases hnan : isNaN a = true ∨ isNaN b = true
  · rw [fadd_of_isNaN hnan] at hn
    exact absurd hn (by decide)
  obtain ⟨hna, hnb⟩ : isNaN a = false ∧ isNaN b = false := by simpa using hnan
  cases hia : isInf a with
  | true =>
    by_cases hopposite : isInf b = true ∧ signBit a ≠ signBit b
    · rw [fadd_inf_opposite hia hopposite.1 hopposite.2] at hn
      exact absurd hn (by decide)
    · rw [fadd_inf_left hia hnb (by simpa using hopposite), hia] at hi
      exact absurd hi (by decide)
  | false =>
    cases hib : isInf b with
    | true =>
      rw [fadd_inf_right ⟨hna, hia⟩ hib, hib] at hi
      exact absurd hi (by decide)
    | false => exact ⟨⟨hna, rfl⟩, hnb, rfl⟩

theorem eq_negZero (hs : signBit a = true) (hz : magnitude a = 0) : a = negZero := by
  have habs : absBits a = 0 := by simpa [isZero] using magnitude_eq_zero.mp hz
  rw [← withSign_signBit_absBits a, hs, habs]
  rfl

/-- A sum is `-0.0` only where both terms are: a zero sum is exact and has the sign both terms have, and exact values of one sign
cancel only where both are zero. -/
theorem eq_negZero_of_fadd (h : fadd a b = negZero) : a = negZero ∧ b = negZero := by
  obtain ⟨ha, hb⟩ := finite_of_fadd (a := a) (b := b) (by rw [h]; decide) (by rw [h]; decide)
  rw [fadd_finite ha hb] at h
  split at h
  next hsum =>
    have hsigns : (signBit a && signBit b) = true := by
      rw [← signBit_withSign (signBit a && signBit b) (q := 0) (by decide), h]
      decide
    obtain ⟨hsa, hsb⟩ := Bool.and_eq_true_iff.mp hsigns
    rw [scaledValue, scaledValue, if_pos hsa, if_pos hsb] at hsum
    exact ⟨eq_negZero hsa (by omega), eq_negZero hsb (by omega)⟩
  next hsum =>
    have hzero := (isZero_withSign _ ((roundBits_le_infBits _ _).trans_lt (by decide))).mp
      ((congrArg isZero h).trans (by decide))
    exact absurd hzero (roundBits_ne_zero (Int.natAbs_pos.mpr hsum))

/-- No lane is `-0.0`. -/
def Lanes.noNegZero (l : Lanes) : Prop := ∀ j < 4, l.lane j ≠ negZero

theorem noNegZero_iff {l : Lanes} :
    l.noNegZero ↔ l.l0 ≠ negZero ∧ l.l1 ≠ negZero ∧ l.l2 ≠ negZero ∧ l.l3 ≠ negZero := by
  constructor
  · intro h
    exact ⟨h 0 (by decide), h 1 (by decide), h 2 (by decide), h 3 (by decide)⟩
  · rintro ⟨h0, h1, h2, h3⟩ j hj
    interval_cases j <;> assumption

theorem noNegZero_lanesZero : lanesZero.noNegZero := fun j _ => by
  rw [lane_lanesZero]
  decide

theorem noNegZero_lanesAdd {l : Lanes} (h : l.noNegZero) (k : Nat) (p : F32) : (lanesAdd l k p).noNegZero := by
  intro j hj
  rw [lane_lanesAdd l k p hj]
  split
  · exact fun hsum => h j hj (eq_negZero_of_fadd hsum).1
  · exact h j hj

theorem lanesSum_ne_negZero {l : Lanes} (h : l.noNegZero) : lanesSum l ≠ negZero := fun hsum =>
  h 0 (by decide) (eq_negZero_of_fadd (eq_negZero_of_fadd hsum).1).1

variable (m : Memory) (w : Weights) (pa lda row col : Nat)

theorem noNegZero_dot32Block (kb : Nat) {l : Lanes} (h : l.noNegZero) : (dot32Block m w pa lda row col kb l).noNegZero :=
  List.foldlRecOn _ _ h fun l hl i _ => by
    dsimp only
    split
    · exact noNegZero_lanesAdd hl _ _
    · exact hl

theorem dot32_ne_negZero : dot32 m w pa lda row col ≠ negZero :=
  lanesSum_ne_negZero <| List.foldlRecOn _ _ noNegZero_lanesZero fun _ hl kb _ =>
    noNegZero_dot32Block m w pa lda row col kb hl

end NegativeZero

section LaneSums
/-! ### The exact sum of each lane's terms (44_gemm_fp32 R132) -/

variable {α : Type} [AddCommMonoid α]

/-- The terms among the first `n` that go to lane `j`, summed. -/
def laneTotal (f : Nat → α) (n j : Nat) : α := ((List.range n).map fun k => if k % 4 = j then f k else 0).sum

theorem laneTotal_zero (f : Nat → α) (j : Nat) : laneTotal f 0 j = 0 := rfl

theorem laneTotal_succ (f : Nat → α) (n j : Nat) :
    laneTotal f (n + 1) j = laneTotal f n j + if n % 4 = j then f n else 0 := List.sum_range_succ _ n

/-- Every term goes to one of the four lanes. -/
theorem laneTotal_lanes (f : Nat → α) (n : Nat) :
    laneTotal f n 0 + laneTotal f n 1 + (laneTotal f n 2 + laneTotal f n 3) = ((List.range n).map f).sum := by
  induction n with
  | zero => simp [laneTotal_zero]
  | succ n ih =>
    have hone : (if n % 4 = 0 then f n else 0) + (if n % 4 = 1 then f n else 0) +
        ((if n % 4 = 2 then f n else 0) + if n % 4 = 3 then f n else 0) = f n := by
      have hn : n % 4 < 4 := Nat.mod_lt n (by decide)
      generalize n % 4 = i at *
      interval_cases i <;> simp
    rw [List.sum_range_succ, ← ih]
    simp only [laneTotal_succ]
    nth_rw 5 [← hone]
    abel

theorem laneTotal_le_sum (g : Nat → Nat) (n : Nat) {j : Nat} (hj : j < 4) : laneTotal g n j ≤ ((List.range n).map g).sum := by
  rw [← laneTotal_lanes g n]
  interval_cases j <;> omega

end LaneSums

section Near
/-! ### Floats near an exact value (44_gemm_fp32 R136)

An exact value is a count of 2^-298, in which a product of two floats is exact. -/

/-- A finite float that stands for the exact value `e` of size at most `s` and is off by at most `c` parts of `s` in 2^23. -/
def Near (x : F32) (e : Int) (s c : Nat) : Prop :=
  (isNaN x = false ∧ isInf x = false) ∧ e.natAbs ≤ s ∧ 2 ^ 23 * (scaledValue x * 2 ^ 149 - e).natAbs ≤ c * s

variable {x y : F32} {e e' : Int} {s s' c c' : Nat}

theorem Near.mono (h : Near x e s c) (hc : c ≤ c') : Near x e s c' := by
  obtain ⟨hfinite, hsize, herr⟩ := h
  exact ⟨hfinite, hsize, herr.trans (Nat.mul_le_mul_right s hc)⟩

theorem near_posZero (c : Nat) : Near posZero 0 0 c := by
  have hvalue : scaledValue posZero = 0 := by decide
  exact ⟨by decide, by simp, by simp [hvalue]⟩

/-- A sum is off by the errors of its terms and one part more: its rounding is within half a part of twice the size. -/
theorem Near.add (hx : Near x e s c) (hy : Near y e' s' c) (hc : c ≤ 2 ^ 23) (hs : s + s' ≤ 2 ^ 250 * 2 ^ 149) :
    Near (fadd x y) (e + e') (s + s') (c + 1) := by
  obtain ⟨hfx, hsx, herrx⟩ := hx
  obtain ⟨hfy, hsy, herry⟩ := hy
  have hcx : c * s ≤ 2 ^ 23 * s := Nat.mul_le_mul_right s hc
  have hcy : c * s' ≤ 2 ^ 23 * s' := Nat.mul_le_mul_right s' hc
  have hvalue : (scaledValue x + scaledValue y).natAbs * 2 ^ 149 ≤ 2 * (s + s') := by omega
  obtain ⟨hn, hi, hround⟩ := fadd_close hfx hfy (by omega)
  refine ⟨⟨hn, hi⟩, by omega, ?_⟩
  have htriangle : (scaledValue (fadd x y) * 2 ^ 149 - (e + e')).natAbs ≤
      (scaledValue (fadd x y) - (scaledValue x + scaledValue y)).natAbs * 2 ^ 149 +
        ((scaledValue x * 2 ^ 149 - e).natAbs + (scaledValue y * 2 ^ 149 - e').natAbs) := by omega
  calc 2 ^ 23 * (scaledValue (fadd x y) * 2 ^ 149 - (e + e')).natAbs ≤ c * s + c * s' + (s + s') := by omega
    _ = (c + 1) * (s + s') := by ring

/-- A pattern of magnitude at most 2^40 is no NaN and no infinity. -/
theorem finite_of_magnitude_le (h : magnitude x ≤ 2 ^ 189) : isNaN x = false ∧ isInf x = false := by
  have hbits : absBits x < infBits := by
    by_contra hge
    have hexp : 255 ≤ absBits x / 2 ^ 23 := (Nat.le_div_iff_mul_le (by decide)).mpr (not_lt.mp hge)
    have hmag := le_magnitude (x := x) (by omega)
    have hpow : 2 ^ 254 ≤ 2 ^ (absBits x / 2 ^ 23 - 1) := Nat.pow_le_pow_right (by decide) (by omega)
    omega
  simp only [isNaN, isInf, decide_eq_false_iff_not, beq_eq_false_iff_ne]
  omega

theorem tame_le (h : tame x) : magnitude x ≤ 2 ^ 189 := by
  rcases h with h | ⟨-, h⟩ <;> omega

theorem tame_finite (h : tame x) : isNaN x = false ∧ isInf x = false := finite_of_magnitude_le (tame_le h)

/-- A float stands for its own value. -/
theorem near_self (h : isNaN x = false ∧ isInf x = false) :
    Near x (scaledValue x * 2 ^ 149) (scaledValue x * 2 ^ 149).natAbs 0 := ⟨h, le_rfl, by simp⟩

end Near

section Terms
/-! ### One term of the product: a decoded weight, times an activation (43_dequantize R120, 44_gemm_fp32 R132) -/

/-- A product of two numbers that are zero or not small is zero or not small. -/
theorem mul_eq_zero_or_le {a b lo lo' : Nat} (ha : a = 0 ∨ lo ≤ a) (hb : b = 0 ∨ lo' ≤ b) : a * b = 0 ∨ lo * lo' ≤ a * b := by
  rcases ha with rfl | ha
  · exact .inl (Nat.zero_mul b)
  · rcases hb with rfl | hb
    · exact .inl (Nat.mul_zero a)
    · exact .inr (Nat.mul_le_mul ha hb)

variable {x sc : F32} {nib zp : Nat}

/-- A scale times the difference of a nibble and a zero point is zero or of magnitude 2^-40 to 15 * 2^40. -/
theorem scale_mul_diff_size (hsc : tame sc) (hnib : nib < 16) (hzp : zp < 16) :
    ((scaledValue sc * ((nib : Int) - zp)).natAbs = 0 ∨ 2 ^ 109 ≤ (scaledValue sc * ((nib : Int) - zp)).natAbs) ∧
      (scaledValue sc * ((nib : Int) - zp)).natAbs ≤ 2 ^ 189 * 15 := by
  rw [Int.natAbs_mul, natAbs_scaledValue]
  constructor
  · have hlow := mul_eq_zero_or_le (lo' := 1) (hsc.imp_right And.left)
      (show ((nib : Int) - zp).natAbs = 0 ∨ 1 ≤ ((nib : Int) - zp).natAbs by omega)
    omega
  · exact Nat.mul_le_mul (tame_le hsc) (by omega)

/-- A decoded weight is off by at most one part in 2^24 of scale times difference. -/
theorem dequant_close (hsc : tame sc) (hnib : nib < 16) (hzp : zp < 16) :
    (isNaN (dequant sc nib zp) = false ∧ isInf (dequant sc nib zp) = false) ∧
      2 ^ 24 * (scaledValue (dequant sc nib zp) - scaledValue sc * ((nib : Int) - zp)).natAbs ≤
        (scaledValue sc * ((nib : Int) - zp)).natAbs := by
  obtain ⟨hlow, hhigh⟩ := scale_mul_diff_size hsc hnib hzp
  obtain ⟨hvalue, hfinite⟩ := smallIntegersConvertExactly.1 ((nib : Int) - zp) (by omega)
  have hclose := fmul_close (tame_finite hsc) hfinite
  rw [hvalue, ← mul_assoc] at hclose
  rw [dequant]
  generalize scaledValue sc * ((nib : Int) - zp) = v at *
  obtain ⟨hn, hi, herr⟩ := hclose (by omega) (by omega)
  exact ⟨⟨hn, hi⟩, by omega⟩

/-- An activation times a decoded weight stands for the exact product, off by its two roundings. -/
theorem near_product (hx : tame x) (hsc : tame sc) (hnib : nib < 16) (hzp : zp < 16) :
    Near (fmul x (dequant sc nib zp)) (scaledValue x * (scaledValue sc * ((nib : Int) - zp)))
      (scaledValue x * (scaledValue sc * ((nib : Int) - zp))).natAbs 2 := by
  obtain ⟨hlow, hhigh⟩ := scale_mul_diff_size hsc hnib hzp
  obtain ⟨hfinite, herr⟩ := dequant_close hsc hnib hzp
  generalize scaledValue sc * ((nib : Int) - zp) = v at *
  generalize dequant sc nib zp = q at *
  have hmul : (scaledValue x * scaledValue q).natAbs = magnitude x * (scaledValue q).natAbs := by
    rw [Int.natAbs_mul, natAbs_scaledValue]
  have hbelow : magnitude x * (scaledValue q).natAbs ≤ 2 ^ 189 * 2 ^ 194 := Nat.mul_le_mul (tame_le hx) (by omega)
  have habove := mul_eq_zero_or_le (lo' := 2 ^ 108) (hx.imp_right And.left)
    (show (scaledValue q).natAbs = 0 ∨ 2 ^ 108 ≤ (scaledValue q).natAbs by omega)
  obtain ⟨hn, hi, hround⟩ := fmul_close (tame_finite hx) hfinite (by omega) (by omega)
  have hweight : 2 ^ 24 * (scaledValue x * scaledValue q - scaledValue x * v).natAbs ≤ (scaledValue x * v).natAbs := by
    rw [← mul_sub, Int.natAbs_mul, Int.natAbs_mul, Nat.mul_left_comm]
    exact Nat.mul_le_mul_left _ herr
  refine ⟨⟨hn, hi⟩, le_rfl, ?_⟩
  generalize scaledValue x * scaledValue q = p at *
  generalize scaledValue x * v = t at *
  omega

end Terms

section NibbleBounds
/-! ### Nibbles and zero points have four bits (20_memory R51, R54) -/

theorem lowNibble_lt (b : Byte) : lowNibble b < 16 := Nat.mod_lt _ (by decide)

theorem highNibble_lt (b : Byte) : highNibble b < 16 := (Nat.div_lt_iff_lt_mul (by decide)).mpr b.isLt

theorem Weights.nib_lt (w : Weights) (m : Memory) (mode : Mode) (col kb i : Nat) : w.nib m mode col kb i < 16 := by
  simp only [Weights.nib, packedNibble]
  split
  · exact lowNibble_lt _
  · exact highNibble_lt _

theorem Weights.zp_lt (w : Weights) (m : Memory) (col kb : Nat) : w.zp m col kb < 16 := by
  unfold Weights.zp
  split
  · decide
  · dsimp only
    split
    · exact lowNibble_lt _
    · exact highNibble_lt _

end NibbleBounds

section Accuracy
/-! ### The four-lane sum and the bias (44_gemm_fp32 R131, R132, R136) -/

section Sum
variable {p : Nat → F32} {f : Nat → Int} {g : Nat → Nat} {n : Nat}

/-- Each lane stands for the exact sum of its terms, off by at most one part for each of the terms so far. -/
theorem near_lane (hp : ∀ k < n, Near (p k) (f k) (g k) 2) (hn : n ≤ 4096)
    (hs : ((List.range n).map g).sum ≤ 2 ^ 250 * 2 ^ 149) {j : Nat} (hj : j < 4) :
    Near (((List.range n).foldl (fun l k => lanesAdd l k (p k)) lanesZero).lane j) (laneTotal f n j) (laneTotal g n j)
      (n + 2) := by
  induction n with
  | zero =>
    rw [List.range_zero, List.foldl_nil, lane_lanesZero]
    exact near_posZero 2
  | succ n ih =>
    have hlane := laneTotal_le_sum g (n + 1) hj
    have hprev := ih (fun k hk => hp k (by omega)) (by omega) (by rw [List.sum_range_succ] at hs; omega)
    rw [List.range_succ, List.foldl_append, List.foldl_cons, List.foldl_nil, lane_lanesAdd _ _ _ hj]
    rw [laneTotal_succ] at hlane
    rw [laneTotal_succ, laneTotal_succ]
    split
    next hk =>
      rw [if_pos hk] at hlane
      exact hprev.add ((hp n (by omega)).mono (by omega)) (by omega) (by omega)
    next =>
      rw [add_zero, add_zero]
      exact hprev.mono (by omega)

/-- The pairwise sum of the lanes stands for the exact sum of all terms. -/
theorem near_lanesSum (hp : ∀ k < n, Near (p k) (f k) (g k) 2) (hn : n ≤ 4096)
    (hs : ((List.range n).map g).sum ≤ 2 ^ 250 * 2 ^ 149) :
    Near (lanesSum ((List.range n).foldl (fun l k => lanesAdd l k (p k)) lanesZero)) ((List.range n).map f).sum
      ((List.range n).map g).sum (n + 4) := by
  have hlane := fun j hj => near_lane hp hn hs (j := j) hj
  rw [← laneTotal_lanes f, ← laneTotal_lanes g, lanesSum_eq]
  rw [← laneTotal_lanes g] at hs
  have hlow := (hlane 0 (by decide)).add (hlane 1 (by decide)) (by omega) (by omega)
  have hhigh := (hlane 2 (by decide)).add (hlane 3 (by decide)) (by omega) (by omega)
  exact hlow.add hhigh (by omega) (by omega)

end Sum

variable {m : Memory} {w : Weights} {bias : Option Word} {pa lda row col : Nat}

/-- The exact value of a term, with the weight's exact value in one factor. -/
theorem exactTerm_eq (k : Nat) : exactTerm m w pa lda row col k = scaledValue (activation m pa lda row k) *
    (scaledValue (w.scale m col (k / w.blkLen)) *
      ((w.nib m .float col (k / w.blkLen) (k % w.blkLen) : Int) - (w.zp m col (k / w.blkLen) : Int))) := mul_assoc _ _ _

/-- The data of R136's bound: the first `K` activations of the row and their scales are tame. -/
def tameRow (m : Memory) (w : Weights) (pa lda row col : Nat) : Prop :=
  ∀ k < w.k, tame (activation m pa lda row k) ∧ tame (w.scale m col (k / w.blkLen))

theorem near_exactTerm (h : tameRow m w pa lda row col) {k : Nat} (hk : k < w.k) :
    Near (fmul (activation m pa lda row k) (deqElem w m k col)) (exactTerm m w pa lda row col k)
      (exactTerm m w pa lda row col k).natAbs 2 := by
  obtain ⟨hact, hscale⟩ := h k hk
  rw [exactTerm_eq]
  exact near_product hact hscale (w.nib_lt ..) (w.zp_lt ..)

theorem natAbs_exactTerm_le (h : tameRow m w pa lda row col) {k : Nat} (hk : k < w.k) :
    (exactTerm m w pa lda row col k).natAbs ≤ 2 ^ 189 * (2 ^ 189 * 15) := by
  obtain ⟨hact, hscale⟩ := h k hk
  rw [exactTerm_eq, Int.natAbs_mul, natAbs_scaledValue]
  exact Nat.mul_le_mul (tame_le hact) (scale_mul_diff_size hscale (w.nib_lt ..) (w.zp_lt ..)).2

theorem sum_natAbs_exactTerm_le (h : tameRow m w pa lda row col) (hk : w.k ≤ 4096) :
    ((List.range w.k).map fun k => (exactTerm m w pa lda row col k).natAbs).sum ≤ 2 ^ 249 * 2 ^ 149 := by
  have hsum := List.sum_le_card_nsmul ((List.range w.k).map fun k => (exactTerm m w pa lda row col k).natAbs)
    (2 ^ 189 * (2 ^ 189 * 15)) (by
      intro s hs
      obtain ⟨k, hk, rfl⟩ := List.mem_map.mp hs
      exact natAbs_exactTerm_le h (List.mem_range.mp hk))
  rw [List.length_map, List.length_range, smul_eq_mul] at hsum
  calc _ ≤ w.k * (2 ^ 189 * (2 ^ 189 * 15)) := hsum
    _ ≤ 4096 * (2 ^ 189 * (2 ^ 189 * 15)) := Nat.mul_le_mul_right _ hk
    _ ≤ 2 ^ 249 * 2 ^ 149 := by norm_num

/-- The dot product stands for the exact sum of the terms. -/
theorem near_dot32 (hpos : 0 < w.blkLen) (hk : w.k ≤ 4096) (h : tameRow m w pa lda row col) :
    Near (dot32 m w pa lda row col) ((List.range w.k).map (exactTerm m w pa lda row col)).sum
      ((List.range w.k).map fun k => (exactTerm m w pa lda row col k).natAbs).sum (w.k + 4) := by
  rw [dot32_eq_denseDot hpos]
  exact near_lanesSum (fun k hk => near_exactTerm h hk) hk ((sum_natAbs_exactTerm_le h hk).trans (by omega))

/-- The element stands for the exact one, bias included. -/
theorem near_gemmfElem (hpos : 0 < w.blkLen) (hk : w.k ≤ 4096) (h : tameRow m w pa lda row col)
    (hbias : ∀ p, bias = some p → tame (m.f32 (p.toNat + 4 * col))) :
    Near (gemmfElem m w bias pa lda row col) (exactElem m w bias pa lda row col) (exactSize m w bias pa lda row col)
      (w.k + 5) := by
  have hdot := near_dot32 hpos hk h
  cases bias with
  | none => simpa [gemmfElem, addBias, exactElem, exactSize, exactBias] using hdot.mono (Nat.le_succ _)
  | some p =>
    have hb := hbias p rfl
    have hsize : (exactBias m (some p) col).natAbs ≤ 2 ^ 189 * 2 ^ 149 := by
      rw [exactBias, Int.natAbs_mul, natAbs_scaledValue]
      exact Nat.mul_le_mul_right _ (tame_le hb)
    have hsum := sum_natAbs_exactTerm_le h hk
    exact hdot.add ((near_self (tame_finite hb)).mono (Nat.zero_le _)) (by omega) (by omega)

end Accuracy

section Tiles
/-! ### Operands of a tile (44_gemm_fp32 R134, 45_gemm_int8 R146, 60_exceptions R171) -/

variable (m : Memory) (w : Weights) (c n : Nat)

@[simp] theorem columnTile_blkLen : (columnTile w c n).blkLen = w.blkLen := rfl
@[simp] theorem columnTile_k : (columnTile w c n).k = w.k := rfl
@[simp] theorem columnTile_bck : (columnTile w c n).bck = w.bck := rfl

@[simp] theorem columnTile_nib (mode : Mode) (col kb i : Nat) :
    (columnTile w c n).nib m mode col kb i = w.nib m mode (c + col) kb i := by
  have haddr : (columnTile w c n).ptrB + (columnTile w c n).block col kb * (w.blkLen / 2) =
      w.ptrB + w.block (c + col) kb * (w.blkLen / 2) := by
    simp only [columnTile, Weights.block, Weights.bck]
    ring
  rw [Weights.nib, Weights.nib, columnTile_blkLen, haddr]

@[simp] theorem columnTile_scale (col kb : Nat) : (columnTile w c n).scale m col kb = w.scale m (c + col) kb := by
  have haddr : (columnTile w c n).ptrS + 4 * (columnTile w c n).block col kb = w.ptrS + 4 * w.block (c + col) kb := by
    simp only [columnTile, Weights.block, Weights.bck]
    ring
  rw [Weights.scale, Weights.scale, haddr]

@[simp] theorem columnTile_zp (col kb : Nat) : (columnTile w c n).zp m col kb = w.zp m (c + col) kb := by
  obtain ⟨b, n', k, pb, ps, pz⟩ := w
  cases pz with
  | none => rfl
  | some z => simp only [Weights.zp, columnTile, Option.map_some, Nat.add_mul, Nat.add_assoc]

/-- Row `row` of the tile of A that starts at row `r`. -/
theorem activation_tile (pa lda r row k : Nat) :
    activation m (pa + 4 * (r * lda)) lda row k = activation m pa lda (r + row) k := by
  rw [activation, activation]
  congr 1
  ring

/-- Row `row` of the tile of the workspace that starts at row `r`. -/
theorem qBase_tile (pa blkLen bck r row kb : Nat) :
    qBase (pa + r * bck * (4 + blkLen)) blkLen bck row kb = qBase pa blkLen bck (r + row) kb := by
  rw [qBase, qBase, q8Size]
  ring

theorem outAddr_tile (pc ldc r row col : Nat) :
    outAddr (pc + 4 * c + 4 * (r * ldc)) ldc row col = outAddr pc ldc (r + row) (c + col) := by
  rw [outAddr, outAddr]
  ring

theorem addBias_tile {bias bias' : Option Word} {c : Nat} (h : biasTile bias bias' c) (col : Nat) (v : F32) :
    addBias m bias' col v = addBias m bias (c + col) v := by
  match bias, bias', h with
  | none, none, _ => rfl
  | some p, some q, h =>
    simp only [biasTile] at h
    simp only [addBias, h, Nat.mul_add, Nat.add_assoc]

theorem dot32_tile (pa lda r row col : Nat) :
    dot32 m (columnTile w c n) (pa + 4 * (r * lda)) lda row col = dot32 m w pa lda (r + row) (c + col) := by
  simp only [dot32, dot32Block, activation_tile, columnTile_blkLen, columnTile_k, columnTile_bck, columnTile_nib,
    columnTile_scale, columnTile_zp]

theorem dotQ8_tile (pa r row col : Nat) :
    dotQ8 m (columnTile w c n) (pa + r * w.bck * (4 + w.blkLen)) row col = dotQ8 m w pa (r + row) (c + col) := by
  simp only [dotQ8, blockTerm, blockDot, qScale, qCode, qBase_tile, columnTile_blkLen, columnTile_bck, columnTile_nib,
    columnTile_scale, columnTile_zp]

end Tiles

section FloatKernelSettled
/-! ### The statements -/

/-- Settles O39: GEMMF completes with its stores, which are those of a matrix whose rows do not overlap. -/
theorem gemmfWritesEveryElement : Obligations.GemmfWritesEveryElement := by
  intro b m n k lda ldc pa pb ps pz bias pc s hlegal hwf haccess hexclusive
  have hc : checkInstr (.gemmf b m n k lda ldc pa pb ps pz bias pc) = none := checkInstr_eq_none.mpr hlegal
  have hstride : n.toNat ≤ ldc.toNat := checkStride_none.mp (firstCause_none.mp hc _ (by simp))
  have hrun := exec_stores hc rfl haccess hexclusive
  refine ⟨_, hrun, rfl, fun row hrow col hcol => ?_, fun a ha => exec_read_of_not_inRanges hwf hrun ha⟩
  exact Memory.f32_store_matrix hwf (gemmfElem s.mem (weightsOf b n k pb ps pz) bias pa.toNat lda.toNat) hstride
    (fun a ha => lt_of_accessible haccess ha) hrow hcol

/-- Settles O54: `-0.0` comes only of `-0.0` terms, and every lane starts at `+0.0`. -/
theorem floatKernelNeverGivesNegativeZero : Obligations.FloatKernelNeverGivesNegativeZero := by
  refine ⟨rfl, fun a b => eq_negZero_of_fadd, fun l k p h => ?_, fun m w pa lda row col => ?_⟩
  · exact noNegZero_iff.mp (noNegZero_lanesAdd (noNegZero_iff.mpr h) k p)
  · have hdot := dot32_ne_negZero m w pa lda row col
    exact ⟨hdot, hdot⟩

/-- Settles O56: `near_gemmfElem` gives 4101 parts in 2^23, which is less than a thousandth. -/
theorem gemmfStaysCloseToTheExactProduct : Obligations.GemmfStaysCloseToTheExactProduct := by
  intro m w bias pa lda row col hpos hk hrow hbias
  obtain ⟨⟨hn, hi⟩, -, herr⟩ := near_gemmfElem hpos hk hrow hbias
  have hparts := Nat.mul_le_mul_right (exactSize m w bias pa lda row col) (show w.k + 5 ≤ 4101 by omega)
  exact ⟨hn, hi, by omega⟩

/-- Settles O57: every operand of a tile's element is the whole product's. -/
theorem elementsDoNotDependOnTheTile : Obligations.ElementsDoNotDependOnTheTile := by
  intro m w bias bias' pa lda pc ldc c n r row col hbias
  refine ⟨?_, ?_, outAddr_tile c pc ldc r row col, dot32_tile m w c n pa lda r row col, dotQ8_tile m w c n pa r row col⟩
  · rw [gemmfElem, gemmfElem, dot32_tile, addBias_tile m hbias]
  · rw [gemmiElem, gemmiElem, dotQ8_tile, addBias_tile m hbias]

end FloatKernelSettled

end Sys2Proof.Machine
end

section
/-! PROOFS. The statements about the int8 kernel (spec/45_gemm_int8.md): what GEMMI writes (R141, R142), that slots of code 0 add
nothing (R143), that no block sum overflows (R144), and the sign of a zero accumulator and non-finite scales (R147). -/

namespace Sys2Proof.Machine

open Sys2Proof.Safety

section BlockSum
/-! ### The block sum as a sum over its slots (45_gemm_int8 R142 to R144) -/

variable (m : Memory) (w : Weights) (pa row col kb : Nat)

/-- What slot `i` adds to the block sum: its code times the difference of nibble and zero point. -/
def slotProduct (i : Nat) : Int :=
  qCode m pa w.blkLen w.bck row kb i * ((w.nib m .int8 col kb i : Int) - (w.zp m col kb : Int))

theorem blockDot_eq_sum : blockDot m w pa row col kb = ((List.range w.blkLen).map (slotProduct m w pa row col kb)).sum := by
  rw [List.sum_eq_foldl, List.foldl_map]
  rfl

/-- A code is a signed byte (20_memory R55). -/
theorem qCode_bounds (blkLen bck i : Nat) :
    -128 ≤ qCode m pa blkLen bck row kb i ∧ qCode m pa blkLen bck row kb i ≤ 127 := by
  have hlow := BitVec.le_toInt (m.read (qBase pa blkLen bck row kb + 4 + i))
  have hhigh := BitVec.toInt_lt (x := m.read (qBase pa blkLen bck row kb + 4 + i))
  rw [qCode, Memory.s8]
  omega

/-- A code of size at most 128 times a difference of size at most 15. -/
theorem natAbs_slotProduct_le (i : Nat) : (slotProduct m w pa row col kb i).natAbs ≤ 1920 := by
  have hcode := qCode_bounds m pa row kb w.blkLen w.bck i
  have hnib := w.nib_lt m .int8 col kb i
  have hzp := w.zp_lt m col kb
  calc (slotProduct m w pa row col kb i).natAbs
      = (qCode m pa w.blkLen w.bck row kb i).natAbs * ((w.nib m .int8 col kb i : Int) - (w.zp m col kb : Int)).natAbs :=
        Int.natAbs_mul _ _
    _ ≤ 128 * 15 := Nat.mul_le_mul (by omega) (by omega)

theorem natAbs_sum_range_le {f : Nat → Int} {c : Nat} (h : ∀ i, (f i).natAbs ≤ c) (n : Nat) :
    ((List.range n).map f).sum.natAbs ≤ c * n := by
  induction n with
  | zero => simp
  | succ n ih =>
    rw [List.sum_range_succ, Nat.mul_succ]
    exact (Int.natAbs_add_le _ _).trans (Nat.add_le_add ih (h n))

theorem natAbs_blockDot_le : (blockDot m w pa row col kb).natAbs ≤ 1920 * w.blkLen := by
  rw [blockDot_eq_sum]
  exact natAbs_sum_range_le (natAbs_slotProduct_le m w pa row col kb) w.blkLen

variable {m w pa row col kb}

theorem slotProduct_of_code_zero {i : Nat} (h : qCode m pa w.blkLen w.bck row kb i = 0) : slotProduct m w pa row col kb i = 0 := by
  rw [slotProduct, h, zero_mul]

/-- A sum over slots of which those from `valid` on are zero stops there. -/
theorem sum_range_eq_of_zero {f : Nat → Int} {valid n : Nat} (hle : valid ≤ n) (h : ∀ i, valid ≤ i → i < n → f i = 0) :
    ((List.range n).map f).sum = ((List.range valid).map f).sum := by
  obtain ⟨r, rfl⟩ := Nat.exists_eq_add_of_le hle
  have hrest : (((List.range r).map (valid + ·)).map f).sum = 0 := List.sum_eq_zero fun x hx => by
    simp only [List.mem_map, List.mem_range] at hx
    obtain ⟨-, ⟨i, hi, rfl⟩, rfl⟩ := hx
    exact h _ (by omega) (by omega)
  rw [List.range_add, List.map_append, List.sum_append, hrest, add_zero]

end BlockSum

section ConvertedSum
/-! ### A converted block sum times a scale (00_scope R11, R12, 45_gemm_int8 R147) -/

variable {n : Int} {sc : F32}

/-- The rounded magnitude of an integer of 31 bits is below the infinity. -/
theorem roundBits_int_finite (hn : n.natAbs < 2 ^ 31) : roundBits (n.natAbs * 2 ^ 149) 1 < infBits :=
  roundBits_finite Nat.one_pos (by omega)

theorem i2f_finite (hn : n.natAbs < 2 ^ 31) : isNaN (i2f n) = false ∧ isInf (i2f n) = false :=
  ⟨isNaN_withSign _ (roundBits_int_finite hn).le, isInf_withSign _ (roundBits_int_finite hn)⟩

theorem isZero_i2f_of_ne_zero (h : n ≠ 0) : isZero (i2f n) = false := by
  rw [← Bool.not_eq_true, i2f, roundF32, isZero_withSign _ ((roundBits_le_infBits _ _).trans_lt (by decide))]
  exact roundBits_ne_zero (Nat.mul_pos (Int.natAbs_pos.mpr h) (by decide))

/-- A zero sum times a scale that is no finite number is CNAN: the NaN is passed on, and zero times infinity has no value. -/
theorem fmul_i2f_zero (h : isNaN sc = true ∨ isInf sc = true) : fmul (i2f 0) sc = cNaN := by
  rcases h with hnan | hinf
  · exact fmul_of_isNaN (.inr hnan)
  · rw [fmul_comm, fmul_inf_zero hinf (by decide)]

/-- Any other sum times such a scale is CNAN where the scale is a NaN and infinite where it is infinite. -/
theorem fmul_i2f_of_ne_zero (hn : n.natAbs < 2 ^ 31) (hne : n ≠ 0) (h : isNaN sc = true ∨ isInf sc = true) :
    isInf (fmul (i2f n) sc) = true ∨ fmul (i2f n) sc = cNaN := by
  rcases h with hnan | hinf
  · exact .inr (fmul_of_isNaN (.inr hnan))
  · refine .inl ?_
    rw [fmul_comm, fmul_inf hinf (i2f_finite hn).1 (isZero_i2f_of_ne_zero hne), isInf, absBits_withSign _ (by decide),
      beq_self_eq_true]

/-- An activation scale of `+0.0` gives a zero combined scale, and any converted sum times that is a zero. -/
theorem isZero_fmul_zero_scale (hn : n.natAbs < 2 ^ 31) (hsc : isNaN sc = false ∧ isInf sc = false) :
    isZero (fmul 0 sc) = true ∧ isZero (fmul (i2f n) (fmul 0 sc)) = true := by
  have hscale : isZero (fmul 0 sc) = true := by
    rw [fmul_comm]
    exact isZero_fmul hsc (by decide)
  exact ⟨hscale, isZero_fmul (i2f_finite hn) hscale⟩

end ConvertedSum

section Accumulator
/-! ### The accumulator over the blocks (45_gemm_int8 R142, R147) -/

/-- Additions to an accumulator that starts at `+0.0` never give `-0.0`, whatever is added. -/
theorem foldl_fadd_ne_negZero (term : Nat → F32) (kbs : List Nat) :
    kbs.foldl (fun acc kb => fadd acc (term kb)) posZero ≠ negZero :=
  List.foldlRecOn (motive := (· ≠ negZero)) kbs _ (by decide) fun _ hacc _ _ hsum => hacc (eq_negZero_of_fadd hsum).1

/-- `DotQ8` with each block's term written as a sum over its slots. -/
theorem dotQ8_eq_foldl_sum (m : Memory) (w : Weights) (pa row col : Nat) :
    dotQ8 m w pa row col = (List.range w.bck).foldl (fun acc kb => fadd acc
      (fmul (i2f ((List.range w.blkLen).map (slotProduct m w pa row col kb)).sum)
        (fmul (qScale m pa w.blkLen w.bck row kb) (w.scale m col kb)))) posZero := by
  simp only [dotQ8, blockTerm, blockDot_eq_sum]

end Accumulator

section IntKernelSettled
/-! ### The statements -/

/-- Settles O40: GEMMI completes with its stores, which are those of a matrix whose rows do not overlap; `DotQ8` is
`dotQ8_eq_foldl_sum`. -/
theorem gemmiWritesEveryElement : Obligations.GemmiWritesEveryElement := by
  intro b m n k ldc pa pb ps pz bias pc s hlegal hwf haccess hexclusive
  have hc : checkInstr (.gemmi b m n k ldc pa pb ps pz bias pc) = none := checkInstr_eq_none.mpr hlegal
  have hstride : n.toNat ≤ ldc.toNat := checkStride_none.mp (firstCause_none.mp hc _ (by simp))
  have hrun := exec_stores hc rfl haccess hexclusive
  refine ⟨_, hrun, rfl, fun row hrow col hcol => ?_, fun row col => dotQ8_eq_foldl_sum s.mem _ pa.toNat row col,
    fun a ha => exec_read_of_not_inRanges hwf hrun ha⟩
  exact Memory.f32_store_matrix hwf (gemmiElem s.mem (weightsOf b n k pb ps pz) bias pa.toNat) hstride
    (fun a ha => lt_of_accessible haccess ha) hrow hcol

/-- Settles O58: a code has 8 signed bits, nibbles and zero points have four, so a slot adds at most 1920. -/
theorem blockSumsNeverOverflow : Obligations.BlockSumsNeverOverflow := by
  intro m w pa row col kb
  have hsum := natAbs_blockDot_le m w pa row col kb
  refine ⟨fun i => ?_, hsum, fun hlen => by omega⟩
  obtain ⟨hlow, hhigh⟩ := qCode_bounds m pa row kb w.blkLen w.bck i
  exact ⟨hlow, hhigh, w.nib_lt m .int8 col kb i, w.zp_lt m col kb⟩

/-- Settles O59: a slot of code 0 adds a product with 0. -/
theorem paddingCodesAddNothing : Obligations.PaddingCodesAddNothing := by
  intro m w pa row col kb valid hvalid hpad
  rw [blockDot_eq_sum]
  exact sum_range_eq_of_zero hvalid fun i hi hlt => slotProduct_of_code_zero (hpad i hi hlt)

/-- Settles O60: `-0.0` comes only of `-0.0` terms and the accumulator starts at `+0.0`; the products are those of a finite
converted sum by the class of the scale. -/
theorem intKernelSignsAndNonFiniteScales : Obligations.IntKernelSignsAndNonFiniteScales := by
  refine ⟨fun m w pa row col blocks => foldl_fadd_ne_negZero (blockTerm m w pa row col) _,
    fun m w pa row col => foldl_fadd_ne_negZero (blockTerm m w pa row col) _, fun sc n hn hsc => ⟨?_, ?_⟩,
    fun x => fadd_of_isNaN (.inl (by decide)), fun sc n hn hnan hinf => isZero_fmul_zero_scale hn ⟨hnan, hinf⟩⟩
  · rintro rfl
    exact fmul_i2f_zero hsc
  · exact fun hne => fmul_i2f_of_ne_zero hn hne hsc

end IntKernelSettled

end Sys2Proof.Machine
end

section
/-! PROOFS. The statements about the checks and the faults (spec/60_exceptions.md): the checks in their order (R156), memory after a
fault (R153), the way out of the faulted condition (R154) and what it keeps until then (R155), the engine instances (R171), and the
idle engine (R175). -/

namespace Sys2Proof.Machine

open Sys2Proof.Safety

section FaultRecord
/-! ### What a fault records (60_exceptions R152) -/

/-- What fault entry records of a cause: ERRCODE and ERRINFO. -/
def Cause.record (c : Cause) : Byte × Word := (faultNumber c.code, c.info)

/-- Fault entry writes the cause's record, sets ERR and clears BUSY. -/
theorem takeFault_eq (c : Cause) (s : State) :
    takeFault c s = { s with
      eng := { s.eng with errCode := c.record.1, errInfo := c.record.2, err := true, busy := false } } := rfl

/-- A data bus fault reports a refused address (20_memory R46, 93 U4). -/
theorem busCause_info {refused : List Nat} (h : refused ≠ []) (s : State) :
    ∃ a ∈ refused, (busCause refused s).info = BitVec.ofNat 64 a := by
  have hlt : Config.anyIndex s.fresh % refused.length < refused.length :=
    Nat.mod_lt _ (List.length_pos_iff.mpr h)
  refine ⟨_, List.getElem_mem hlt, ?_⟩
  rw [busCause, List.getD_eq_getElem _ _ hlt]

end FaultRecord

section FetchChecks
/-! ### Steps 1 and 2: the fetch of the descriptor (60_exceptions R156, 20_memory R46) -/

variable {mapped : List Range} {a : Word}

/-- The lowest refused byte of a range is the first one at an offset into the range. -/
theorem head?_refusedAddrs (mapped : List Range) (base len : Nat) :
    (refusedAddrs mapped [⟨base, len⟩]).head? =
      ((List.range len).find? fun i => !isMapped mapped (base + i)).map (base + ·) := by
  simp only [refusedAddrs, addrsOf, Range.addrs, List.flatMap_cons, List.flatMap_nil, List.append_nil, List.head?_filter,
    List.find?_map, Function.comp_def]

/-- The fetch's checks: alignment first, then the lowest refused byte of the 72. -/
theorem fetchCause_eq (mapped : List Range) (a : Word) :
    fetchCause mapped a = if a.toNat % 8 ≠ 0 then some ⟨.descAlign, a⟩ else
      ((List.range 72).find? fun i => !isMapped mapped (a.toNat + i)).map fun i => ⟨.bus, BitVec.ofNat 64 (a.toNat + i)⟩ := by
  have hhead : fetchCause mapped a = if a.toNat % 8 ≠ 0 then some ⟨.descAlign, a⟩ else
      (refusedAddrs mapped [⟨a.toNat, 72⟩]).head?.map fun b => ⟨.bus, BitVec.ofNat 64 b⟩ := by
    unfold fetchCause
    cases refusedAddrs mapped [⟨a.toNat, 72⟩] <;> rfl
  rw [hhead, head?_refusedAddrs, Option.map_map]
  rfl

/-- A fetch without a fault is aligned and finds no refused byte. -/
theorem aligned_and_mapped_of_fetchCause_none (h : fetchCause mapped a = none) :
    a.toNat % 8 = 0 ∧ (List.range 72).find? (fun i => !isMapped mapped (a.toNat + i)) = none := by
  rw [fetchCause_eq] at h
  split at h
  · simp at h
  · next halign => exact ⟨not_not.mp halign, Option.map_eq_none_iff.mp h⟩

/-- The fault of the fetch is the first in the order. -/
theorem orderedCause_of_fetchCause {c : Cause} (h : fetchCause mapped a = some c) (d : Descriptor) :
    orderedCause mapped a d = some c.record := by
  rw [fetchCause_eq] at h
  unfold orderedCause
  split at h
  · next halign =>
    obtain rfl := Option.some.inj h
    exact if_pos halign
  · next halign =>
    obtain ⟨i, hi, rfl⟩ := Option.map_eq_some_iff.mp h
    simp only [halign, hi, if_false]
    rfl

end FetchChecks

section DescriptorChecks
/-! ### Steps 3 to 7: the checks of the latched descriptor (60_exceptions R156) -/

variable {mapped : List Range} {a : Word} {d : Descriptor}

/-- An opcode selects no command exactly when it is 0 or above 8 (30_encoding R75). -/
theorem Descriptor.select_eq_none : d.select = none ↔ d.opcode.toNat = 0 ∨ 9 ≤ d.opcode.toNat := by
  unfold Descriptor.select
  split
  case h_9 =>
    simp only [imp_false, true_iff] at *
    omega
  all_goals simp [*]

/-- Steps 3 and 4: the fault of a descriptor that decodes to no command is its opcode's, then its reserved flags'. -/
theorem orderedCause_of_decode_error {e : DecodeError} (hfetch : fetchCause mapped a = none) (h : decode d = .error e) :
    orderedCause mapped a d = some (decodeCause e).record := by
  obtain ⟨halign, hbytes⟩ := aligned_and_mapped_of_fetchCause_none hfetch
  unfold decode at h
  unfold orderedCause
  simp only [halign, hbytes, ne_eq, not_true_eq_false, if_false]
  split at h
  · next hselect =>
    obtain rfl := Except.error.inj h
    exact if_pos (Descriptor.select_eq_none.mp hselect)
  · next i hselect =>
    split at h
    · next hflags =>
      obtain rfl := Except.error.inj h
      have hopcode : ¬(d.opcode.toNat = 0 ∨ 9 ≤ d.opcode.toNat) := fun hop => by
        simp [Descriptor.select_eq_none.mpr hop] at hselect
      rw [if_neg hopcode, if_pos hflags]
      rfl
    · simp at h

/-- The record of the first failing check of a list whose head is one condition. -/
theorem record_firstCause_ite (p : Prop) [Decidable p] (c : Cause) (cs : List (Option Cause)) :
    (firstCause ((if p then some c else none) :: cs)).map Cause.record =
      if p then some c.record else (firstCause cs).map Cause.record := by
  split <;> rfl

theorem record_checkBlkLen (b : BitVec 16) (cs : List (Option Cause)) :
    (firstCause (checkBlkLen b :: cs)).map Cause.record =
      if b.toNat < 16 ∨ b.toNat % 16 ≠ 0 then some (5, b.setWidth 64) else (firstCause cs).map Cause.record :=
  record_firstCause_ite _ _ _

theorem record_checkDim (info : Word) (x : BitVec 32) (cs : List (Option Cause)) :
    (firstCause (checkDim info x :: cs)).map Cause.record =
      if 2 ^ 31 ≤ x.toNat then some (6, info) else (firstCause cs).map Cause.record :=
  record_firstCause_ite _ _ _

theorem record_checkStride (ldc : BitVec 32) (width : Nat) (cs : List (Option Cause)) :
    (firstCause (checkStride ldc width :: cs)).map Cause.record =
      if ldc.toNat < width then some (6, 4) else (firstCause cs).map Cause.record :=
  record_firstCause_ite _ _ _

theorem record_checkAlign (p : Word) (cs : List (Option Cause)) :
    (firstCause (checkAlign p :: cs)).map Cause.record =
      if p.toNat % 4 ≠ 0 then some (7, p) else (firstCause cs).map Cause.record :=
  record_firstCause_ite _ _ _

/-- The bias pointer is checked only under its flag. -/
theorem record_checkBias (d : Descriptor) (cs : List (Option Cause)) :
    (firstCause (checkBias d.bias :: cs)).map Cause.record =
      if d.flags.getLsbD 1 = true ∧ d.ptrBias.toNat % 4 ≠ 0 then some (7, d.ptrBias)
      else (firstCause cs).map Cause.record := by
  cases hflag : d.flags.getLsbD 1 with
  | false =>
    rw [Descriptor.bias, hflag]
    rfl
  | true =>
    rw [Descriptor.bias, hflag]
    simpa [checkBias] using record_checkAlign d.ptrBias cs

theorem record_firstCause_nil : (firstCause []).map Cause.record = none := rfl

/-- Steps 5 to 7: each command's checks are the steps that its opcode takes part in, in their order. -/
theorem orderedCause_of_decode_ok {i : Instr} (hfetch : fetchCause mapped a = none) (h : decode d = .ok i) :
    orderedCause mapped a d = (checkInstr i).map Cause.record := by
  obtain ⟨halign, hbytes⟩ := aligned_and_mapped_of_fetchCause_none hfetch
  obtain ⟨hselect, hflags⟩ := decode_eq_ok.mp h
  unfold orderedCause
  simp only [halign, hbytes, Nat.not_le_of_lt hflags]
  unfold Descriptor.select at hselect
  -- Case `h_n` is opcode `n` for `n` up to 8.
  split at hselect
  case h_9 => simp at hselect
  all_goals
    next hop =>
    obtain rfl := Option.some.inj hselect
    simp [hop, checkInstr, record_checkBlkLen, record_checkDim, record_checkStride, record_checkAlign, record_checkBias,
      record_firstCause_nil, roundUp16]

end DescriptorChecks

section Ends
/-! ### Step 8 and the end of a command (60_exceptions R156, 30_encoding R81) -/

/-- With an engine's turn next, a step is that turn. -/
theorem step_engine {s : State} (h : nextTurn s = .engine) : step s = engineTurn { s with turns := s.turns.tail } := by
  rw [step_eq, h]
  rfl

/-- A query has no data footprint, so no byte of it is refused (20_memory R57). -/
theorem refusedOf_query {i : Instr} {r : Nat} (hq : queryValue i = some r) (s : State) : refusedOf i s = [] := by
  cases i with
  | packsz | wssz | wsalign => rfl
  | pack | gemmf | deq | gemmi | qrow => simp [queryValue] at hq

/-- A command whose checks fail raises the fault of the first failing one, before any data access (30_encoding R79). -/
theorem exec_check_fails {i : Instr} {c : Cause} (s : State) (hc : checkInstr i = some c) :
    exec i s = .next (takeFault c s) := by
  rw [exec_eq]
  cases queryValue i with
  | some r => simp only [runQuery, hc]
  | none => simp only [runStores, hc]

/-- A command that passes its checks ends: with ERR_BUS and a refused address when a byte of its footprints is refused, and else,
when it breaks no software obligation, by completion. -/
theorem exec_ends {i : Instr} (s : State) (hc : checkInstr i = none) :
    ∃ t, exec i s = .next t ∧ t.turns = s.turns ∧ t.eng.busy = false ∧
      (refusedOf i s ≠ [] → t.eng.err = true ∧ t.eng.errCode = 2 ∧
        ∃ a ∈ refusedOf i s, t.eng.errInfo = BitVec.ofNat 64 a) ∧
      (refusedOf i s = [] → Exclusive i s → t.eng.done = true ∧ t.eng.err = s.eng.err) := by
  rcases exec_cases i s with ⟨c, hfail, -⟩ | ⟨r, -, hq, e⟩ | ⟨-, -, hr, e⟩ | ⟨-, -, hr, hh, e⟩ | ⟨-, -, hr, -, e⟩
  · simp [hc] at hfail
  · exact ⟨_, e, rfl, rfl, fun hne => absurd (refusedOf_query hq s) hne, fun _ _ => ⟨rfl, rfl⟩⟩
  · exact ⟨_, e, rfl, rfl, fun _ => ⟨rfl, rfl, busCause_info hr s⟩, fun hnil => absurd hnil hr⟩
  · exact ⟨_, e, rfl, rfl, fun hne => absurd hr hne, fun _ hfree => Bool.noConfusion (hh.symm.trans hfree)⟩
  · exact ⟨_, e, rfl, rfl, fun hne => absurd hr hne, fun _ _ => ⟨rfl, rfl⟩⟩

/-- A command that sets ERR with a code other than 2 has failed a check and stored nothing: the only fault of a command that comes
after its checks is a data ERR_BUS (60_exceptions R153). -/
theorem exec_fault_mem {i : Instr} {s t : State} (h : exec i s = .next t) (hclear : s.eng.err = false)
    (herr : t.eng.err = true) (hcode : t.eng.errCode ≠ 2) : t.mem = s.mem := by
  rcases exec_cases i s with ⟨c, -, e⟩ | ⟨r, -, -, e⟩ | ⟨-, -, -, e⟩ | ⟨-, -, -, -, e⟩ | ⟨-, -, -, -, e⟩ <;>
    rw [e] at h <;> obtain rfl := Host.Outcome.next.inj h
  · rfl
  · rfl
  · exact absurd rfl hcode
  · simp [hclear] at herr
  · simp [hclear] at herr

/-- After a fault that is not a data ERR_BUS memory is unchanged (60_exceptions R153). -/
theorem engineTurn_fault_mem {s t : State} (h : engineTurn s = .next t) (hclear : s.eng.err = false)
    (herr : t.eng.err = true) (hprecise : t.eng.errCode ≠ 2 ∨ fetchCause s.mapped s.eng.cmd ≠ none) : t.mem = s.mem := by
  rcases engineTurn_cases s with ⟨-, e⟩ | ⟨c, -, -, e⟩ | ⟨d, -, -, -, e⟩ | ⟨i, -, hfetch, -, e⟩ <;> rw [e] at h
  · obtain rfl := Host.Outcome.next.inj h
    rfl
  · obtain rfl := Host.Outcome.next.inj h
    rfl
  · obtain rfl := Host.Outcome.next.inj h
    rfl
  · exact exec_fault_mem h hclear herr (hprecise.resolve_right (not_not.mpr hfetch))

end Ends

section Faulted
/-! ### The faulted condition (60_exceptions R154, R155) -/

/-- In the faulted condition BUSY and DONE are 0 (10_state R34). -/
theorem busy_done_of_err {e : Engine} (h : oneCondition e) (herr : e.err = true) : e.busy = false ∧ e.done = false := by
  rcases h with ⟨-, hidle⟩ | ⟨-, -, hbusy⟩ | ⟨hb, -, hd⟩
  · simp [herr] at hidle
  · simp [herr] at hbusy
  · exact ⟨hb, hd⟩

/-- A register write clears ERR exactly when it writes 1 to STATUS bit 2. -/
theorem clearsErr_regWrite {addr w : Word} {size : Nat} {r : Reg} {s : State} (h : accessedReg addr size s.eng = some r) :
    clearsErr s (.regWrite addr size w) = true ↔ r = .status ∧ w.getLsbD 2 = true := by
  by_cases hr : r = .status <;> simp [clearsErr, writesReg, h, hr]

/-- In the faulted condition a write to STATUS with bit 2 at 1 clears ERR and the recorded cause, and nothing else. -/
theorem clearStatus_of_faulted {w : Word} {e : Engine} (herr : e.err = true) (hdone : e.done = false)
    (hw : w.getLsbD 2 = true) : clearStatus w e = { e with err := false, errCode := 0, errInfo := 0 } := by
  simp [clearStatus, herr, hdone, hw]

/-- With DONE at 0, a write to STATUS with bit 2 at 0 changes nothing. -/
theorem clearStatus_of_kept {w : Word} {e : Engine} (hdone : e.done = false) (hw : w.getLsbD 2 = false) :
    clearStatus w e = e := by
  have hkeep : (if w.getLsbD 1 then false else e.done) = e.done := by simp [hdone]
  simp only [clearStatus, hkeep, hw, Bool.false_and, Bool.false_eq_true, if_false]

/-- A register write to a faulted engine that neither clears ERR nor resets changes at most IRQ_EN. -/
theorem writeReg_of_faulted {r : Reg} {w : Word} {s : State} (hcond : oneCondition s.eng) (herr : s.eng.err = true)
    (hclear : ¬(r = .status ∧ w.getLsbD 2 = true))
    (hreset : ¬(r = .ctrl ∧ w.getLsbD 1 = true ∧ s.eng.busy = false)) :
    ∃ irqEn, (writeReg r w s).eng = { s.eng with irqEn } := by
  obtain ⟨-, hdone⟩ := busy_done_of_err hcond herr
  rcases writeReg_cases r w s with e | ⟨hr, hw, hb, -⟩ | ⟨-, -, e⟩ | ⟨hr, e⟩ | ⟨-, -, hok, -⟩
  · exact ⟨s.eng.irqEn, by rw [e]⟩
  · exact absurd ⟨hr, hw, hb⟩ hreset
  · exact ⟨w.getLsbD 0, by rw [e]⟩
  · have hw : w.getLsbD 2 = false := Bool.eq_false_iff.mpr fun hw => hclear ⟨hr, hw⟩
    exact ⟨s.eng.irqEn, by rw [e, clearStatus_of_kept hdone hw]⟩
  · simp [herr] at hok

/-- A turn that neither clears ERR, resets nor selects changes at most IRQ_EN and the model's own flag of a faulted engine. -/
theorem takeTurn_of_faulted {u : Turn} {s t : State} (hcond : oneCondition s.eng) (herr : s.eng.err = true)
    (hu : notSelect u = true) (hclear : clearsErr s u = false) (hreset : resets s u = false) (h : takeTurn u s = .next t) :
    ∃ irqEn disturbed, t.eng = { s.eng with irqEn, disturbed } := by
  obtain ⟨hbusy, -⟩ := busy_done_of_err hcond herr
  rcases takeTurn_cases h with ⟨-, h⟩ | ⟨addr, size, r, -, -, rfl⟩ | ⟨addr, size, w, r, rfl, hr, rfl⟩ | ⟨a, -, rfl⟩ |
    ⟨a, b, -, rfl⟩ | ⟨rfl, -⟩ | ⟨k, e, rfl, -, -⟩
  · rcases engineTurn_engine h with ⟨-, rfl⟩ | ⟨hrun, -⟩
    · exact ⟨_, _, rfl⟩
    · simp [hbusy] at hrun
  · exact ⟨_, _, rfl⟩
  · obtain ⟨irqEn, e⟩ := writeReg_of_faulted (w := w) hcond herr
      (mt (clearsErr_regWrite hr).mpr (by simp [hclear])) (mt (resets_regWrite hr).mpr (by simp [hreset]))
    exact ⟨irqEn, _, e⟩
  · exact ⟨_, _, rfl⟩
  · rcases disturbAt_cases s.mapped a.toNat s.eng with e | e
    · exact ⟨_, _, by rw [memWriteTurn_eng, e]⟩
    · exact ⟨_, _, by rw [memWriteTurn_eng, e]⟩
  · simp [resets] at hreset
  · simp [notSelect] at hu

end Faulted

section ExceptionsSettled
/-! ### The statements -/

/-- Settles O12: the three ways a busy engine's turn begins, each against the ordered checks. -/
theorem checksAreMadeInOrder : Obligations.ChecksAreMadeInOrder := by
  intro s hbusy hturn
  rw [step_engine hturn]
  rcases engineTurn_cases { s with turns := s.turns.tail } with ⟨hidle, -⟩ | ⟨c, -, hfetch, e⟩ | ⟨d, -, hfetch, hdecode, e⟩ |
    ⟨i, -, hfetch, hdecode, e⟩
  · simp [hbusy] at hidle
  · rw [e, orderedCause_of_fetchCause hfetch, takeFault_eq]
  · rw [e, orderedCause_of_decode_error hfetch hdecode, takeFault_eq]
  · rw [e, orderedCause_of_decode_ok hfetch hdecode]
    cases hc : checkInstr i with
    | some c => exact exec_check_fails _ hc
    | none =>
      obtain ⟨t, hrun, hend⟩ := exec_ends { s with turns := s.turns.tail } hc
      exact ⟨i, t, ⟨hbusy, hfetch, by rw [hdecode]; rfl⟩, hrun, hend⟩

/-- Settles O13: a precise fault stores nothing, and a running command stores only in its write footprint. -/
theorem memoryAfterAFault : Obligations.MemoryAfterAFault := by
  intro s t hwf _ hclear hturn h herr
  rw [step_engine hturn] at h
  refine ⟨engineTurn_fault_mem (s := { s with turns := s.turns.tail }) h hclear herr, fun i hrun a ha => ?_⟩
  rw [engineTurn_of_running (s := { s with turns := s.turns.tail }) hrun] at h
  exact exec_read_of_not_inRanges (s := { s with turns := s.turns.tail }) hwf h ha

/-- Settles O14: such a turn changes at most IRQ_EN and the model's own flag. -/
theorem faultRecordIsKept : Obligations.FaultRecordIsKept := by
  intro s t hok herr hu hclear hreset h
  obtain ⟨hbusy, hdone⟩ := busy_done_of_err hok.1 herr
  obtain ⟨irqEn, disturbed, e⟩ :=
    takeTurn_of_faulted (s := { s with turns := s.turns.tail }) hok.1 herr hu hclear hreset h
  rw [e]
  exact ⟨herr, rfl, rfl, hbusy, hdone, rfl, rfl, rfl⟩

/-- Settles O31: a step is a turn, and no turn but a select changes what the spec gives another engine. -/
theorem instancesShareOnlyMemory : Obligations.InstancesShareOnlyMemory := by
  intro s t hu h
  exact takeTurn_others (s := { s with turns := s.turns.tail }) hu h

/-- Settles O10: the first case of the engine's turn. -/
theorem idleEngineDoesNothing : Obligations.IdleEngineDoesNothing := by
  intro s hidle hturn
  rw [step_engine hturn]
  exact if_neg (by simp [hidle])

/-- Settles O15: the step is the register's write, from the faulted condition. -/
theorem faultReturn : Obligations.FaultReturn := by
  intro s t hok herr h
  obtain ⟨hbusy, hdone⟩ := busy_done_of_err hok.1 herr
  refine ⟨fun hclears => ?_, fun w hwrites hw => ?_⟩
  · obtain ⟨w, hwrites, hw⟩ := (Option.any_eq_true ..).mp hclears
    obtain rfl := Host.Outcome.next.inj ((step_writesReg hwrites).symm.trans h)
    exact ⟨clearStatus_of_faulted herr hdone hw, hbusy, rfl⟩
  · obtain rfl := Host.Outcome.next.inj ((step_writesReg hwrites).symm.trans h)
    rw [writeReg_ctrl_softReset (s := { s with turns := s.turns.tail }) hbusy hw]
    exact ⟨rfl, rfl⟩

end ExceptionsSettled

end Sys2Proof.Machine
end

section
/-! PROOFS. The statements about resets and hazards (spec/70_reset_and_hazards.md): the hard reset (R181), a command that breaks a
software obligation (R185, R186), the dropped doorbell (R189), and that every accepted command of every engine instance ends (R192,
R193). -/

namespace Sys2Proof.Machine

open Sys2Proof.Safety

section Answers
/-! ### The engine's turn always answers (70_reset R192) -/

/-- Every command answers a next state, and leaves the pending turns. -/
theorem exec_answers (i : Instr) (s : State) : ∃ t, exec i s = .next t ∧ t.turns = s.turns := by
  cases hc : checkInstr i with
  | some c => exact ⟨_, exec_check_fails s hc, rfl⟩
  | none =>
    obtain ⟨t, hrun, hturns, -⟩ := exec_ends s hc
    exact ⟨t, hrun, hturns⟩

/-- Every turn of an engine answers a next state, and leaves the pending turns. -/
theorem engineTurn_answers (s : State) : ∃ t, engineTurn s = .next t ∧ t.turns = s.turns := by
  rcases engineTurn_cases s with ⟨-, e⟩ | ⟨c, -, -, e⟩ | ⟨d, -, -, -, e⟩ | ⟨i, -, -, -, e⟩ <;> rw [e]
  · exact ⟨_, rfl, rfl⟩
  · exact ⟨_, rfl, rfl⟩
  · exact ⟨_, rfl, rfl⟩
  · exact exec_answers i s

/-- The turn of a busy engine ends its command: by completion, which keeps ERR, or by a fault, which keeps DONE. -/
theorem engineTurn_ends {s t : State} (hb : s.eng.busy = true) (h : engineTurn s = .next t) :
    t.eng.busy = false ∧
      ((t.eng.done = true ∧ t.eng.err = s.eng.err) ∨ (t.eng.err = true ∧ t.eng.done = s.eng.done)) := by
  rcases engineTurn_engine h with ⟨hidle, -⟩ | ⟨-, ⟨c, e⟩ | ⟨r, e, -⟩⟩
  · simp [hb] at hidle
  · rw [e]
    exact ⟨rfl, .inr ⟨rfl, rfl⟩⟩
  · rw [e]
    exact ⟨rfl, .inl ⟨rfl, rfl⟩⟩

end Answers

section CountDown
/-! ### Steps until no engine instance is busy (70_reset R193, log 2) -/

/-- How many steps with no turn pending the busy engines still take: one for the selected engine, two for another one, which is
selected first. -/
def stepsToIdle (s : State) : Nat := 2 * s.others.countP Engine.busy + s.eng.busy.toNat

theorem busyCount_eq (s : State) : busyCount s = s.others.countP Engine.busy + s.eng.busy.toNat := by
  simp only [busyCount, List.countP_cons, Bool.toNat, Bool.cond_eq_ite]

theorem stepsToIdle_le (s : State) : stepsToIdle s ≤ 2 * busyCount s := by
  rw [stepsToIdle, busyCount_eq]
  omega

theorem busyCount_eq_zero {s : State} (h : stepsToIdle s = 0) : busyCount s = 0 := by
  rw [stepsToIdle] at h
  rw [busyCount_eq]
  omega

/-- Engine lists that agree but for the model's own flag have the same busy engines. -/
theorem countP_busy_congr {es fs : List Engine} (h : es.map specRegisters = fs.map specRegisters) :
    es.countP Engine.busy = fs.countP Engine.busy := by
  have hmap : ∀ l : List Engine, (l.map specRegisters).countP Engine.busy = l.countP Engine.busy := fun l => by
    rw [List.countP_map]
    rfl
  rw [← hmap es, h, hmap]

/-- Selecting another engine permutes the engines, so as many are busy as before. -/
theorem countP_busy_set {es : List Engine} {k : Nat} {e : Engine} (hk : es[k]? = some e) (f : Engine) :
    (es.set k f).countP Engine.busy + e.busy.toNat = es.countP Engine.busy + f.busy.toNat := by
  have hperm : (e :: es.set k f).Perm (f :: es) := by simpa [hk] using es.getD_set_perm_cons k f
  simpa only [List.countP_cons, Bool.toNat, Bool.cond_eq_ite] using hperm.countP_eq Engine.busy

/-- With no turn pending a step answers, leaves none pending, and is one of the steps counted. -/
theorem step_counts_down {s : State} (h : s.turns = []) :
    ∃ t, step s = .next t ∧ t.turns = [] ∧ stepsToIdle t = stepsToIdle s - 1 := by
  cases hb : s.eng.busy with
  | true =>
    obtain ⟨t, hrun, hturns⟩ := engineTurn_answers s
    obtain ⟨hidle, -⟩ := engineTurn_ends hb hrun
    have hothers := countP_busy_congr (engineTurn_others hrun)
    exact ⟨t, (step_nil h hb).trans hrun, hturns.trans h, by simp [stepsToIdle, hb, hidle, hothers]⟩
  | false =>
    rcases step_nil_idle h hb with ⟨hnone, e⟩ | ⟨k, e, hk, he, hstep⟩
    · have hothers : s.others.countP Engine.busy = 0 := by
        simpa [List.countP_eq_zero, List.findIdx?_eq_none_iff] using hnone
      exact ⟨s, e, h, by simp [stepsToIdle, hb, hothers]⟩
    · refine ⟨_, hstep, h, ?_⟩
      have hcount := countP_busy_set hk s.eng
      simp only [stepsToIdle, he, hb, Bool.toNat_true, Bool.toNat_false] at hcount ⊢
      omega

/-- With no turn pending any number of steps answers, and counts down that many. -/
theorem runSteps_counts_down (n : Nat) {s : State} (h : s.turns = []) :
    ∃ t, runSteps n s = .next t ∧ t.turns = [] ∧ stepsToIdle t = stepsToIdle s - n := by
  induction n generalizing s with
  | zero => exact ⟨s, rfl, h, rfl⟩
  | succ n ih =>
    obtain ⟨u, hstep, hu, hcount⟩ := step_counts_down h
    obtain ⟨t, hrun, ht, hcount'⟩ := ih hu
    refine ⟨t, ?_, ht, by omega⟩
    simpa only [runSteps, hstep] using hrun

end CountDown

section FreeFootprint
/-! ### What a hard reset and a broken obligation leave (70_reset R181, R185, R186) -/

/-- A hard reset leaves every byte outside the write footprint of the running command, if there is one. -/
theorem hardReset_read {s : State} (hwf : s.mem.wf) {a : Nat}
    (ha : ∀ i, runningJob s.mapped s.eng = some i → inRanges (writeFootprint i) a = false) :
    (hardReset s).mem.read a = s.mem.read a := by
  rcases hardReset_cases s with ⟨-, e⟩ | ⟨i, hjob, e⟩ <;> rw [e, resetRegisters_mem]
  exact scramble_read (s := disturbOthers i s) hwf (ha i hjob)

/-- A storing command that passes its checks, is refused no byte and breaks a software obligation completes with free values in
its write footprint (log 8, log 9). -/
theorem exec_hazard {i : Instr} {s : State} (hc : checkInstr i = none) (hq : queryValue i = none)
    (hr : refusedOf i s = []) (hh : hazard i s = true) :
    exec i s = .next (complete none (scramble i (disturbOthers i s))) := by
  simp [exec_eq, hq, runStores, hc, hr, hh]

end FreeFootprint

section ResetSettled
/-! ### The statements -/

/-- Settles O8: the step is the doorbell, which is dropped. -/
theorem droppedDoorbellLeavesNoRecord : Obligations.DroppedDoorbellLeavesNoRecord := by
  intro s a hring hset
  rw [step_writesReg hring]
  exact congrArg _ (ringDoorbell_dropped (s := { s with turns := s.turns.tail }) hset)

/-- Settles O9: a busy engine's turn answers and ends its command, and `stepsToIdle` bounds the steps of all of them. -/
theorem everyAcceptedCommandEnds : Obligations.EveryAcceptedCommandEnds := by
  refine ⟨fun s hbusy herr hturn => ?_, fun s hnone => ?_⟩
  · obtain ⟨t, hrun, -⟩ := engineTurn_answers { s with turns := s.turns.tail }
    obtain ⟨hidle, hend⟩ := engineTurn_ends (s := { s with turns := s.turns.tail }) hbusy hrun
    exact ⟨t, (step_engine hturn).trans hrun, hidle, hend.imp_left (And.imp_right (·.trans herr))⟩
  · obtain ⟨t, hrun, ht, hcount⟩ := runSteps_counts_down (2 * busyCount s) hnone
    exact ⟨t, hrun, ht, busyCount_eq_zero (by rw [hcount, Nat.sub_eq_zero_of_le (stepsToIdle_le s)])⟩

/-- Settles O25: the registers are those after a reset, and the bytes are `hardReset_read`. -/
theorem hardResetRule : Obligations.HardResetRule := by
  intro s t hwf hturn h
  rw [step_eq, hturn] at h
  obtain rfl := Host.Outcome.next.inj h
  refine ⟨fun r => ?_, fun a ha => hardReset_read (s := { s with turns := s.turns.tail }) hwf ha⟩
  rw [hardReset_engine]
  exact readReg_afterReset _ _ r

/-- Settles O32: a query completes with its value and stores nothing, any other command completes with free values. -/
theorem brokenObligationOnlyFreesTheFootprint : Obligations.BrokenObligationOnlyFreesTheFootprint := by
  intro i s hlegal hwf haccess hbroken
  have hc : checkInstr i = none := checkInstr_eq_none.mpr hlegal
  cases hq : queryValue i with
  | some r =>
    have hrun := exec_query s hc hq
    exact ⟨_, hrun, rfl, fun hop => absurd (query_opcode (by simp [hq])) hop,
      fun a ha => exec_read_of_not_inRanges hwf hrun ha⟩
  | none =>
    have hrun := exec_hazard hc hq haccess hbroken
    exact ⟨_, hrun, rfl, fun _ => rfl, fun a ha => exec_read_of_not_inRanges hwf hrun ha⟩

end ResetSettled

end Sys2Proof.Machine
end
